-- ==== Sys2Proof/Word.lean ====
section
/-! DEFINITION. The machine's plain types: bytes, register words, pixels, and the two code sets. -/

namespace Sys2Proof

/-- One byte of the input or output space, or a D8 pixel (00_scope R11). -/
abbrev Byte := BitVec 8

/-- A host register (REG_W = 32, 00_scope R8). -/
abbrev Word := BitVec 32

/-- A D24 pixel: byte `i` is bits `8i+7 .. 8i`, byte 0 blue (00_scope R11). -/
abbrev Pixel := BitVec 24

/-- The path of a decode, and with it the code set (10_state R44, 40_dispatch R130). -/
inductive Path where
  | d24
  | d8
  deriving DecidableEq, Repr

end Sys2Proof
end

