-- ==== Sys2Proof/Syntax.lean ====
section
/-! DEFINITION. The instructions: the 15 control codes and the 3 host commands of opcode_table.json. -/

namespace Sys2Proof

/-- One constructor per row of opcode_table.json (30_encoding R107). Operands are the fields of R92 to R97 and,
for a host command, the fields of the value written to CTRL (10_state R24). -/
inductive Instr where
  /-- LITP, a pending literal (R161). -/
  | litp (pix : Pixel)
  /-- DREFS (R162): `c` the count, `f` the slot. -/
  | drefs (c : BitVec 2) (f : BitVec 5)
  /-- DREFL (R163): `f` and `x` make the count, `p` is the slot. -/
  | drefl (f : BitVec 5) (x : BitVec 1) (p : BitVec 7)
  /-- DREFX (R164): slot `p`, count `k`. -/
  | drefx (p : BitVec 7) (k : BitVec 32)
  /-- LITC (R165): chain byte `m`. -/
  | litc (m : Byte) (pix : Pixel)
  /-- LITX (R166): count `k`. -/
  | litx (k : BitVec 32) (pix : Pixel)
  /-- LITR (R167): count `n`. -/
  | litr (n : BitVec 7) (pix : Pixel)
  /-- BREF (R181): slot `hi - 1`, count `lo + 1`. -/
  | bref (hi lo : BitVec 4)
  /-- BLIT (R182): count `lo + 1`. -/
  | blit (lo : BitVec 4) (b : Byte)
  /-- BLIT8 (R183). -/
  | blit8 (k : BitVec 8) (b : Byte)
  /-- BLIT16 (R184). -/
  | blit16 (k : BitVec 16) (b : Byte)
  /-- BLIT32 (R185): `k` is signed. -/
  | blit32 (k : BitVec 32) (b : Byte)
  /-- BREF8 (R186). -/
  | bref8 (k : BitVec 8) (sel q : BitVec 4)
  /-- BREF16 (R187). -/
  | bref16 (k : BitVec 16) (sel q : BitVec 4)
  /-- BREF32 (R188): `k` is signed. -/
  | bref32 (k : BitVec 32) (sel q : BitVec 4)
  /-- START_DECODE (R122): a CTRL write with START = 1 and OP = 0; the other writable bits are operands. -/
  | startDecode (abort hdr ie : Bool)
  /-- START_ENCODE (R123): a CTRL write with START = 1 and OP ≠ 0. -/
  | startEncode (abort : Bool) (op : BitVec 2) (hdr ie : Bool)
  /-- ABORT (R132): a CTRL write with ABORT = 1. -/
  | abort (start : Bool) (op : BitVec 2) (hdr ie : Bool)
  deriving DecidableEq, Repr

end Sys2Proof
end

