-- ==== Sys2Proof/WellFormed.lean ====
section
/-! DEFINITION. Which instruction terms are instructions: the constraints of opcode_table.json on operands. -/

namespace Sys2Proof

/-- The operand constraints of 30_encoding R93 and R96 and of the CTRL rows (R107). Every form not named here
takes every operand value (R100). -/
def Instr.wf : Instr → Bool
  | .litp _ => true
  | .drefs c _ => c != 0
  | .drefl f x _ => !(f == 0 && x == 0)
  | .drefx _ _ => true
  | .litc _ _ => true
  | .litx _ _ => true
  | .litr n _ => decide (2 ≤ n.toNat)
  | .bref hi _ => hi != 0
  | .blit lo _ => decide (lo.toNat ≤ 9)
  | .blit8 _ _ => true
  | .blit16 _ _ => true
  | .blit32 _ _ => true
  | .bref8 _ _ _ => true
  | .bref16 _ _ _ => true
  | .bref32 _ _ _ => true
  | .startDecode _ _ _ => true
  | .startEncode _ op _ _ => op != 0
  | .abort _ _ _ _ => true

end Sys2Proof
end

