-- ==== Sys2Proof/Decode.lean ====
section
/-! DEFINITION. Decoding of the stream's control codes and of CTRL writes, and the encoder. -/

namespace Sys2Proof

/-- The 16-bit value of two bytes in stream order: little-endian (20_memory R73). -/
def le2 (a b : Byte) : BitVec 16 := b ++ a

/-- The 24-bit value of three bytes in stream order; a pixel's first byte is blue, bits 7..0 (00_scope R11). -/
def le3 (a b c : Byte) : BitVec 24 := c ++ b ++ a

/-- The 32-bit value of four bytes in stream order (20_memory R73). -/
def le4 (a b c d : Byte) : BitVec 32 := d ++ c ++ b ++ a

/-- The two bytes of a u16 field in stream order. -/
def bytes2 (v : BitVec 16) : List Byte := [v.extractLsb' 0 8, v.extractLsb' 8 8]

/-- The three bytes of a pixel in stream order (00_scope R10, R11). -/
def bytes3 (v : BitVec 24) : List Byte := [v.extractLsb' 0 8, v.extractLsb' 8 8, v.extractLsb' 16 8]

/-- The four bytes of a 32-bit field in stream order. -/
def bytes4 (v : BitVec 32) : List Byte :=
  [v.extractLsb' 0 8, v.extractLsb' 8 8, v.extractLsb' 16 8, v.extractLsb' 24 8]

/-- Why bytes are not an instruction. -/
inductive Reject where
  /-- The field that begins `off` bytes into the code does not fit in the bytes given (41_run_engine R142). -/
  | short (off : Nat)
  /-- A CTRL write with neither START nor ABORT, which is no command (40_dispatch R120). -/
  | notACommand
  deriving DecidableEq, Repr

/-- What reading one code from a list of bytes gives. -/
inductive CodeResult where
  | code (i : Instr)
  | short (off : Nat)
  deriving DecidableEq, Repr

/-- Read a 1-byte field that begins `off` bytes into the code, and go on with the rest. -/
def field1 (off : Nat) (bs : List Byte) (k : Byte → List Byte → CodeResult) : CodeResult :=
  match bs with
  | a :: r => k a r
  | _ => .short off

/-- Read a 2-byte field (u16). -/
def field2 (off : Nat) (bs : List Byte) (k : BitVec 16 → List Byte → CodeResult) : CodeResult :=
  match bs with
  | a :: b :: r => k (le2 a b) r
  | _ => .short off

/-- Read a 3-byte field (pix). -/
def field3 (off : Nat) (bs : List Byte) (k : Pixel → List Byte → CodeResult) : CodeResult :=
  match bs with
  | a :: b :: c :: r => k (le3 a b c) r
  | _ => .short off

/-- Read a 4-byte field (u32, i32). -/
def field4 (off : Nat) (bs : List Byte) (k : BitVec 32 → List Byte → CodeResult) : CodeResult :=
  match bs with
  | a :: b :: c :: d :: r => k (le4 a b c d) r
  | _ => .short off

/-- Step24's selection (42_decode24 R160) over the bytes at CURSOR; `pending` is PEND > 0. -/
def decode24 (pending : Bool) (bs : List Byte) : CodeResult :=
  if pending then field3 0 bs fun pix _ => .code (.litp pix)
  else field1 0 bs fun ctl r =>
    let c := ctl.extractLsb' 5 2
    let f := ctl.extractLsb' 0 5
    if ctl.getLsbD 7 then
      if c ≠ 0 then .code (.drefs c f)
      else field1 1 r fun ext r =>
        let x := ext.extractLsb' 7 1
        let p := ext.extractLsb' 0 7
        if f = 0 ∧ x = 0 then field4 2 r fun k _ => .code (.drefx p k)
        else .code (.drefl f x p)
    else if ctl = 0x01 then field1 1 r fun m r => field3 2 r fun pix _ => .code (.litc m pix)
    else if ctl = 0x00 then field4 1 r fun k r => field3 5 r fun pix _ => .code (.litx k pix)
    else field3 1 r fun pix _ => .code (.litr (ctl.extractLsb' 0 7) pix)

/-- Step8's selection (43_decode8 R180) over the bytes at CURSOR. -/
def decode8 (bs : List Byte) : CodeResult :=
  field1 0 bs fun ctl r =>
    let hi := ctl.extractLsb' 4 4
    let lo := ctl.extractLsb' 0 4
    if hi ≠ 0 then .code (.bref hi lo)
    else if lo.toNat ≤ 9 then field1 1 r fun b _ => .code (.blit lo b)
    else if lo = 10 then field1 1 r fun k r => field1 2 r fun b _ => .code (.blit8 k b)
    else if lo = 11 then field2 1 r fun k r => field1 3 r fun b _ => .code (.blit16 k b)
    else if lo = 12 then field4 1 r fun k r => field1 5 r fun b _ => .code (.blit32 k b)
    else if lo = 13 then
      field1 1 r fun k r => field1 2 r fun b _ => .code (.bref8 k (b.extractLsb' 4 4) (b.extractLsb' 0 4))
    else if lo = 14 then
      field2 1 r fun k r => field1 3 r fun b _ => .code (.bref16 k (b.extractLsb' 4 4) (b.extractLsb' 0 4))
    else
      field4 1 r fun k r => field1 5 r fun b _ => .code (.bref32 k (b.extractLsb' 4 4) (b.extractLsb' 0 4))

/-- The code set that the state selects (30_encoding R103). -/
def decodeCode (path : Path) (pending : Bool) (bs : List Byte) : CodeResult :=
  match path with
  | .d24 => decode24 pending bs
  | .d8 => decode8 bs

/-- The fields of a value written to CTRL (10_state R24). -/
def ctrlStart (w : Word) : Bool := w.getLsbD 0
/-- CTRL.ABORT, bit 1 of the value written. -/
def ctrlAbort (w : Word) : Bool := w.getLsbD 1
/-- CTRL.OP, bits 3..2. -/
def ctrlOpField (w : Word) : BitVec 2 := w.extractLsb' 2 2
/-- CTRL.HDR, bit 4. -/
def ctrlHdrField (w : Word) : Bool := w.getLsbD 4
/-- CTRL.IE, bit 5. -/
def ctrlIeField (w : Word) : Bool := w.getLsbD 5

/-- The host command that a CTRL write is; `busy` is STATE = BUSY just before it. With both trigger bits set it is
the abort command while BUSY and the start command otherwise (10_state R24; log 11). With neither it is no command
(40_dispatch R120). -/
def decodeCtrl (busy : Bool) (w : Word) : Option Instr :=
  if ctrlAbort w && (busy || !ctrlStart w) then
    some (.abort (ctrlStart w) (ctrlOpField w) (ctrlHdrField w) (ctrlIeField w))
  else if ctrlStart w then
    if ctrlOpField w = 0 then some (.startDecode (ctrlAbort w) (ctrlHdrField w) (ctrlIeField w))
    else some (.startEncode (ctrlAbort w) (ctrlOpField w) (ctrlHdrField w) (ctrlIeField w))
  else none

/-- Where an instruction is read: the stream on a path, or a CTRL write. -/
inductive DecodeCtx where
  | d24 (pending : Bool)
  | d8
  | ctrl (busy : Bool)
  deriving DecidableEq, Repr

/-- A code's bytes as an instruction or a named rejection. -/
def CodeResult.toExcept : CodeResult → Except Reject Instr
  | .code i => .ok i
  | .short off => .error (.short off)

/-- Decoding, total on any bytes in any context, rejecting by name. A CTRL write is its four bytes, lowest first. -/
def decode (c : DecodeCtx) (bs : List Byte) : Except Reject Instr :=
  match c with
  | .d24 pending => (decode24 pending bs).toExcept
  | .d8 => (decode8 bs).toExcept
  | .ctrl busy =>
    match bs with
    | a :: b :: c :: d :: _ =>
      match decodeCtrl busy (le4 a b c d) with
      | some i => .ok i
      | none => .error .notACommand
    | _ => .error (.short 0)

/-- The value to write to CTRL for its fields; the reserved bits 31..6 are 0 (10_state R24). -/
def ctrlWord (start abort : Bool) (op : BitVec 2) (hdr ie : Bool) : Word :=
  (0 : BitVec 26) ++ BitVec.ofBool ie ++ BitVec.ofBool hdr ++ op ++ BitVec.ofBool abort ++ BitVec.ofBool start

/-- The bytes of an instruction, from the tables of 30_encoding R93, R96 and R105 and of 10_state R24. -/
def encode : Instr → List Byte
  | .litp pix => bytes3 pix
  | .drefs c f => [(1 : BitVec 1) ++ c ++ f]
  | .drefl f x p => [(4 : BitVec 3) ++ f, x ++ p]
  | .drefx p k => [0x80, (0 : BitVec 1) ++ p] ++ bytes4 k
  | .litc m pix => [0x01, m] ++ bytes3 pix
  | .litx k pix => [0x00] ++ bytes4 k ++ bytes3 pix
  | .litr n pix => [(0 : BitVec 1) ++ n] ++ bytes3 pix
  | .bref hi lo => [hi ++ lo]
  | .blit lo b => [(0 : BitVec 4) ++ lo, b]
  | .blit8 k b => [0x0A, k, b]
  | .blit16 k b => [0x0B] ++ bytes2 k ++ [b]
  | .blit32 k b => [0x0C] ++ bytes4 k ++ [b]
  | .bref8 k sel q => [0x0D, k, sel ++ q]
  | .bref16 k sel q => [0x0E] ++ bytes2 k ++ [sel ++ q]
  | .bref32 k sel q => [0x0F] ++ bytes4 k ++ [sel ++ q]
  | .startDecode abort hdr ie => bytes4 (ctrlWord true abort 0 hdr ie)
  | .startEncode abort op hdr ie => bytes4 (ctrlWord true abort op hdr ie)
  | .abort start op hdr ie => bytes4 (ctrlWord start true op hdr ie)

/-- The context an instruction is read in: its row's path, PEND constraint or STATE constraint. -/
def Instr.ctx : Instr → DecodeCtx
  | .litp _ => .d24 true
  | .drefs _ _ => .d24 false
  | .drefl _ _ _ => .d24 false
  | .drefx _ _ => .d24 false
  | .litc _ _ => .d24 false
  | .litx _ _ => .d24 false
  | .litr _ _ => .d24 false
  | .bref _ _ => .d8
  | .blit _ _ => .d8
  | .blit8 _ _ => .d8
  | .blit16 _ _ => .d8
  | .blit32 _ _ => .d8
  | .bref8 _ _ _ => .d8
  | .bref16 _ _ _ => .d8
  | .bref32 _ _ _ => .d8
  | .startDecode _ _ _ => .ctrl false
  | .startEncode _ _ _ _ => .ctrl false
  | .abort _ _ _ _ => .ctrl true

/-- The widths in bytes of an instruction's fields, in the order ReadN reads them (41_run_engine R142,
42_decode24 and 43_decode8); a host command is one word. -/
def Instr.fields : Instr → List Nat
  | .litp _ => [3]
  | .drefs _ _ => [1]
  | .drefl _ _ _ => [1, 1]
  | .drefx _ _ => [1, 1, 4]
  | .litc _ _ => [1, 1, 3]
  | .litx _ _ => [1, 4, 3]
  | .litr _ _ => [1, 3]
  | .bref _ _ => [1]
  | .blit _ _ => [1, 1]
  | .blit8 _ _ => [1, 1, 1]
  | .blit16 _ _ => [1, 2, 1]
  | .blit32 _ _ => [1, 4, 1]
  | .bref8 _ _ _ => [1, 1, 1]
  | .bref16 _ _ _ => [1, 2, 1]
  | .bref32 _ _ _ => [1, 4, 1]
  | .startDecode _ _ _ => [4]
  | .startEncode _ _ _ _ => [4]
  | .abort _ _ _ _ => [4]

/-- The length in bytes of an instruction (30_encoding R104). -/
def Instr.length (i : Instr) : Nat := i.fields.sum

/-- The longest code, LITX (30_encoding R104). -/
def maxLength : Nat := 8

/-- The bytes of a number, lowest first: `n` bytes of `w`. -/
def natBytes : Nat → Nat → List Byte
  | 0, _ => []
  | n + 1, w => BitVec.ofNat 8 w :: natBytes n (w / 256)

/-- The bytes that a word of opcode_table.json stands for: `nbits` bits in whole bytes, then zeros. -/
def tableBytes (nbits w : Nat) : List Byte :=
  natBytes maxLength (w % 2 ^ nbits)

/-- The context in which a word of opcode_table.json is read. The table gives each row its path, which is not among
the word's bits, so the word's length and first byte choose it (log 19). -/
def tableCtx (nbits w : Nat) : DecodeCtx :=
  let b := w % 256
  match nbits with
  | 8 => if b = 2 then .ctrl false else if 0x0A ≤ b ∧ b ≤ 0x0F then .d8 else .d24 false
  | 16 => if 0x80 ≤ b then .d24 false else .d8
  | 24 => if b = 0x0A ∨ b = 0x0D then .d8 else .d24 true
  | 32 =>
    if b = 0x0B ∨ b = 0x0E then .d8
    else if 64 ≤ w ∧ 2 ≤ b ∧ b < 0x80 then .d24 false
    else .ctrl false
  | 48 => if b = 0x0C ∨ b = 0x0F then .d8 else .d24 false
  | _ => .d24 false

/-- The instruction that the decoder reads from a word of opcode_table.json, none where it refuses. -/
def decodeTableWord (nbits w : Nat) : Option Instr :=
  match decode (tableCtx nbits w) (tableBytes nbits w) with
  | .ok i => some i
  | .error _ => none

end Sys2Proof
end

