-- ==== Sys2Proof/Config.lean ====
section
/-! DEFINITION. What an implementation fixes, and the values the spec leaves free. -/

namespace Sys2Proof.Config

/-- K24, the slots of FRAME24 (00_scope R7). -/
abbrev k24 : Nat := 128

/-- K8, the slots of FRAME8 (00_scope R7). -/
abbrev k8 : Nat := 15

/-- FREE VALUE. What the host reads from a progress register or frame window while STATE = BUSY
(10_state R46, 93 U4; log 3); the reserved bits are masked off where it is used. -/
opaque freeRead : Nat → Word

/-- FREE VALUE. The output byte at an offset after a reset that interrupts a decode
(70_reset R231, 93 U7; log 4). -/
opaque freeOutByte : Nat → Nat → Byte

/-- FREE VALUE. Whether the engine takes the abort step rather than an iteration when both are enabled and the
schedule does not say (60_exceptions R206, 93 U9; log 2). -/
opaque abortStepNow : Nat → Bool

/-- The register offset that a system address selects, for the REG_BASE of the platform: the 1 KiB from it
(10_state R21, 00_scope R8; log 9). REG_BASE is OPEN, so it is an argument. -/
def regOffset (regBase addr : Nat) : Option (BitVec 10) :=
  if regBase ≤ addr ∧ addr < regBase + 1024 then some (BitVec.ofNat 10 (addr - regBase)) else none

end Sys2Proof.Config
end

