-- ==== Sys2Proof/Machine/State.lean ====
section
/-! DEFINITION. The machine's state as plain data, the reasons a step can stop, and the state after reset. -/

namespace Sys2Proof.Machine

/-- STATUS.STATE (10_state R25, R43). -/
inductive EngineState where
  | idle
  | busy
  | done
  | fail
  deriving DecidableEq, Repr

/-- STATUS.RESULT: the six values that are produced (60_exceptions R201). -/
inductive ResultCode where
  | ok
  | declined
  | truncated
  | unsupported
  | size
  | aborted
  deriving DecidableEq, Repr

/-- FMT (10_state R32). -/
inductive Fmt where
  | noFmt
  | mono1
  | indexed8
  | bgr24
  deriving DecidableEq, Repr

/-- The width of a host register access (10_state R22). -/
inductive AccessSize where
  | byte
  | half
  | word
  deriving DecidableEq, Repr

/-- What the host or the platform can do to the core (60_exceptions R225, 70_reset R230). Register offsets are
relative to REG_BASE and buffer addresses to IN_MAP and OUT_MAP (log 9). -/
inductive HostMove where
  | readReg (off : BitVec 10) (size : AccessSize)
  | writeReg (off : BitVec 10) (size : AccessSize) (v : Word)
  | readInput (a : Word)
  | writeInput (a : Word) (b : Byte)
  | readOutput (a : Word)
  | writeOutput (a : Word) (b : Byte)
  | reset
  deriving DecidableEq, Repr

/-- One turn of the interleaving that the environment has chosen (log 1). -/
inductive Turn where
  /-- The engine takes an iteration, if it is enabled (41_run_engine R140). -/
  | engine
  /-- The engine takes the abort step, if it is enabled (60_exceptions R206). -/
  | abortStep
  /-- The host or the platform moves. -/
  | host (m : HostMove)
  deriving DecidableEq, Repr

/-- A byte space by offset: strictly rising offsets, no entry equal to what an unlisted offset reads as (log 5). -/
abbrev Memory := List Host.Cell

/-- Everything the spec gives the machine (10_state; INVENTORY.md lists each field's rule), and at the end the
model's own `schedule`, `busData` and `freeIdx` (log 1, log 3). -/
structure State where
  ctrlOp : BitVec 2
  ctrlHdr : Bool
  ctrlIe : Bool
  engine : EngineState
  result : ResultCode
  irqPend : Bool
  clamp : Bool
  zrun : Bool
  posfix : Bool
  width : BitVec 16
  height : BitVec 16
  depth : BitVec 8
  inLen : Word
  outCap : Word
  fmt : Fmt
  stride : Word
  npix : Word
  remain : Word
  cursor : Word
  outPtr : Word
  pend : BitVec 8
  errOff : Word
  frame24 : Vector Pixel Config.k24
  frame8 : Vector Byte Config.k8
  path : Path
  abortReq : Bool
  inMem : Memory
  outMem : Memory
  schedule : List Turn
  busData : Word
  freeIdx : Nat
  deriving DecidableEq, Repr

/-- Why the machine stops with a fault. -/
inductive Fault where
  /-- Raised by Emit when a run would be written at or past OUT_CAP, where no output byte exists (20_memory R70,
  R72). No state that keeps the invariant raises it. Safe: the model stops. -/
  | outputPastCapacity
  deriving DecidableEq, Repr

/-- Why an instruction or a host move is given no meaning. -/
inductive Refusal where
  /-- Raised by an arm of exec whose instruction has no meaning yet; no arm does. Safe: the model stops. -/
  | notModelled (mnemonic : String)
  /-- Raised by a control code's meaning in a state where the engine cannot present that code: STATE is not BUSY,
  or the path or PEND is not its row's (41_run_engine R140, 30_encoding R103; log 16). No step raises it. Safe. -/
  | codeNotEnabled
  /-- Raised by a host register access that is not an aligned word: unspecified, "a model refuses it"
  (10_state R22, 93 U5; log 13). Safe. -/
  | registerAccess
  /-- Raised by a host access to a buffer the engine owns while BUSY, a move the host does not have
  (20_memory R84, 93 U6; log 13). Safe. -/
  | bufferOwnedByEngine
  deriving DecidableEq, Repr

/-- The outcome of an instruction or of a step. -/
abbrev Out := Host.Outcome State Fault Refusal

/-- FRAME24 as a start that passes the size check and reset leave it: all 0 (10_state R40, R48). -/
def frame24Init : Vector Pixel Config.k24 := Vector.replicate Config.k24 0

/-- FRAME8 as a start that passes the size check and reset leave it (10_state R41, R48). -/
def frame8Init : Vector Byte Config.k8 :=
  #v[0x00, 0x01, 0x02, 0x03, 0x04, 0x05, 0x06, 0x07, 0x08, 0x09, 0x0A, 0x0B, 0x0C, 0x0D, 0xFF]

/-- The machine right after reset (10_state R48, 70_reset R230). Both buffers are the host's: nothing is listed
(log 5). The model's own fields are empty or 0 (log 1, log 3). -/
def State.reset : State where
  ctrlOp := 0
  ctrlHdr := false
  ctrlIe := false
  engine := .idle
  result := .ok
  irqPend := false
  clamp := false
  zrun := false
  posfix := false
  width := 0
  height := 0
  depth := 0
  inLen := 0
  outCap := 0
  fmt := .noFmt
  stride := 0
  npix := 0
  remain := 0
  cursor := 0
  outPtr := 0
  pend := 0
  errOff := 0
  frame24 := frame24Init
  frame8 := frame8Init
  path := .d24
  abortReq := false
  inMem := []
  outMem := []
  schedule := []
  busData := 0
  freeIdx := 0

end Sys2Proof.Machine
end

