-- ==== Sys2Proof/Machine/Operands.lean ====
section
/-! DEFINITION. The operand formulas: run counts (exact integers, 41_run_engine R144) and slots of every form. -/

namespace Sys2Proof.Machine

/-- BREF_BASE_13, the base of the BREF8 counts (00_scope R8; log 21). -/
def brefBase13 : Int := 0x10
/-- BREF_BASE_14, the base of the BREF16 counts (00_scope R8; log 21). -/
def brefBase14 : Int := 0x120
/-- BREF_BASE_15, the base of the BREF32 counts (00_scope R8; log 21). -/
def brefBase15 : Int := 0x10130

/-- `int(v)` of a stream field (00_scope R9). -/
def uint {w : Nat} (v : BitVec w) : Int := v.toNat

/-- `sint32(v)`, two's complement (00_scope R9; log 23). -/
def sint32 (v : BitVec 32) : Int := v.toInt

/-- The slot a D24 literal pushes from: 127, so the last entry is evicted (30_encoding R94). -/
def literalSlot24 : Fin Config.k24 := 127

/-- The slot a D8 literal pushes from: 14 (30_encoding R97). -/
def literalSlot8 : Fin Config.k8 := 14

/-- DREFS: slot `zext(f)` (30_encoding R94). -/
def drefsSlot (f : BitVec 5) : Fin Config.k24 := ⟨f.toNat, by have := f.isLt; simp only [Config.k24]; omega⟩

/-- DREFL and DREFX: slot `zext(p)` (30_encoding R94). -/
def extSlot (p : BitVec 7) : Fin Config.k24 := ⟨p.toNat, by have := p.isLt; simp only [Config.k24]; omega⟩

/-- DREFL: count `(zext(f) << 1) + x` (30_encoding R94). -/
def dreflCount (f : BitVec 5) (x : BitVec 1) : Int := 2 * uint f + uint x

/-- LITC: PEND becomes `max(m - 1, 0)` (42_decode24 R165). -/
def chainPend (m : Byte) : BitVec 8 := BitVec.ofNat 8 (m.toNat - 1)

/-- BREF: slot `hi - 1` (30_encoding R97); `hi = 0` is no BREF. -/
def brefSlot (hi : BitVec 4) : Fin Config.k8 := ⟨hi.toNat - 1, by have := hi.isLt; simp only [Config.k8]; omega⟩

/-- BREF and BLIT: count `lo + 1` (30_encoding R97). -/
def shortCount (lo : BitVec 4) : Int := uint lo + 1

/-- BREF8, BREF16 and BREF32: count `base + 16*k + q + 1` (43_decode8 R189). -/
def escapeCount (base k : Int) (q : BitVec 4) : Int := base + 16 * k + uint q + 1

/-- BREF8, BREF16 and BREF32: slot `sel - 1`, fixed to 0 when `sel = 0` (43_decode8 R189). -/
def escapeSlot (sel : BitVec 4) : Fin Config.k8 := ⟨sel.toNat - 1, by have := sel.isLt; simp only [Config.k8]; omega⟩

/-- The clamped run length: `min(max(cnt, 0), REMAIN)` (41_run_engine R145). -/
def runLength (cnt : Int) (remain : Nat) : Nat := (min (max cnt 0) (remain : Int)).toNat

end Sys2Proof.Machine
end

