-- ==== Sys2Proof/Machine/Flags.lean ====
section
/-! DEFINITION. The STATUS info bits CLAMP, ZRUN and POSFIX: the core's only flags (10_state R45). -/

namespace Sys2Proof.Machine

/-- CLAMP is set by a count greater than REMAIN and is sticky (41_run_engine R145). -/
def clampAfter (cnt : Int) (s : State) : Bool := s.clamp || decide (cnt > (s.remain.toNat : Int))

/-- ZRUN is set by a count of 0 or less and is sticky (41_run_engine R145). -/
def zrunAfter (cnt : Int) (s : State) : Bool := s.zrun || decide (cnt ≤ 0)

/-- POSFIX is set by an escape reference with `sel = 0` and is sticky (43_decode8 R189). -/
def posfixAfter (sel : BitVec 4) (s : State) : Bool := s.posfix || (sel == 0)

end Sys2Proof.Machine
end

