-- ==== Sys2Proof/Machine/Ops.lean ====
section
/-! DEFINITION. The shared operations: byte spaces, stream reads, the end of a decode (this hardware's one exception),
the pixel-buffer assembler and the history manager. -/

namespace Sys2Proof.Machine

/-- What an offset that nothing has written reads as (DESIGN CHOICE, unsafe; log 5). -/
def unwritten : Byte := 0

/-- Read one byte of a space. -/
def Memory.read : Memory → Nat → Byte
  | [], _ => unwritten
  | (k, b) :: t, a => if k = a then b else Memory.read t a

/-- Write one byte, keeping the canonical form. -/
def Memory.write : Memory → Nat → Byte → Memory
  | [], a, v => if v = unwritten then [] else [(a, v)]
  | (k, b) :: t, a, v =>
    if a < k then (if v = unwritten then (k, b) :: t else (a, v) :: (k, b) :: t)
    else if a = k then (if v = unwritten then t else (a, v) :: t)
    else (k, b) :: Memory.write t a v

/-- The canonical form from offset `lo` up: strictly rising 32-bit offsets, no entry that reads as unwritten. -/
def Memory.wfFrom : Nat → Memory → Bool
  | _, [] => true
  | lo, (k, b) :: t => decide (lo ≤ k) && decide (k < 2 ^ 32) && (b != unwritten) && Memory.wfFrom (k + 1) t

/-- The canonical form of a space (20_memory R70: offsets are 32 bits). -/
def Memory.wf (m : Memory) : Bool := Memory.wfFrom 0 m

/-- `n` bytes from offset `a`, in increasing order. -/
def Memory.readBytes (m : Memory) (a : Nat) : Nat → List Byte
  | 0 => []
  | n + 1 => m.read a :: Memory.readBytes m (a + 1) n

/-- Write bytes from offset `a` up, in increasing order (20_memory R80). -/
def Memory.writeBytes (m : Memory) (a : Nat) : List Byte → Memory
  | [] => m
  | b :: bs => Memory.writeBytes (m.write a b) (a + 1) bs

/-- Write `n` copies of `unit` from offset `a` up: the loop of Emit (41_run_engine R145). -/
def Memory.writeRun (m : Memory) (a : Nat) (unit : List Byte) : Nat → Memory
  | 0 => m
  | n + 1 => Memory.writeRun (m.writeBytes a unit) (a + unit.length) unit n

/-- STATE = BUSY. -/
def State.busy (s : State) : Bool := s.engine == .busy

/-- The interrupt line (60_exceptions R214). -/
def State.irq (s : State) : Bool := s.irqPend && s.ctrlIe

/-- bpu, the output bytes of one unit: 3 on D24, 1 on D8 (41_run_engine R145). -/
def bytesPerUnit : Path → Nat
  | .d24 => 3
  | .d8 => 1

/-- The output bytes of the whole decode, NPIX * bpu (20_memory R72). -/
def State.outSize (s : State) : Nat := s.npix.toNat * bytesPerUnit s.path

/-- `End(s, r)`: every decode ends here, whatever its result (60_exceptions R200). -/
def endDecode (e : EngineState) (r : ResultCode) (s : State) : State :=
  { s with engine := e, result := r, irqPend := true, abortReq := false }

/-- `Truncated(off)` in an iteration: nothing of the iteration stays, ERR_OFF records the field that did not fit
(41_run_engine R140, R143; 60_exceptions R202). `s` is the state at the iteration's start. -/
def truncated (off : Nat) (s : State) : State :=
  endDecode .fail .truncated { s with errOff := BitVec.ofNat 32 off }

/-- The abort step (60_exceptions R206); enabled while BUSY with ABORT_REQ set. -/
def abortStep (s : State) : State := endDecode .fail .aborted s

/-- The offset of the first of the fields `ns`, laid out from offset `cur`, that does not fit below `len`
(41_run_engine R142); the comparison is exact. -/
def firstShort (len : Nat) : Nat → List Nat → Option Nat
  | _, [] => none
  | cur, n :: ns => if cur + n > len then some cur else firstShort len (cur + n) ns

/-- CURSOR past `n` more bytes (41_run_engine R142). -/
def advance (n : Nat) (s : State) : State := { s with cursor := BitVec.ofNat 32 (s.cursor.toNat + n) }

/-- Read the fields `ns` at CURSOR and go on with CURSOR past them, or end the decode TRUNCATED
(41_run_engine R140, R142, R143). -/
def withFields (ns : List Nat) (s : State) (k : State → Out) : Out :=
  match firstShort s.inLen.toNat s.cursor.toNat ns with
  | some off => .next (truncated off s)
  | none => k (advance ns.sum s)

/-- A D24 code is presented only while BUSY on D24, LITP exactly while PEND > 0 (41_run_engine R140, 30_encoding
R103). -/
def enabled24 (pending : Bool) (s : State) : Bool :=
  s.busy && (s.path == .d24) && (decide (0 < s.pend.toNat) == pending)

/-- A D8 code is presented only while BUSY on D8. -/
def enabled8 (s : State) : Bool := s.busy && (s.path == .d8)

/-- A D24 code that reads the fields `ns`, where it is presented (log 16). -/
def code24 (pending : Bool) (ns : List Nat) (s : State) (k : State → Out) : Out :=
  if enabled24 pending s then withFields ns s k else .refused .codeNotEnabled

/-- A D8 code that reads the fields `ns`, where it is presented (log 16). -/
def code8 (ns : List Nat) (s : State) (k : State → Out) : Out :=
  if enabled8 s then withFields ns s k else .refused .codeNotEnabled

/-- Whether a run of `cnt` units of `size` bytes lies below OUT_CAP (20_memory R70, R72; log 15). -/
def emitFits (cnt : Int) (size : Nat) (s : State) : Bool :=
  let n := runLength cnt s.remain.toNat
  (n == 0) || decide (s.outPtr.toNat + n * size ≤ s.outCap.toNat)

/-- `Emit`: the clamped run goes to the output, CLAMP and ZRUN record an irregular count (41_run_engine R145). -/
def emit (cnt : Int) (unit : List Byte) (s : State) : State :=
  let n := runLength cnt s.remain.toNat
  { s with
    clamp := clampAfter cnt s
    zrun := zrunAfter cnt s
    outMem := s.outMem.writeRun s.outPtr.toNat unit n
    outPtr := BitVec.ofNat 32 (s.outPtr.toNat + n * unit.length)
    remain := BitVec.ofNat 32 (s.remain.toNat - n) }

/-- The move-to-front update of a frame: `pix` at slot 0, slots `0 .. pos-1` one back, the rest untouched
(41_run_engine R146). -/
def mtf {α : Type} {n : Nat} (pos : Fin n) (pix : α) (f : Vector α n) : Vector α n :=
  ⟨(pix :: f.toList.eraseIdx pos).toArray, by
    have := pos.isLt
    simp [List.length_eraseIdx]
    omega⟩

/-- `Mtf` on D24 (41_run_engine R146). -/
def mtf24 (pos : Fin Config.k24) (pix : Pixel) (s : State) : State := { s with frame24 := mtf pos pix s.frame24 }

/-- `Mtf` on D8. -/
def mtf8 (pos : Fin Config.k8) (pix : Byte) (s : State) : State := { s with frame8 := mtf pos pix s.frame8 }

/-- The iteration's last line: REMAIN = 0 ends the decode DONE (41_run_engine R148). -/
def complete (s : State) : State := if s.remain = 0 then endDecode .done .ok s else s

/-- What a D24 code does after its reads: Emit, Mtf, completion (41_run_engine R140). -/
def finish24 (pix : Pixel) (cnt : Int) (pos : Fin Config.k24) (s : State) : Out :=
  if emitFits cnt 3 s then .next (complete (mtf24 pos pix (emit cnt (bytes3 pix) s)))
  else .fault .outputPastCapacity

/-- What a D8 code does after its reads. -/
def finish8 (pix : Byte) (cnt : Int) (pos : Fin Config.k8) (s : State) : Out :=
  if emitFits cnt 1 s then .next (complete (mtf8 pos pix (emit cnt [pix] s)))
  else .fault .outputPastCapacity

/-- `SlotRef`: how BREF8, BREF16 and BREF32 end after their last read (43_decode8 R189). -/
def slotRef (base k : Int) (sel q : BitVec 4) (s : State) : Out :=
  let pos := escapeSlot sel
  finish8 s.frame8[pos] (escapeCount base k q) pos { s with posfix := posfixAfter sel s }

/-- Step 0 of the start sequence (40_dispatch R122, R131 a). RESULT is cleared with STATUS, as 10_state R25 and
70_reset R237 say (log 7). -/
def clearForStart (s : State) : State :=
  { s with
    engine := .busy
    result := .ok
    irqPend := false
    clamp := false
    zrun := false
    posfix := false
    fmt := .noFmt
    stride := 0
    npix := 0
    remain := 0
    cursor := 0
    outPtr := 0
    pend := 0
    errOff := 0
    abortReq := false }

/-- `Stride(w, d)` for a legal depth (40_dispatch R127). -/
def strideOf (w d : Nat) : Nat := if d = 1 then (w + 7) / 8 else w * d / 8

/-- `Units(w, h, d)` for a legal depth (40_dispatch R128). -/
def unitsOf (w h d : Nat) : Nat := if d = 24 then w * h else strideOf w d * h

/-- The legal bit depths (40_dispatch R126). -/
def legalDepth (d : BitVec 8) : Bool := (d == 1) || (d == 8) || (d == 24)

/-- PATH for a legal depth (40_dispatch R130). -/
def pathOf (d : BitVec 8) : Path := if d = 24 then .d24 else .d8

/-- FMT for a legal depth (40_dispatch R130). -/
def fmtOf (d : BitVec 8) : Fmt := if d = 24 then .bgr24 else if d = 8 then .indexed8 else .mono1

/-- STRIDE and NPIX computed (40_dispatch R122 step 4). -/
def sized (s : State) : State :=
  { s with
    stride := BitVec.ofNat 32 (strideOf s.width.toNat s.depth.toNat)
    npix := BitVec.ofNat 32 (unitsOf s.width.toNat s.height.toNat s.depth.toNat) }

/-- Path, format, history and counters of a decode that passed every check (40_dispatch R122 steps 5 and 6). -/
def dispatched (s : State) : State :=
  { s with
    path := pathOf s.depth
    fmt := fmtOf s.depth
    frame24 := frame24Init
    frame8 := frame8Init
    remain := s.npix }

/-- The start sequence from the bit-depth check on (40_dispatch R122 steps 3 to 8). -/
def startImage (s : State) : State :=
  if legalDepth s.depth then
    if (sized s).stride.toNat * s.height.toNat > s.outCap.toNat then endDecode .fail .size (sized s)
    else complete (dispatched (sized s))
  else endDecode .fail .declined s

/-- The three header fields taken from the input space, and the stream at offset 16 (40_dispatch R124). -/
def readHeader (s : State) : State :=
  { s with
    width := le2 (s.inMem.read 8) (s.inMem.read 9)
    height := le2 (s.inMem.read 10) (s.inMem.read 11)
    depth := s.inMem.read 12
    cursor := 16 }

/-- The start sequence (40_dispatch R122), with CTRL as just written. -/
def startSequence (s : State) : State :=
  let s := clearForStart s
  if s.ctrlOp ≠ 0 then endDecode .fail .unsupported s
  else if s.ctrlHdr then
    if s.inLen.toNat < 16 then endDecode .fail .truncated s else startImage (readHeader s)
  else startImage s

/-- A write to CTRL with these fields (10_state R24, 40_dispatch R120, R121, R132). -/
def ctrlWrite (start abort : Bool) (op : BitVec 2) (hdr ie : Bool) (s : State) : State :=
  if s.busy then { s with ctrlIe := ie, abortReq := s.abortReq || abort }
  else
    let s := { s with ctrlOp := op, ctrlHdr := hdr, ctrlIe := ie }
    if start then startSequence s else s

/-- Every output byte below `n` becomes a free value (70_reset R231; log 4). -/
def freeBelow (idx : Nat) (m : Memory) : Nat → Memory
  | 0 => m
  | n + 1 => (freeBelow idx m n).write n (Config.freeOutByte idx n)

/-- Hardware reset (70_reset R230, R231): every core register at its reset value, the buffers kept, but the output
bytes of a decode that was running free. The environment's schedule and read data are not the core's. -/
def hardReset (s : State) : State :=
  { State.reset with
    inMem := s.inMem
    outMem := if s.busy then freeBelow s.freeIdx s.outMem s.outSize else s.outMem
    schedule := s.schedule
    busData := s.busData
    freeIdx := s.freeIdx + 1 }

end Sys2Proof.Machine
end

