-- ==== Sys2Proof/Machine/D24.lean ====
section
/-! DEFINITION. The meanings of the seven D24 control codes (42_decode24). -/

namespace Sys2Proof.Machine

/-- LITP (42_decode24 R161). -/
def execLitp (pix : Pixel) (s : State) : Out :=
  code24 true [3] s fun s => finish24 pix 1 literalSlot24 { s with pend := s.pend - 1 }

/-- DREFS (42_decode24 R162). -/
def execDrefs (c : BitVec 2) (f : BitVec 5) (s : State) : Out :=
  code24 false [1] s fun s => finish24 s.frame24[drefsSlot f] (uint c) (drefsSlot f) s

/-- DREFL (42_decode24 R163). -/
def execDrefl (f : BitVec 5) (x : BitVec 1) (p : BitVec 7) (s : State) : Out :=
  code24 false [1, 1] s fun s => finish24 s.frame24[extSlot p] (dreflCount f x) (extSlot p) s

/-- DREFX (42_decode24 R164); the count is unsigned (30_encoding R91). -/
def execDrefx (p : BitVec 7) (k : BitVec 32) (s : State) : Out :=
  code24 false [1, 1, 4] s fun s => finish24 s.frame24[extSlot p] (uint k) (extSlot p) s

/-- LITC (42_decode24 R165). -/
def execLitc (m : Byte) (pix : Pixel) (s : State) : Out :=
  code24 false [1, 1, 3] s fun s => finish24 pix 1 literalSlot24 { s with pend := chainPend m }

/-- LITX (42_decode24 R166). -/
def execLitx (k : BitVec 32) (pix : Pixel) (s : State) : Out :=
  code24 false [1, 4, 3] s fun s => finish24 pix (uint k) literalSlot24 s

/-- LITR (42_decode24 R167). -/
def execLitr (n : BitVec 7) (pix : Pixel) (s : State) : Out :=
  code24 false [1, 3] s fun s => finish24 pix (uint n) literalSlot24 s

end Sys2Proof.Machine
end

