-- ==== Sys2Proof/Machine/D8.lean ====
section
/-! DEFINITION. The meanings of the eight D8 control codes (43_decode8). -/

namespace Sys2Proof.Machine

/-- BREF (43_decode8 R181). -/
def execBref (hi lo : BitVec 4) (s : State) : Out :=
  code8 [1] s fun s => finish8 s.frame8[brefSlot hi] (shortCount lo) (brefSlot hi) s

/-- BLIT (43_decode8 R182). -/
def execBlit (lo : BitVec 4) (b : Byte) (s : State) : Out :=
  code8 [1, 1] s fun s => finish8 b (shortCount lo) literalSlot8 s

/-- BLIT8 (43_decode8 R183). -/
def execBlit8 (k : BitVec 8) (b : Byte) (s : State) : Out :=
  code8 [1, 1, 1] s fun s => finish8 b (uint k + 11) literalSlot8 s

/-- BLIT16 (43_decode8 R184). -/
def execBlit16 (k : BitVec 16) (b : Byte) (s : State) : Out :=
  code8 [1, 2, 1] s fun s => finish8 b (uint k + 267) literalSlot8 s

/-- BLIT32 (43_decode8 R185): the count field is signed and the sum exact. -/
def execBlit32 (k : BitVec 32) (b : Byte) (s : State) : Out :=
  code8 [1, 4, 1] s fun s => finish8 b (sint32 k + 65803) literalSlot8 s

/-- BREF8 (43_decode8 R186). -/
def execBref8 (k : BitVec 8) (sel q : BitVec 4) (s : State) : Out :=
  code8 [1, 1, 1] s fun s => slotRef brefBase13 (uint k) sel q s

/-- BREF16 (43_decode8 R187). -/
def execBref16 (k : BitVec 16) (sel q : BitVec 4) (s : State) : Out :=
  code8 [1, 2, 1] s fun s => slotRef brefBase14 (uint k) sel q s

/-- BREF32 (43_decode8 R188): the count field is signed and the count exact. -/
def execBref32 (k : BitVec 32) (sel q : BitVec 4) (s : State) : Out :=
  code8 [1, 4, 1] s fun s => slotRef brefBase15 (sint32 k) sel q s

end Sys2Proof.Machine
end

