-- ==== Sys2Proof/Machine/HostCommands.lean ====
section
/-! DEFINITION. The meanings of the three host commands (40_dispatch): CTRL writes, each complete with the write. -/

namespace Sys2Proof.Machine

/-- START_DECODE (40_dispatch R120 to R131): the start sequence, or while BUSY only the IE and ABORT bits of the
write (10_state R24). -/
def execStartDecode (abort hdr ie : Bool) (s : State) : Out :=
  .next (ctrlWrite true abort 0 hdr ie s)

/-- START_ENCODE (40_dispatch R123): ends FAIL, UNSUPPORTED; ignored as a start while BUSY. -/
def execStartEncode (abort : Bool) (op : BitVec 2) (hdr ie : Bool) (s : State) : Out :=
  .next (ctrlWrite true abort op hdr ie s)

/-- ABORT (40_dispatch R132): requests the abort step while BUSY; otherwise the write's ABORT has no effect. -/
def execAbort (start : Bool) (op : BitVec 2) (hdr ie : Bool) (s : State) : Out :=
  .next (ctrlWrite start true op hdr ie s)

end Sys2Proof.Machine
end

