-- ==== Sys2Proof/Machine/Dispatch.lean ====
section
/-! DEFINITION. What each instruction does: one arm per constructor. -/

namespace Sys2Proof.Machine

def exec (i : Instr) (s : State) : Host.Outcome State Fault Refusal :=
  match i with
  -- D24 (42_decode24)
  | .litp pix => Sys2Proof.Machine.execLitp pix s
  | .drefs c f => Sys2Proof.Machine.execDrefs c f s
  | .drefl f x p => Sys2Proof.Machine.execDrefl f x p s
  | .drefx p k => Sys2Proof.Machine.execDrefx p k s
  | .litc m pix => Sys2Proof.Machine.execLitc m pix s
  | .litx k pix => Sys2Proof.Machine.execLitx k pix s
  | .litr n pix => Sys2Proof.Machine.execLitr n pix s
  -- D8 (43_decode8)
  | .bref hi lo => Sys2Proof.Machine.execBref hi lo s
  | .blit lo b => Sys2Proof.Machine.execBlit lo b s
  | .blit8 k b => Sys2Proof.Machine.execBlit8 k b s
  | .blit16 k b => Sys2Proof.Machine.execBlit16 k b s
  | .blit32 k b => Sys2Proof.Machine.execBlit32 k b s
  | .bref8 k sel q => Sys2Proof.Machine.execBref8 k sel q s
  | .bref16 k sel q => Sys2Proof.Machine.execBref16 k sel q s
  | .bref32 k sel q => Sys2Proof.Machine.execBref32 k sel q s
  -- host commands (40_dispatch)
  | .startDecode abort hdr ie => Sys2Proof.Machine.execStartDecode abort hdr ie s
  | .startEncode abort op hdr ie => Sys2Proof.Machine.execStartEncode abort op hdr ie s
  | .abort start op hdr ie => Sys2Proof.Machine.execAbort start op hdr ie s

end Sys2Proof.Machine
end

