-- ==== Sys2Proof/Machine/Registers.lean ====
section
/-! DEFINITION. The host's register map: what each offset reads, and what a write to it does. -/

namespace Sys2Proof.Machine

/-- STATUS.STATE's code (10_state R25). -/
def stateCode : EngineState → BitVec 2
  | .idle => 0
  | .busy => 1
  | .done => 2
  | .fail => 3

/-- STATUS.RESULT's code (10_state R25, 60_exceptions R201). -/
def resultCode : ResultCode → BitVec 4
  | .ok => 0
  | .declined => 1
  | .truncated => 2
  | .unsupported => 3
  | .size => 4
  | .aborted => 5

/-- FMT's code (10_state R32). -/
def fmtCode : Fmt → BitVec 2
  | .noFmt => 0
  | .mono1 => 1
  | .indexed8 => 2
  | .bgr24 => 3

/-- The CTRL word: START, ABORT and bits 31..6 read 0 (10_state R24). -/
def ctrlReg (s : State) : Word := ctrlWord false false s.ctrlOp s.ctrlHdr s.ctrlIe

/-- The STATUS word; bits 3..2, 15..9 and 31..19 read 0 (10_state R25). -/
def statusReg (s : State) : Word :=
  (0 : BitVec 13) ++ BitVec.ofBool s.posfix ++ BitVec.ofBool s.zrun ++ BitVec.ofBool s.clamp ++ (0 : BitVec 7) ++
    BitVec.ofBool s.irqPend ++ resultCode s.result ++ (0 : BitVec 2) ++ stateCode s.engine

/-- The ID constant (10_state R23). -/
def idReg : Word := 0x706D4347

/-- The value of the register at a word offset; reserved offsets read 0 (10_state R21, R22, R39). -/
def regValue (off : Nat) (s : State) : Word :=
  if off = 0x000 then idReg
  else if off = 0x004 then ctrlReg s
  else if off = 0x008 then statusReg s
  else if off = 0x00C then s.width.setWidth 32
  else if off = 0x010 then s.height.setWidth 32
  else if off = 0x014 then s.depth.setWidth 32
  else if off = 0x018 then s.inLen
  else if off = 0x01C then s.outCap
  else if off = 0x020 then (fmtCode s.fmt).setWidth 32
  else if off = 0x024 then s.stride
  else if off = 0x028 then s.npix
  else if off = 0x02C then s.remain
  else if off = 0x030 then s.cursor
  else if off = 0x034 then s.outPtr
  else if off = 0x038 then s.pend.setWidth 32
  else if off = 0x03C then s.errOff
  else if h : 0x100 ≤ off ∧ off < 0x300 then
    (s.frame24[(off - 0x100) / 4]'(by simp only [Config.k24]; omega)).setWidth 32
  else if h : 0x300 ≤ off ∧ off < 0x33C then
    (s.frame8[(off - 0x300) / 4]'(by simp only [Config.k8]; omega)).setWidth 32
  else 0

/-- The writable bits of the registers that read unspecified values while BUSY, none for the others: the free value's
reserved bits stay 0 (10_state R46). -/
def busyMask (off : Nat) : Option Word :=
  if 0x02C ≤ off ∧ off ≤ 0x034 then some 0xFFFFFFFF
  else if off = 0x038 then some 0xFF
  else if off = 0x03C then some 0xFFFFFFFF
  else if 0x100 ≤ off ∧ off < 0x300 then some 0xFFFFFF
  else if 0x300 ≤ off ∧ off < 0x33C then some 0xFF
  else none

/-- A word read by the host: its data, no side effect on the core (10_state R22, R46; log 3). -/
def readReg (off : Nat) (s : State) : State :=
  match (if s.busy then busyMask off else none) with
  | some mask => { s with busData := Config.freeRead s.freeIdx &&& mask, freeIdx := s.freeIdx + 1 }
  | none => { s with busData := regValue off s }

/-- A word written by the host to a register other than CTRL: STATUS clears IRQ_PEND with bit 8 (10_state R25,
60_exceptions R215); the configuration registers take their low bits, or nothing while BUSY (R26 to R31, R47); the
rest ignores writes (R22). -/
def writeReg (off : Nat) (v : Word) (s : State) : State :=
  if off = 0x008 then { s with irqPend := s.irqPend && !v.getLsbD 8 }
  else if s.busy then s
  else if off = 0x00C then { s with width := v.setWidth 16 }
  else if off = 0x010 then { s with height := v.setWidth 16 }
  else if off = 0x014 then { s with depth := v.setWidth 8 }
  else if off = 0x018 then { s with inLen := v }
  else if off = 0x01C then { s with outCap := v }
  else s

/-- The offset of CTRL (10_state R21). -/
def ctrlOffset : Nat := 0x004

end Sys2Proof.Machine
end

