-- ==== Sys2Proof/Machine/Bus.lean ====
section
/-! DEFINITION. What each move of the host or the platform does (60_exceptions R225, 70_reset R230). -/

namespace Sys2Proof.Machine

/-- Aligned 32-bit accesses only (10_state R22). -/
def alignedWord (off : BitVec 10) (size : AccessSize) : Bool := (size == .word) && (off.toNat % 4 == 0)

/-- A CTRL write: the host command it is, or the plain write of OP, HDR and IE that is none (log 11, log 12). -/
def writeCtrl (v : Word) (s : State) : Out :=
  match decodeCtrl s.busy v with
  | some i => exec i s
  | none => .next (ctrlWrite false false (ctrlOpField v) (ctrlHdrField v) (ctrlIeField v) s)

/-- Whether the engine owns this output offset: below NPIX * bpu while BUSY (20_memory R84). -/
def ownsOutput (a : Word) (s : State) : Bool := s.busy && decide (a.toNat < s.outSize)

/-- One move. A host read of a buffer leaves its byte on the bus (log 6). -/
def hostMove (m : HostMove) (s : State) : Out :=
  match m with
  | .readReg off size =>
    if alignedWord off size then .next (readReg off.toNat s) else .refused .registerAccess
  | .writeReg off size v =>
    if alignedWord off size then
      if off.toNat = ctrlOffset then writeCtrl v s else .next (writeReg off.toNat v s)
    else .refused .registerAccess
  | .readInput a => .next { s with busData := (s.inMem.read a.toNat).setWidth 32 }
  | .writeInput a b =>
    if s.busy then .refused .bufferOwnedByEngine else .next { s with inMem := s.inMem.write a.toNat b }
  | .readOutput a =>
    if ownsOutput a s then .refused .bufferOwnedByEngine
    else .next { s with busData := (s.outMem.read a.toNat).setWidth 32 }
  | .writeOutput a b =>
    if ownsOutput a s then .refused .bufferOwnedByEngine else .next { s with outMem := s.outMem.write a.toNat b }
  | .reset => .next (hardReset s)

end Sys2Proof.Machine
end

