-- ==== Sys2Proof/Machine/Fetch.lean ====
section
/-! DEFINITION. Fetching a code at CURSOR, the engine's step, the turns, and placing an instruction to be run. -/

namespace Sys2Proof.Machine

/-- The input bytes a code can be read from: from CURSOR, below IN_LEN, at most the longest code's length
(20_memory R71; log 17). -/
def fetchBytes (s : State) : List Byte :=
  s.inMem.readBytes s.cursor.toNat (min maxLength (s.inLen.toNat - s.cursor.toNat))

/-- The code at CURSOR, in the code set that PATH and PEND select (30_encoding R103). -/
def fetchCode (s : State) : CodeResult := decodeCode s.path (decide (0 < s.pend.toNat)) (fetchBytes s)

/-- `EngineStep`: one whole iteration (41_run_engine R140). A field that does not fit ends the decode. -/
def engineStep (s : State) : Out :=
  match fetchCode s with
  | .code i => exec i s
  | .short off => .next (truncated (s.cursor.toNat + off) s)

/-- The engine's turn when the schedule names no step: the enabled step if there is one, a free choice between the
two while an abort is requested (60_exceptions R206; log 2), nothing otherwise (60_exceptions R224). -/
def engineTurn (s : State) : Out :=
  if s.busy then
    if s.abortReq then
      let s' := { s with freeIdx := s.freeIdx + 1 }
      if Config.abortStepNow s.freeIdx then .next (abortStep s') else engineStep s'
    else engineStep s
  else .next s

/-- One turn the schedule names; an engine turn whose step is not enabled changes nothing (log 22). -/
def takeTurn (t : Turn) (s : State) : Out :=
  match t with
  | .engine => if s.busy then engineStep s else .next s
  | .abortStep => if s.busy && s.abortReq then .next (abortStep s) else .next s
  | .host m => hostMove m s

/-- The next turn of the interleaving: the schedule's first, or the engine's when the schedule is empty (log 1). -/
def stepTurn (s : State) : Out :=
  match s.schedule with
  | [] => engineTurn s
  | t :: rest => takeTurn t { s with schedule := rest }

/-- A decode of one pixel under way on a path, with the stream from CURSOR on valid and the engine to move: what a
control code needs to be the next instruction (log 20). -/
def placeDecode (p : Path) (pending : Bool) (s : State) : State :=
  { s with
    engine := .busy
    result := .ok
    irqPend := false
    abortReq := false
    ctrlOp := 0
    width := 1
    height := 1
    depth := match p with | .d24 => 24 | .d8 => 8
    fmt := match p with | .d24 => .bgr24 | .d8 => .indexed8
    path := p
    stride := match p with | .d24 => 3 | .d8 => 1
    npix := 1
    remain := 1
    outPtr := 0
    errOff := 0
    outCap := match p with | .d24 => 3 | .d8 => 1
    pend := if pending then 1 else 0
    inLen := BitVec.ofNat 32 (s.cursor.toNat + maxLength) }

/-- A CTRL write of `v` as the environment's next turn. -/
def placeCtrl (v : Word) (s : State) : State :=
  { s with schedule := .host (.writeReg (BitVec.ofNat 10 ctrlOffset) .word v) :: s.schedule }

/-- `s` with the instruction of a table word placed to run next: a code at CURSOR of a decode under way with an
engine turn next, or a CTRL write next, into a BUSY core for ABORT (log 20). -/
def placeWord (s : State) (nbits w : Nat) : State :=
  let bs := tableBytes nbits w
  let code (p : Path) (pending : Bool) : State :=
    let s := placeDecode p pending s
    { s with inMem := s.inMem.writeBytes s.cursor.toNat bs, schedule := .engine :: s.schedule }
  match tableCtx nbits w with
  | .d24 pending => code .d24 pending
  | .d8 => code .d8 false
  | .ctrl _ =>
    let v := BitVec.ofNat 32 (w % 2 ^ nbits)
    if ctrlAbort v && !ctrlStart v then placeCtrl v (placeDecode .d24 false s) else placeCtrl v s

end Sys2Proof.Machine
end

