-- ==== Sys2Proof/Machine/Step.lean ====
section
/-! DEFINITION. One step of the machine, and the placing of an instruction word where the next step runs it. -/

namespace Sys2Proof.Machine

/-- One step: the next turn of the interleaving of host and engine (10_state R20, 41_run_engine R140; log 1). -/
def step (s : State) : Host.Outcome State Fault Refusal := stepTurn s

/-- `s` with a table word's instruction as what the next step runs (log 20). -/
def State.withFetchWord (s : State) (nbits w : Nat) : State := placeWord s nbits w

end Sys2Proof.Machine
end

