-- ==== Sys2Proof/Safety.lean ====
section
/-! DEFINITION. What claims call a sound state (the invariant) and a safe step. -/

namespace Sys2Proof.Machine

/-- What the rules say of every reachable state. Each field names its rule. -/
structure State.Inv (s : State) : Prop where
  /-- The input space is in canonical form (log 5). -/
  inMem_wf : s.inMem.wf = true
  /-- The output space is in canonical form (log 5). -/
  outMem_wf : s.outMem.wf = true
  /-- RESULT = 0 exactly when STATE is IDLE, BUSY or DONE (60_exceptions R201). -/
  result_ok_iff : s.result = .ok ↔ s.engine ≠ .fail
  /-- IRQ_PEND is set by End only, and cleared by the start (60_exceptions R213, 40_dispatch R131). -/
  idle_busy_irq : s.engine = .idle ∨ s.engine = .busy → s.irqPend = false
  /-- ABORT_REQ is cleared by the start command and by the end of a decode (10_state R44). -/
  abortReq_busy : s.abortReq = true → s.engine = .busy
  /-- BUSY implies REMAIN > 0 (41_run_engine R141). -/
  busy_remain : s.engine = .busy → 0 < s.remain.toNat
  /-- DONE is reached with REMAIN = 0 (41_run_engine R148). -/
  done_remain : s.engine = .done → s.remain = 0
  /-- A decode under way has passed dispatch, and so has one that ended DONE (40_dispatch R122). -/
  busy_fmt : s.engine = .busy ∨ s.engine = .done → s.fmt ≠ .noFmt
  /-- FMT = BGR24 exactly on D24 (40_dispatch R130). -/
  fmt_path : s.fmt ≠ .noFmt → (s.path = .d24 ↔ s.fmt = .bgr24)
  /-- REMAIN never exceeds NPIX (41_run_engine R144). -/
  remain_le : s.remain.toNat ≤ s.npix.toNat
  /-- NPIX's largest value (10_state R34). -/
  npix_le : s.npix.toNat ≤ 0xFFFE0001
  /-- STRIDE's largest value (10_state R33). -/
  stride_le : s.stride.toNat ≤ 196605
  /-- OUT_PTR = (NPIX - REMAIN) * bpu, once a decode is dispatched (10_state R36; log 8). -/
  outPtr_eq : s.fmt ≠ .noFmt → s.outPtr.toNat = (s.npix.toNat - s.remain.toNat) * bytesPerUnit s.path
  /-- N * bpu = STRIDE * HEIGHT while BUSY (40_dispatch R128). -/
  busy_size : s.engine = .busy → s.outSize = s.stride.toNat * s.height.toNat
  /-- The size check has passed while BUSY (40_dispatch R129, 20_memory R72). -/
  busy_fits : s.engine = .busy → s.outSize ≤ s.outCap.toNat
  /-- CURSOR never exceeds IN_LEN while BUSY (10_state R30). -/
  busy_cursor : s.engine = .busy → s.cursor.toNat ≤ s.inLen.toNat
  /-- Only a decode operation is ever BUSY (40_dispatch R123, 10_state R24). -/
  busy_op : s.engine = .busy → s.ctrlOp = 0
  /-- PEND takes values 0 to 254 (10_state R37). -/
  pend_le : s.pend.toNat ≤ 254
  /-- On D8, PEND stays 0 (10_state R37). -/
  d8_pend : s.path = .d8 → s.pend = 0
  /-- ERR_OFF is 0 after every outcome but TRUNCATED (10_state R38). -/
  errOff_truncated : s.errOff ≠ 0 → s.result = .truncated

/-- A step that does not fault: what the invariant is to guarantee. -/
def SafeStep (s : State) : Prop := ∀ f, step s ≠ .fault f

/-- What no control code changes: the host's registers, the format, STRIDE and NPIX, the path, the input space, and
the environment's fields. -/
structure SameSetup (s t : State) : Prop where
  ctrlOp : t.ctrlOp = s.ctrlOp
  ctrlHdr : t.ctrlHdr = s.ctrlHdr
  ctrlIe : t.ctrlIe = s.ctrlIe
  width : t.width = s.width
  height : t.height = s.height
  depth : t.depth = s.depth
  inLen : t.inLen = s.inLen
  outCap : t.outCap = s.outCap
  fmt : t.fmt = s.fmt
  stride : t.stride = s.stride
  npix : t.npix = s.npix
  path : t.path = s.path
  inMem : t.inMem = s.inMem
  schedule : t.schedule = s.schedule
  busData : t.busData = s.busData
  freeIdx : t.freeIdx = s.freeIdx

/-- How an iteration ends (41_run_engine R148, 60_exceptions R200): DONE, OK with IRQ_PEND set and ABORT_REQ clear
when it leaves REMAIN = 0, and as before otherwise. -/
structure Completion (s t : State) : Prop where
  ended : t.remain = 0 → t.engine = .done ∧ t.result = .ok ∧ t.irqPend = true ∧ t.abortReq = false
  goesOn : t.remain ≠ 0 →
    t.engine = s.engine ∧ t.result = s.result ∧ t.irqPend = s.irqPend ∧ t.abortReq = s.abortReq

/-- `n` units of the run `cnt` are written and counted (41_run_engine R145): `n = min(max(cnt, 0), REMAIN)`, each
unit the bytes `unit`; every other byte of the output is as before; CLAMP and ZRUN record an irregular count. -/
structure Emitted (s t : State) (cnt : Int) (unit : List Byte) : Prop where
  remain : (t.remain.toNat : Int) = s.remain.toNat - min (max cnt 0) s.remain.toNat
  outPtr : (t.outPtr.toNat : Int) = s.outPtr.toNat + min (max cnt 0) s.remain.toNat * unit.length
  inside : ∀ a, s.outPtr.toNat ≤ a → a < t.outPtr.toNat →
    t.outMem.read a = unit.getD ((a - s.outPtr.toNat) % unit.length) 0
  outside : ∀ a, a < s.outPtr.toNat ∨ t.outPtr.toNat ≤ a → t.outMem.read a = s.outMem.read a
  clamp : t.clamp = (s.clamp || decide (cnt > s.remain.toNat))
  zrun : t.zrun = (s.zrun || decide (cnt ≤ 0))

/-- The move-to-front update of slot `pos` with `pix` (41_run_engine R146). -/
structure MovedToFront {α : Type} {n : Nat} (f g : Vector α n) (pos : Nat) (pix : α) : Prop where
  front : ∀ h : 0 < n, g[0] = pix
  shifted : ∀ i, (h : i < n) → 1 ≤ i → i ≤ pos → g[i] = f[i - 1]
  kept : ∀ i, (h : i < n) → pos < i → g[i] = f[i]

/-- A whole D24 iteration of `len` bytes with the run (`pix`, `cnt`, `pos`): its results and its frame
(41_run_engine R140). -/
structure Ran24 (s t : State) (len : Nat) (pend : Nat) (pix : Pixel) (cnt : Int) (pos : Nat) : Prop where
  cursor : t.cursor.toNat = s.cursor.toNat + len
  pend : t.pend.toNat = pend
  emitted : Emitted s t cnt [pix.extractLsb' 0 8, pix.extractLsb' 8 8, pix.extractLsb' 16 8]
  moved : MovedToFront s.frame24 t.frame24 pos pix
  completion : Completion s t
  frame8 : t.frame8 = s.frame8
  posfix : t.posfix = s.posfix
  errOff : t.errOff = s.errOff
  setup : SameSetup s t

/-- A whole D8 iteration of `len` bytes with the run (`pix`, `cnt`, `pos`); `fix` says that it sets POSFIX. -/
structure Ran8 (s t : State) (len : Nat) (fix : Bool) (pix : Byte) (cnt : Int) (pos : Nat) : Prop where
  cursor : t.cursor.toNat = s.cursor.toNat + len
  pend : t.pend = s.pend
  emitted : Emitted s t cnt [pix]
  moved : MovedToFront s.frame8 t.frame8 pos pix
  completion : Completion s t
  frame24 : t.frame24 = s.frame24
  posfix : t.posfix = (s.posfix || fix)
  errOff : t.errOff = s.errOff
  setup : SameSetup s t

/-- An iteration undone by the field at `off` that does not fit (41_run_engine R143, 60_exceptions R202): FAIL,
TRUNCATED, ERR_OFF = `off`, IRQ_PEND set, ABORT_REQ clear, and everything else as before. -/
def TruncatedAt (s t : State) (off : Nat) : Prop :=
  t.errOff.toNat = off ∧
  t = { s with engine := .fail, result := .truncated, irqPend := true, abortReq := false, errOff := t.errOff }

/-- What a control code does in `s`: if its bytes lie below IN_LEN it completes with `eff`; otherwise the first field
that does not fit, field number `k`, ends the decode TRUNCATED at that field's offset (41_run_engine R142, R143). -/
structure CodeEffect (i : Instr) (s : State) (eff : State → Prop) : Prop where
  completes : s.cursor.toNat + i.length ≤ s.inLen.toNat → ∃ t, exec i s = .next t ∧ eff t
  truncates : ∀ k, k < i.fields.length →
    s.cursor.toNat + (i.fields.take k).sum ≤ s.inLen.toNat →
    s.inLen.toNat < s.cursor.toNat + (i.fields.take (k + 1)).sum →
    ∃ t, exec i s = .next t ∧ TruncatedAt s t (s.cursor.toNat + (i.fields.take k).sum)

/-- STRIDE of an image (40_dispatch R127). -/
def imageStride (w : BitVec 16) (d : BitVec 8) : Nat :=
  if d = 24 then 3 * w.toNat else if d = 8 then w.toNat else (w.toNat + 7) / 8

/-- NPIX of an image (40_dispatch R128). -/
def imageUnits (w h : BitVec 16) (d : BitVec 8) : Nat :=
  if d = 24 then w.toNat * h.toNat else imageStride w d * h.toNat

/-- The frames and the path as they were. -/
def SameHistory (s t : State) : Prop := t.frame24 = s.frame24 ∧ t.frame8 = s.frame8 ∧ t.path = s.path

/-- The registers that End writes (60_exceptions R200): the result `e`, `r` with IRQ_PEND set and no abort
requested. -/
def EndedAs (t : State) (e : EngineState) (r : ResultCode) : Prop :=
  t.engine = e ∧ t.result = r ∧ t.irqPend = true ∧ t.abortReq = false

/-- What every accepted start leaves, whatever it then finds: the info bits, OUT_PTR, PEND and ERR_OFF cleared
(40_dispatch R131 a), CTRL as written, and the rest of the host's side as it was. -/
structure StartCleared (s t : State) (op : BitVec 2) (hdr ie : Bool) : Prop where
  ctrlOp : t.ctrlOp = op
  ctrlHdr : t.ctrlHdr = hdr
  ctrlIe : t.ctrlIe = ie
  info : t.clamp = false ∧ t.zrun = false ∧ t.posfix = false
  counters : t.outPtr = 0 ∧ t.pend = 0 ∧ t.errOff = 0
  config : t.inLen = s.inLen ∧ t.outCap = s.outCap
  buffers : t.inMem = s.inMem ∧ t.outMem = s.outMem
  environment : t.schedule = s.schedule ∧ t.busData = s.busData ∧ t.freeIdx = s.freeIdx

/-- A start that stopped before the size was computed (60_exceptions R208): nothing computed, the frames unchanged. -/
def NothingSized (s t : State) : Prop :=
  t.fmt = .noFmt ∧ t.stride = 0 ∧ t.npix = 0 ∧ t.remain = 0 ∧ SameHistory s t

/-- The start sequence from the bit-depth check on, for an image `w` by `h` at depth `d` (40_dispatch R122 steps 3 to
8): DECLINED, SIZE, an empty image DONE, or a decode under way. -/
structure StartedImage (s t : State) (w h : BitVec 16) (d : BitVec 8) (cursor : Nat) : Prop where
  image : t.width = w ∧ t.height = h ∧ t.depth = d
  cursor : t.cursor.toNat = cursor
  declined : d ≠ 1 → d ≠ 8 → d ≠ 24 → EndedAs t .fail .declined ∧ NothingSized s t
  sized : d = 1 ∨ d = 8 ∨ d = 24 → t.stride.toNat = imageStride w d ∧ t.npix.toNat = imageUnits w h d
  tooBig : d = 1 ∨ d = 8 ∨ d = 24 → s.outCap.toNat < imageStride w d * h.toNat →
    EndedAs t .fail .size ∧ t.fmt = .noFmt ∧ t.remain = 0 ∧ SameHistory s t
  dispatched : d = 1 ∨ d = 8 ∨ d = 24 → imageStride w d * h.toNat ≤ s.outCap.toNat →
    t.remain = t.npix ∧ t.frame24 = frame24Init ∧ t.frame8 = frame8Init ∧
    (d = 24 → t.path = .d24 ∧ t.fmt = .bgr24) ∧ (d = 8 → t.path = .d8 ∧ t.fmt = .indexed8) ∧
    (d = 1 → t.path = .d8 ∧ t.fmt = .mono1)
  empty : d = 1 ∨ d = 8 ∨ d = 24 → imageStride w d * h.toNat ≤ s.outCap.toNat → imageUnits w h d = 0 →
    EndedAs t .done .ok
  underWay : d = 1 ∨ d = 8 ∨ d = 24 → imageStride w d * h.toNat ≤ s.outCap.toNat → imageUnits w h d ≠ 0 →
    t.engine = .busy ∧ t.result = .ok ∧ t.irqPend = false ∧ t.abortReq = false

/-- The context in which the engine reads a code in `s` (30_encoding R103). -/
def State.codeCtx (s : State) : DecodeCtx :=
  match s.path with
  | .d24 => .d24 (decide (0 < s.pend.toNat))
  | .d8 => .d8

/-- The bytes `bs` lie in the input space from CURSOR on, and below IN_LEN. -/
def State.streamHas (s : State) (bs : List Byte) : Prop :=
  s.cursor.toNat + bs.length ≤ s.inLen.toNat ∧ ∀ j (h : j < bs.length), s.inMem.read (s.cursor.toNat + j) = bs[j]

/-- The engine moves next, by a turn of the schedule or because the schedule is empty, with no abort requested. -/
def State.engineNext (s : State) (rest : List Turn) : Prop :=
  s.engine = .busy ∧ ((s.schedule = [] ∧ rest = [] ∧ s.abortReq = false) ∨ s.schedule = .engine :: rest)

end Sys2Proof.Machine
end

