-- ==== Sys2Proof/Certificates/Slice0/Obligations.lean ====
section
/-! DEFINITION. The statements for the provers: what the numbered rules say of the machine. -/

open Sys2Proof Sys2Proof.Machine

/-! ## Reset and the invariant -/

/-- 10_state R48: every register at its reset value, both frames at their initial contents, irq low. -/
def Obligations.ResetValuesOfEveryRegister : Prop :=
  regValue 0x000 State.reset = 0x706D4347 ∧
  (∀ off, 0x004 ≤ off → off < 0x300 → regValue off State.reset = 0) ∧
  (∀ i, i < 14 → regValue (0x300 + 4 * i) State.reset = BitVec.ofNat 32 i) ∧
  regValue 0x338 State.reset = 0xFF ∧
  (∀ i, (h : i < 128) → State.reset.frame24[i] = 0) ∧
  State.reset.engine = .idle ∧ State.reset.path = .d24 ∧ State.reset.abortReq = false ∧ State.reset.irq = false

/-- The reset state keeps the invariant. -/
def Obligations.ResetStateKeepsInvariant : Prop := State.reset.Inv

/-- From every state that keeps the invariant, whatever the environment's turn, a step gives one that keeps it. -/
def Obligations.EveryStepKeepsInvariant : Prop :=
  ∀ s t, s.Inv → step s = .next t → t.Inv

/-- No step faults: the engine never writes past OUT_CAP (20_memory R72), from any state that keeps the invariant. -/
def Obligations.InvariantStepsNeverFault : Prop :=
  ∀ s, s.Inv → SafeStep s

/-- A step is refused only for a move the host does not have (10_state R22, 20_memory R84); no code is ever presented
where it is not enabled, and no instruction is without a meaning. -/
def Obligations.OnlyIllegalHostMovesAreRefused : Prop :=
  ∀ s r, step s = .refused r →
    (r = .registerAccess ∧ ∃ off size rest, alignedWord off size = false ∧
      (s.schedule = .host (.readReg off size) :: rest ∨ ∃ v, s.schedule = .host (.writeReg off size v) :: rest)) ∨
    (r = .bufferOwnedByEngine ∧ s.engine = .busy ∧ ∃ a rest,
      (∃ b, s.schedule = .host (.writeInput a b) :: rest) ∨
      (a.toNat < s.npix.toNat * bytesPerUnit s.path ∧
        (s.schedule = .host (.readOutput a) :: rest ∨ ∃ b, s.schedule = .host (.writeOutput a b) :: rest)))

/-- 70_reset R230, R231: the reset move, in any state: every core register at its reset value, the input space
unchanged, the output space unchanged when no decode runs and above the image when one does. -/
def Obligations.ResetMoveResetsTheCore : Prop :=
  ∀ s rest, s.schedule = .host .reset :: rest →
    ∃ t, step s = .next t ∧
      t = { State.reset with
        inMem := s.inMem, outMem := t.outMem, schedule := rest, busData := s.busData, freeIdx := t.freeIdx } ∧
      (s.engine ≠ .busy → t.outMem = s.outMem) ∧
      (s.engine = .busy → ∀ a, s.npix.toNat * bytesPerUnit s.path ≤ a → t.outMem.read a = s.outMem.read a)

/-! ## Encodings -/

/-- Decoding an encoded well-formed instruction, in its row's context and whatever follows it, gives it back. -/
def Obligations.DecodeOfEncodeIsTheInstruction : Prop :=
  ∀ (i : Instr) (rest : List Byte), i.wf = true → decode i.ctx (encode i ++ rest) = .ok i

/-- Each code has one byte string: what decodes to a code of the stream begins with that code's encoding, the code is
well formed, and its context is the one it was read in. -/
def Obligations.CodesHaveOneEncoding : Prop :=
  ∀ (p : Path) (pending : Bool) (bs : List Byte) (i : Instr), decodeCode p pending bs = .code i →
    i.wf = true ∧ bs.take i.length = encode i ∧ i.ctx = (match p with | .d24 => .d24 pending | .d8 => .d8)

/-- 30_encoding R98: the D24 opcode map by control byte, for every following byte. -/
def Obligations.D24OpcodeMap : Prop :=
  ∀ (ctl ext : Byte) (bs : List Byte), 6 ≤ bs.length →
    (∃ pix, decode24 true (ctl :: ext :: bs) = .code (.litp pix)) ∧
    (ctl = 0x00 → ∃ k pix, decode24 false (ctl :: ext :: bs) = .code (.litx k pix)) ∧
    (ctl = 0x01 → ∃ m pix, decode24 false (ctl :: ext :: bs) = .code (.litc m pix)) ∧
    (0x02 ≤ ctl.toNat → ctl.toNat ≤ 0x7F → ∃ n pix, decode24 false (ctl :: ext :: bs) = .code (.litr n pix) ∧
      n.toNat = ctl.toNat) ∧
    (ctl = 0x80 → ext.toNat < 0x80 → ∃ p k, decode24 false (ctl :: ext :: bs) = .code (.drefx p k)) ∧
    (ctl = 0x80 → 0x80 ≤ ext.toNat → ∃ p, decode24 false (ctl :: ext :: bs) = .code (.drefl 0 1 p)) ∧
    (0x81 ≤ ctl.toNat → ctl.toNat ≤ 0x9F → ∃ f x p, decode24 false (ctl :: ext :: bs) = .code (.drefl f x p)) ∧
    (0xA0 ≤ ctl.toNat → ∃ c f, decode24 false (ctl :: ext :: bs) = .code (.drefs c f) ∧
      c.toNat = (if ctl.toNat ≤ 0xBF then 1 else if ctl.toNat ≤ 0xDF then 2 else 3))

/-- 30_encoding R99: the D8 opcode map by control byte. -/
def Obligations.D8OpcodeMap : Prop :=
  ∀ (ctl : Byte) (bs : List Byte), 5 ≤ bs.length →
    (ctl.toNat ≤ 0x09 → ∃ b, decode8 (ctl :: bs) = .code (.blit (ctl.setWidth 4) b)) ∧
    (ctl = 0x0A → ∃ k b, decode8 (ctl :: bs) = .code (.blit8 k b)) ∧
    (ctl = 0x0B → ∃ k b, decode8 (ctl :: bs) = .code (.blit16 k b)) ∧
    (ctl = 0x0C → ∃ k b, decode8 (ctl :: bs) = .code (.blit32 k b)) ∧
    (ctl = 0x0D → ∃ k sel q, decode8 (ctl :: bs) = .code (.bref8 k sel q)) ∧
    (ctl = 0x0E → ∃ k sel q, decode8 (ctl :: bs) = .code (.bref16 k sel q)) ∧
    (ctl = 0x0F → ∃ k sel q, decode8 (ctl :: bs) = .code (.bref32 k sel q)) ∧
    (0x10 ≤ ctl.toNat → ∃ hi lo, decode8 (ctl :: bs) = .code (.bref hi lo) ∧
      hi.toNat = ctl.toNat / 16 ∧ lo.toNat = ctl.toNat % 16)

/-- Words of 30_encoding R93, R96 and R105, written out. -/
def Obligations.SampleWordsDecode : Prop :=
  decode24 true [0xAA, 0xBB, 0xCC] = .code (.litp 0xCCBBAA) ∧
  decode24 false [0xA1] = .code (.drefs 1 1) ∧
  decode24 false [0x82, 0x81] = .code (.drefl 2 1 1) ∧
  decode24 false [0x00, 0x03, 0x00, 0x00, 0x00, 0x09, 0x08, 0x07] = .code (.litx 3 0x070809) ∧
  decode8 [0x0B, 0x01, 0x00, 0x77] = .code (.blit16 1 0x77) ∧
  decode8 [0x0F, 0xFF, 0xFF, 0xFF, 0xFF, 0x23] = .code (.bref32 0xFFFFFFFF 2 3) ∧
  decodeCtrl false 0x00000011 = some (.startDecode false true false) ∧
  decodeCtrl true 0x00000003 = some (.abort true 0 false false)

/-! ## A step runs the decoded instruction -/

/-- When the bytes at CURSOR decode to a code, an engine turn is exec of that code, with the turn taken from the
schedule; nothing else is added around it. -/
def Obligations.StepRunsTheDecodedCode : Prop :=
  ∀ s rest i, s.engineNext rest → decodeCode s.path (decide (0 < s.pend.toNat)) (fetchBytes s) = .code i →
    step s = exec i { s with schedule := rest }

/-- When a well-formed code's encoding lies at CURSOR below IN_LEN, in the context that PATH and PEND select, an engine
turn runs exactly that code. -/
def Obligations.StepRunsTheCodeAtCursor : Prop :=
  ∀ s rest i, s.engineNext rest → i.wf = true → i.ctx = s.codeCtx → s.streamHas (encode i) →
    step s = exec i { s with schedule := rest }

/-- When IN_LEN cuts a well-formed code off after `n` of its bytes, an engine turn is still exec of that code: the
truncation that its meaning gives (41_run_engine R142, R143). -/
def Obligations.StepRunsTheCutOffCode : Prop :=
  ∀ s rest i n, s.engineNext rest → i.wf = true → i.ctx = s.codeCtx → n < i.length →
    s.inLen.toNat = s.cursor.toNat + n → s.streamHas ((encode i).take n) →
    step s = exec i { s with schedule := rest }

/-- A CTRL write that is a host command is exec of that command, and nothing else. -/
def Obligations.StepRunsTheHostCommand : Prop :=
  ∀ s rest v i, s.schedule = .host (.writeReg 0x004 .word v) :: rest → decodeCtrl (s.engine == .busy) v = some i →
    step s = exec i { s with schedule := rest }

/-! ## What each code does -/

/-- 42_decode24 R161: LITP, its encoding, its effect and where it is truncated. -/
def Obligations.LitpEffect : Prop :=
  ∀ (s : State) (pix : Pixel), s.Inv → s.engine = .busy → s.path = .d24 → 0 < s.pend.toNat →
    encode (.litp pix) = bytes3 pix ∧
    CodeEffect (.litp pix) s fun t => Ran24 s t 3 (s.pend.toNat - 1) pix 1 127

/-- 42_decode24 R162: DREFS, its encoding, its effect and where it is truncated. -/
def Obligations.DrefsEffect : Prop :=
  ∀ (s : State) (c : BitVec 2) (f : BitVec 5), s.Inv → s.engine = .busy → s.path = .d24 → s.pend = 0 →
    encode (.drefs c f) = [(1 : BitVec 1) ++ c ++ f] ∧
    CodeEffect (.drefs c f) s fun t => Ran24 s t 1 0 (s.frame24[f.toNat]'(by
      have := f.isLt; simp only [Config.k24]; omega)) c.toNat f.toNat

/-- 42_decode24 R163: DREFL, its encoding, its effect and where it is truncated. -/
def Obligations.DreflEffect : Prop :=
  ∀ (s : State) (f : BitVec 5) (x : BitVec 1) (p : BitVec 7), s.Inv → s.engine = .busy → s.path = .d24 → s.pend = 0 →
    encode (.drefl f x p) = [(0b100 : BitVec 3) ++ f, x ++ p] ∧
    CodeEffect (.drefl f x p) s fun t => Ran24 s t 2 0 (s.frame24[p.toNat]'p.isLt) (2 * f.toNat + x.toNat) p.toNat

/-- 42_decode24 R164: DREFX, its encoding, its effect and where it is truncated; the count is unsigned. -/
def Obligations.DrefxEffect : Prop :=
  ∀ (s : State) (p : BitVec 7) (k : BitVec 32), s.Inv → s.engine = .busy → s.path = .d24 → s.pend = 0 →
    encode (.drefx p k) = 0x80 :: ((0 : BitVec 1) ++ p) :: bytes4 k ∧
    CodeEffect (.drefx p k) s fun t => Ran24 s t 6 0 (s.frame24[p.toNat]'p.isLt) k.toNat p.toNat

/-- 42_decode24 R165: LITC; PEND becomes max(m - 1, 0). -/
def Obligations.LitcEffect : Prop :=
  ∀ (s : State) (m : Byte) (pix : Pixel), s.Inv → s.engine = .busy → s.path = .d24 → s.pend = 0 →
    encode (.litc m pix) = 0x01 :: m :: bytes3 pix ∧
    CodeEffect (.litc m pix) s fun t => Ran24 s t 5 (m.toNat - 1) pix 1 127

/-- 42_decode24 R166: LITX, its encoding, its effect and where it is truncated. -/
def Obligations.LitxEffect : Prop :=
  ∀ (s : State) (k : BitVec 32) (pix : Pixel), s.Inv → s.engine = .busy → s.path = .d24 → s.pend = 0 →
    encode (.litx k pix) = 0x00 :: (bytes4 k ++ bytes3 pix) ∧
    CodeEffect (.litx k pix) s fun t => Ran24 s t 8 0 pix k.toNat 127

/-- 42_decode24 R167: LITR, its encoding, its effect and where it is truncated. -/
def Obligations.LitrEffect : Prop :=
  ∀ (s : State) (n : BitVec 7) (pix : Pixel), s.Inv → s.engine = .busy → s.path = .d24 → s.pend = 0 →
    encode (.litr n pix) = ((0 : BitVec 1) ++ n) :: bytes3 pix ∧
    CodeEffect (.litr n pix) s fun t => Ran24 s t 4 0 pix n.toNat 127

/-- 43_decode8 R181: BREF, for every `hi ≠ 0`. -/
def Obligations.BrefEffect : Prop :=
  ∀ (s : State) (hi lo : BitVec 4), s.Inv → s.engine = .busy → s.path = .d8 → hi ≠ 0 →
    encode (.bref hi lo) = [hi ++ lo] ∧
    CodeEffect (.bref hi lo) s fun t => Ran8 s t 1 false (s.frame8[hi.toNat - 1]'(by
      have := hi.isLt; simp only [Config.k8]; omega)) (lo.toNat + 1) (hi.toNat - 1)

/-- 43_decode8 R182 to R185: BLIT, BLIT8, BLIT16 and BLIT32. That BLIT32's count field is two's complement is log 23
(PRESUMED, the spec's own general knowledge: 00_scope R9, 93 G1). -/
def Obligations.LiteralRunEffects8 : Prop :=
  ∀ (s : State) (b : Byte), s.Inv → s.engine = .busy → s.path = .d8 →
    (∀ lo : BitVec 4, encode (.blit lo b) = [(0 : BitVec 4) ++ lo, b] ∧
      CodeEffect (.blit lo b) s fun t => Ran8 s t 2 false b (lo.toNat + 1) 14) ∧
    (∀ k : BitVec 8, encode (.blit8 k b) = [0x0A, k, b] ∧
      CodeEffect (.blit8 k b) s fun t => Ran8 s t 3 false b (k.toNat + 11) 14) ∧
    (∀ k : BitVec 16, encode (.blit16 k b) = 0x0B :: (bytes2 k ++ [b]) ∧
      CodeEffect (.blit16 k b) s fun t => Ran8 s t 4 false b (k.toNat + 267) 14) ∧
    (∀ k : BitVec 32, encode (.blit32 k b) = 0x0C :: (bytes4 k ++ [b]) ∧
      CodeEffect (.blit32 k b) s fun t => Ran8 s t 6 false b (k.toInt + 65803) 14)

/-- 43_decode8 R186 to R189: BREF8, BREF16 and BREF32 with `sel ≠ 0` name slot `sel - 1`; with `sel = 0` they name slot
0 and set POSFIX. The counts are exact, on the bases that log 21 keeps (UNVERIFIED); that BREF32's count field is two's
complement is log 23 (PRESUMED: 00_scope R9, 93 G1). -/
def Obligations.EscapeReferenceEffects8 : Prop :=
  ∀ (s : State) (sel q : BitVec 4), s.Inv → s.engine = .busy → s.path = .d8 →
    let pix := s.frame8[sel.toNat - 1]'(by have := sel.isLt; simp only [Config.k8]; omega)
    let run := fun (i : Instr) (len : Nat) (cnt : Int) =>
      CodeEffect i s fun t => Ran8 s t len (sel == 0) pix cnt (sel.toNat - 1)
    (∀ k : BitVec 8, encode (.bref8 k sel q) = [0x0D, k, sel ++ q] ∧
      run (.bref8 k sel q) 3 (0x10 + 16 * k.toNat + q.toNat + 1)) ∧
    (∀ k : BitVec 16, encode (.bref16 k sel q) = 0x0E :: (bytes2 k ++ [sel ++ q]) ∧
      run (.bref16 k sel q) 4 (0x120 + 16 * k.toNat + q.toNat + 1)) ∧
    (∀ k : BitVec 32, encode (.bref32 k sel q) = 0x0F :: (bytes4 k ++ [sel ++ q]) ∧
      run (.bref32 k sel q) 6 (0x10130 + 16 * k.toInt + q.toNat + 1))

/-! ## Frames -/

/-- The STATUS bits after a control code: the sticky bits are kept or set, and the others are as before or as the end of
the decode sets them. -/
def StatusFrame (s t : State) : Prop :=
  (t.clamp = s.clamp ∨ t.clamp = true) ∧ (t.zrun = s.zrun ∨ t.zrun = true) ∧
  ((t.engine = s.engine ∧ t.result = s.result ∧ t.irqPend = s.irqPend ∧ t.abortReq = s.abortReq) ∨
    EndedAs t .done .ok ∨ EndedAs t .fail .truncated)

/-- The frame of a D24 code: what is unchanged in every next state, for the run `cnt` that the code makes and the slot
`pos` that it moves; PEND may change only where `pending`. -/
def FrameOf24 (i : Instr) (cnt : State → Int) (pos : Nat) (pending : Bool) : Prop :=
  ∀ s t, exec i s = .next t →
    SameSetup s t ∧ t.frame8 = s.frame8 ∧ t.posfix = s.posfix ∧
    (∀ j, (h : j < 128) → pos < j → t.frame24[j] = s.frame24[j]) ∧
    (pending = false → t.pend = s.pend) ∧
    (t.errOff = s.errOff ∨ t.result = .truncated) ∧ StatusFrame s t ∧
    (∀ a : Nat, a < s.outPtr.toNat ∨ (s.outPtr.toNat : Int) + 3 * min (max (cnt s) 0) s.remain.toNat ≤ a →
      t.outMem.read a = s.outMem.read a)

/-- The frames of the seven D24 codes. -/
def Obligations.FramesOfTheD24Codes : Prop :=
  (∀ pix, FrameOf24 (.litp pix) (fun _ => 1) 127 true) ∧
  (∀ c f, FrameOf24 (.drefs c f) (fun _ => c.toNat) f.toNat false) ∧
  (∀ f x p, FrameOf24 (.drefl f x p) (fun _ => 2 * f.toNat + x.toNat) p.toNat false) ∧
  (∀ p k, FrameOf24 (.drefx p k) (fun _ => k.toNat) p.toNat false) ∧
  (∀ m pix, FrameOf24 (.litc m pix) (fun _ => 1) 127 true) ∧
  (∀ k pix, FrameOf24 (.litx k pix) (fun _ => k.toNat) 127 false) ∧
  (∀ n pix, FrameOf24 (.litr n pix) (fun _ => n.toNat) 127 false)

/-- The frame of a D8 code; POSFIX may change only where `fix`. -/
def FrameOf8 (i : Instr) (cnt : Int) (pos : Nat) (fix : Bool) : Prop :=
  ∀ s t, exec i s = .next t →
    SameSetup s t ∧ t.frame24 = s.frame24 ∧ t.pend = s.pend ∧ (fix = false → t.posfix = s.posfix) ∧
    (∀ j, (h : j < 15) → pos < j → t.frame8[j] = s.frame8[j]) ∧
    (t.errOff = s.errOff ∨ t.result = .truncated) ∧ StatusFrame s t ∧
    (∀ a : Nat, a < s.outPtr.toNat ∨ (s.outPtr.toNat : Int) + min (max cnt 0) s.remain.toNat ≤ a →
      t.outMem.read a = s.outMem.read a)

/-- The frames of the eight D8 codes. The counts that bound the bytes written rest on log 21 for the bases of BREF8,
BREF16 and BREF32 (UNVERIFIED), and on log 23 for the sign of the BLIT32 and BREF32 fields (PRESUMED). -/
def Obligations.FramesOfTheD8Codes : Prop :=
  (∀ hi lo, FrameOf8 (.bref hi lo) (lo.toNat + 1) (hi.toNat - 1) false) ∧
  (∀ lo b, FrameOf8 (.blit lo b) (lo.toNat + 1) 14 false) ∧
  (∀ k b, FrameOf8 (.blit8 k b) (k.toNat + 11) 14 false) ∧
  (∀ k b, FrameOf8 (.blit16 k b) (k.toNat + 267) 14 false) ∧
  (∀ k b, FrameOf8 (.blit32 k b) (k.toInt + 65803) 14 false) ∧
  (∀ k sel q, FrameOf8 (.bref8 k sel q) (0x10 + 16 * k.toNat + q.toNat + 1) (sel.toNat - 1) (sel == 0)) ∧
  (∀ k sel q, FrameOf8 (.bref16 k sel q) (0x120 + 16 * k.toNat + q.toNat + 1) (sel.toNat - 1) (sel == 0)) ∧
  (∀ k sel q, FrameOf8 (.bref32 k sel q) (0x10130 + 16 * k.toInt + q.toNat + 1) (sel.toNat - 1) (sel == 0))

/-- The host commands store nothing: both buffers, the configuration lengths, CTRL.IE but for the value written, and the
environment's side are as before; while BUSY only IE and ABORT_REQ change. -/
def Obligations.FramesOfTheHostCommands : Prop :=
  ∀ (s t : State) (start abort : Bool) (op : BitVec 2) (hdr ie : Bool),
    (exec (.startDecode abort hdr ie) s = .next t ∨ exec (.startEncode abort op hdr ie) s = .next t ∨
      exec (.abort start op hdr ie) s = .next t) →
    t.inMem = s.inMem ∧ t.outMem = s.outMem ∧ t.inLen = s.inLen ∧ t.outCap = s.outCap ∧ t.ctrlIe = ie ∧
    t.schedule = s.schedule ∧ t.busData = s.busData ∧ t.freeIdx = s.freeIdx ∧
    (t.frame24 = s.frame24 ∧ t.frame8 = s.frame8 ∨ t.frame24 = frame24Init ∧ t.frame8 = frame8Init) ∧
    (hdr = false → t.width = s.width ∧ t.height = s.height ∧ t.depth = s.depth) ∧
    (s.engine = .busy → t = { s with ctrlIe := t.ctrlIe, abortReq := t.abortReq })

/-! ## Host commands -/

/-- 40_dispatch R122, R125 to R131: START_DECODE in direct mode, accepted in IDLE, DONE or FAIL. -/
def Obligations.StartDecodeDirectMode : Prop :=
  ∀ (s : State) (abort ie : Bool), s.engine ≠ .busy →
    ∃ t, exec (.startDecode abort false ie) s = .next t ∧ StartCleared s t 0 false ie ∧
      StartedImage s t s.width s.height s.depth 0

/-- 40_dispatch R122, R124: START_DECODE in header mode; the image is the header's, little-endian, and the stream
starts at offset 16. A header that is not whole ends FAIL, TRUNCATED with the image registers as they were. -/
def Obligations.StartDecodeHeaderMode : Prop :=
  ∀ (s : State) (abort ie : Bool), s.engine ≠ .busy →
    ∃ t, exec (.startDecode abort true ie) s = .next t ∧ StartCleared s t 0 true ie ∧
      (s.inLen.toNat < 16 → EndedAs t .fail .truncated ∧ NothingSized s t ∧ t.cursor = 0 ∧
        t.width = s.width ∧ t.height = s.height ∧ t.depth = s.depth) ∧
      (16 ≤ s.inLen.toNat →
        StartedImage s t (s.inMem.read 9 ++ s.inMem.read 8) (s.inMem.read 11 ++ s.inMem.read 10) (s.inMem.read 12) 16)

/-- 40_dispatch R123, 60_exceptions R204: an encode request or a reserved operation ends FAIL, UNSUPPORTED; nothing is
read or written. -/
def Obligations.StartEncodeEndsUnsupported : Prop :=
  ∀ (s : State) (abort : Bool) (op : BitVec 2) (hdr ie : Bool), s.engine ≠ .busy → op ≠ 0 →
    ∃ t, exec (.startEncode abort op hdr ie) s = .next t ∧ StartCleared s t op hdr ie ∧
      EndedAs t .fail .unsupported ∧ NothingSized s t ∧ t.cursor = 0 ∧
      t.width = s.width ∧ t.height = s.height ∧ t.depth = s.depth

/-- 40_dispatch R121, 10_state R24: a start command while BUSY is ignored as a start; its IE and ABORT bits act. -/
def Obligations.StartWhileBusyIsIgnored : Prop :=
  ∀ (s : State) (abort : Bool) (op : BitVec 2) (hdr ie : Bool), s.engine = .busy →
    exec (.startDecode abort hdr ie) s =
      .next { s with ctrlIe := ie, abortReq := s.abortReq || abort } ∧
    exec (.startEncode abort op hdr ie) s =
      .next { s with ctrlIe := ie, abortReq := s.abortReq || abort }

/-- 40_dispatch R132, 10_state R24: the abort command requests the abort step while BUSY; an ABORT write in another
state only writes OP, HDR and IE. -/
def Obligations.AbortRequestsTheAbortStep : Prop :=
  ∀ (s : State) (op : BitVec 2) (hdr ie : Bool),
    (s.engine = .busy → ∀ start, exec (.abort start op hdr ie) s =
      .next { s with ctrlIe := ie, abortReq := true }) ∧
    (s.engine ≠ .busy → exec (.abort false op hdr ie) s =
      .next { s with ctrlOp := op, ctrlHdr := hdr, ctrlIe := ie })

/-- 60_exceptions R206: the abort step ends the decode FAIL, ABORTED and changes nothing else, with ERR_OFF = 0; it is
not taken unless STATE = BUSY and ABORT_REQ = 1. -/
def Obligations.AbortStepEndsTheDecode : Prop :=
  ∀ s rest, s.schedule = .abortStep :: rest →
    (s.engine = .busy → s.abortReq = true → step s =
      .next { s with schedule := rest, engine := .fail, result := .aborted, irqPend := true, abortReq := false }) ∧
    (s.engine = .busy → s.Inv → s.errOff = 0) ∧
    (s.engine ≠ .busy ∨ s.abortReq = false → step s = .next { s with schedule := rest })

/-! ## Host register accesses -/

/-- 10_state R47, R22: while BUSY a word write to a register other than CTRL and STATUS changes nothing, in any state a
write to a read-only or reserved offset or to a window changes nothing. -/
def Obligations.IgnoredRegisterWrites : Prop :=
  ∀ (s : State) (rest : List Turn) (off : BitVec 10) (v : Word),
    s.schedule = .host (.writeReg off .word v) :: rest → off.toNat % 4 = 0 → off ≠ 0x004 → off ≠ 0x008 →
    (s.engine = .busy ∨ off.toNat < 0x00C ∨ 0x020 ≤ off.toNat) → step s = .next { s with schedule := rest }

/-- 10_state R26 to R31: when not BUSY the configuration registers take the written value's field. -/
def Obligations.ConfigurationWritesStore : Prop :=
  ∀ (s : State) (rest : List Turn) (v : Word), s.engine ≠ .busy →
    (s.schedule = .host (.writeReg 0x00C .word v) :: rest →
      step s = .next { s with schedule := rest, width := v.extractLsb' 0 16 }) ∧
    (s.schedule = .host (.writeReg 0x010 .word v) :: rest →
      step s = .next { s with schedule := rest, height := v.extractLsb' 0 16 }) ∧
    (s.schedule = .host (.writeReg 0x014 .word v) :: rest →
      step s = .next { s with schedule := rest, depth := v.extractLsb' 0 8 }) ∧
    (s.schedule = .host (.writeReg 0x018 .word v) :: rest → step s = .next { s with schedule := rest, inLen := v }) ∧
    (s.schedule = .host (.writeReg 0x01C .word v) :: rest → step s = .next { s with schedule := rest, outCap := v })

/-- 60_exceptions R215, 10_state R25: a STATUS write clears IRQ_PEND when bit 8 is 1 and changes nothing else, in every
state of the engine. -/
def Obligations.StatusWriteClearsIrqPend : Prop :=
  ∀ (s : State) (rest : List Turn) (v : Word), s.schedule = .host (.writeReg 0x008 .word v) :: rest →
    step s = .next { s with schedule := rest, irqPend := if v.getLsbD 8 then false else s.irqPend }

/-- 10_state R24, 60_exceptions R214: a CTRL write with neither START nor ABORT stores OP, HDR and IE, or only IE while
BUSY, and changes nothing else; the line is then IRQ_PEND AND the IE written, so it rises when IE is set while
IRQ_PEND = 1, and falls when IE is cleared. That such a write is no host command is log 12. -/
def Obligations.InterruptEnableGatesTheLine : Prop :=
  ∀ (s : State) (rest : List Turn) (v : Word), s.schedule = .host (.writeReg 0x004 .word v) :: rest →
    v.getLsbD 0 = false → v.getLsbD 1 = false →
    ∃ t, step s = .next t ∧
      (s.engine ≠ .busy → t = { s with
        schedule := rest, ctrlOp := v.extractLsb' 2 2, ctrlHdr := v.getLsbD 4, ctrlIe := v.getLsbD 5 }) ∧
      (s.engine = .busy → t = { s with schedule := rest, ctrlIe := v.getLsbD 5 }) ∧
      t.irqPend = s.irqPend ∧ t.irq = (s.irqPend && v.getLsbD 5) ∧ t.engine = s.engine

/-- What the registers that read current in every state read as: ID, CTRL, STATUS, WIDTH, HEIGHT, DEPTH, IN_LEN,
OUT_CAP, FMT, STRIDE and NPIX (10_state R23 to R29, R31 to R34), by the fields of R24, R25 and R32. -/
def RegisterReads (s : State) (off : BitVec 10) (v : Word) : Prop :=
  (off = 0x000 → v = 0x706D4347) ∧
  (off = 0x004 → v.toNat = 4 * s.ctrlOp.toNat + 0x10 * s.ctrlHdr.toNat + 0x20 * s.ctrlIe.toNat) ∧
  (off = 0x008 → v.toNat =
    (match s.engine with | .idle => 0 | .busy => 1 | .done => 2 | .fail => 3) +
    16 * (match s.result with
      | .ok => 0 | .declined => 1 | .truncated => 2 | .unsupported => 3 | .size => 4 | .aborted => 5) +
    0x100 * s.irqPend.toNat + 0x10000 * s.clamp.toNat + 0x20000 * s.zrun.toNat + 0x40000 * s.posfix.toNat) ∧
  (off = 0x00C → v.toNat = s.width.toNat) ∧ (off = 0x010 → v.toNat = s.height.toNat) ∧
  (off = 0x014 → v.toNat = s.depth.toNat) ∧ (off = 0x018 → v = s.inLen) ∧ (off = 0x01C → v = s.outCap) ∧
  (off = 0x020 → v.toNat = (match s.fmt with | .noFmt => 0 | .mono1 => 1 | .indexed8 => 2 | .bgr24 => 3)) ∧
  (off = 0x024 → v = s.stride) ∧ (off = 0x028 → v = s.npix)

/-- 10_state R46: while BUSY a read of REMAIN, CURSOR, OUT_PTR, PEND, ERR_OFF or a window returns some value with the
reserved bits 0, and the core is unchanged. -/
def Obligations.BusyProgressReadsKeepReservedBits : Prop :=
  ∀ (s : State) (rest : List Turn) (off : BitVec 10),
    s.schedule = .host (.readReg off .word) :: rest → off.toNat % 4 = 0 → s.engine = .busy →
    ∃ t, step s = .next t ∧ t = { s with schedule := rest, busData := t.busData, freeIdx := t.freeIdx } ∧
      (off = 0x038 → t.busData.toNat < 2 ^ 8) ∧
      (0x100 ≤ off.toNat → off.toNat < 0x300 → t.busData.toNat < 2 ^ 24) ∧
      (0x300 ≤ off.toNat → off.toNat < 0x33C → t.busData.toNat < 2 ^ 8) ∧
      (off.toNat < 0x02C ∨ 0x040 ≤ off.toNat ∧ off.toNat < 0x100 ∨ 0x33C ≤ off.toNat →
        t.busData = regValue off.toNat s)

/-- 10_state R21 to R39: when not BUSY a word read returns the register at every offset of the map, reserved offsets
reading 0 and the windows their slots, and the core is unchanged. -/
def Obligations.IdleReadsReturnTheRegister : Prop :=
  ∀ (s : State) (rest : List Turn) (off : BitVec 10),
    s.schedule = .host (.readReg off .word) :: rest → off.toNat % 4 = 0 → s.engine ≠ .busy →
    ∃ t, step s = .next t ∧ t = { s with schedule := rest, busData := t.busData } ∧
      RegisterReads s off t.busData ∧ (off = 0x030 → t.busData = s.cursor) ∧
      (off = 0x034 → t.busData = s.outPtr) ∧ (off = 0x02C → t.busData = s.remain) ∧
      (off = 0x03C → t.busData = s.errOff) ∧ (off = 0x038 → t.busData.toNat = s.pend.toNat) ∧
      (∀ i, (h : i < 128) → off.toNat = 0x100 + 4 * i → t.busData.toNat = s.frame24[i].toNat) ∧
      (∀ i, (h : i < 15) → off.toNat = 0x300 + 4 * i → t.busData.toNat = s.frame8[i].toNat) ∧
      (0x040 ≤ off.toNat → off.toNat < 0x100 → t.busData = 0) ∧ (0x33C ≤ off.toNat → t.busData = 0)

/-- 60_exceptions R225, 20_memory R84: a host write to the input space when not BUSY, and to an output byte that the
engine does not own in any state, changes that byte only; a host read of any input byte (log 6), and of an output byte
that the engine does not own, returns the byte and leaves the core as it was (log 6 for where the byte goes). That this
holds at every 32-bit offset, at or past IN_LEN and OUT_CAP too, where 20_memory R70 gives no valid input and no output
byte, is the model's choice of log 14 (DESIGN CHOICE, unsafe). -/
def Obligations.HostBufferAccesses : Prop :=
  ∀ (s : State) (rest : List Turn) (a : Word) (b : Byte), s.Inv →
    (s.engine ≠ .busy → s.schedule = .host (.writeInput a b) :: rest → ∃ t, step s = .next t ∧
      t = { s with schedule := rest, inMem := t.inMem } ∧ t.inMem.read a.toNat = b ∧
      ∀ x, x ≠ a.toNat → t.inMem.read x = s.inMem.read x) ∧
    (s.schedule = .host (.readInput a) :: rest → ∃ t, step s = .next t ∧
      t = { s with schedule := rest, busData := t.busData } ∧ t.busData.toNat = (s.inMem.read a.toNat).toNat) ∧
    (s.engine ≠ .busy ∨ s.npix.toNat * bytesPerUnit s.path ≤ a.toNat →
      (s.schedule = .host (.writeOutput a b) :: rest → ∃ t, step s = .next t ∧
        t = { s with schedule := rest, outMem := t.outMem } ∧ t.outMem.read a.toNat = b ∧
        ∀ x, x ≠ a.toNat → t.outMem.read x = s.outMem.read x) ∧
      (s.schedule = .host (.readOutput a) :: rest → ∃ t, step s = .next t ∧
        t = { s with schedule := rest, busData := t.busData } ∧ t.busData.toNat = (s.outMem.read a.toNat).toNat))

/-- 10_state R25: the fields of the STATUS word, and 0 in its reserved bits. -/
def Obligations.StatusWordFields : Prop :=
  ∀ s : State, (regValue 0x008 s).toNat =
    (match s.engine with | .idle => 0 | .busy => 1 | .done => 2 | .fail => 3) +
    16 * (match s.result with
      | .ok => 0 | .declined => 1 | .truncated => 2 | .unsupported => 3 | .size => 4 | .aborted => 5) +
    0x100 * s.irqPend.toNat + 0x10000 * s.clamp.toNat + 0x20000 * s.zrun.toNat + 0x40000 * s.posfix.toNat

/-! ## Whole-machine rules -/

/-- 10_state R43: STATE changes only by an accepted start, by the engine in BUSY, or by reset; no other transition
exists. -/
def Obligations.EngineStateTransitions : Prop :=
  ∀ s t, step s = .next t → t.engine ≠ s.engine →
    (∃ rest, s.schedule = .host .reset :: rest ∧ t.engine = .idle) ∨
    (s.engine ≠ .busy ∧ t.engine ≠ .idle ∧
      ∃ rest v, s.schedule = .host (.writeReg 0x004 .word v) :: rest ∧ v.getLsbD 0 = true) ∨
    (s.engine = .busy ∧ (t.engine = .done ∨ t.engine = .fail) ∧
      (s.schedule = [] ∨ ∃ rest, s.schedule = .engine :: rest ∨ s.schedule = .abortStep :: rest))

/-- 10_state R45: an info bit that is set is cleared only by an accepted start (or reset). -/
def Obligations.InfoBitsAreSticky : Prop :=
  ∀ s t, step s = .next t →
    (s.clamp = true ∧ t.clamp = false ∨ s.zrun = true ∧ t.zrun = false ∨ s.posfix = true ∧ t.posfix = false) →
    (∃ rest, s.schedule = .host .reset :: rest) ∨
    (s.engine ≠ .busy ∧ ∃ rest v, s.schedule = .host (.writeReg 0x004 .word v) :: rest ∧ v.getLsbD 0 = true)

/-- 10_state R46, R47: while BUSY no step but reset changes the parameters of the decode. -/
def Obligations.DecodeParametersAreStable : Prop :=
  ∀ s t, s.engine = .busy → step s = .next t → (∀ rest, s.schedule ≠ .host .reset :: rest) →
    t.ctrlOp = s.ctrlOp ∧ t.ctrlHdr = s.ctrlHdr ∧ t.width = s.width ∧ t.height = s.height ∧ t.depth = s.depth ∧
    t.inLen = s.inLen ∧ t.outCap = s.outCap ∧ t.fmt = s.fmt ∧ t.stride = s.stride ∧ t.npix = s.npix ∧
    t.path = s.path ∧ t.inMem = s.inMem

/-- 60_exceptions R224: with no turn left, a core that is not BUSY does nothing. -/
def Obligations.IdleCoreDoesNothing : Prop :=
  ∀ s, s.schedule = [] → s.engine ≠ .busy → step s = .next s

/-- 20_memory R72, R80: an engine turn writes only the output bytes from OUT_PTR before it to OUT_PTR after it, all of
them below NPIX * bpu. -/
def Obligations.EngineWritesForwardBelowTheImage : Prop :=
  ∀ s t rest, s.Inv → s.engineNext rest → step s = .next t →
    s.outPtr.toNat ≤ t.outPtr.toNat ∧ t.outPtr.toNat ≤ s.npix.toNat * bytesPerUnit s.path ∧
    ∀ a, a < s.outPtr.toNat ∨ t.outPtr.toNat ≤ a → t.outMem.read a = s.outMem.read a

/-- 41_run_engine R150: when an iteration ends the decode DONE, REMAIN = 0 and OUT_PTR = NPIX * bpu = STRIDE * HEIGHT;
when it ends FAIL, OUT_PTR is below that. -/
def Obligations.DoneDecodesFillTheImage : Prop :=
  ∀ s t rest, s.Inv → s.engineNext rest → step s = .next t →
    (t.engine = .done → t.result = .ok ∧ t.remain = 0 ∧ t.outPtr.toNat = t.npix.toNat * bytesPerUnit t.path ∧
      t.outPtr.toNat = t.stride.toNat * t.height.toNat) ∧
    (t.engine = .fail → t.outPtr.toNat < t.stride.toNat * t.height.toNat)

/-- 41_run_engine R149: an iteration that does not fail moves CURSOR strictly forward, never past IN_LEN; one that does
leaves it. -/
def Obligations.IterationsMoveTheCursorForward : Prop :=
  ∀ s t rest, s.Inv → s.engineNext rest → step s = .next t →
    (s.cursor.toNat < t.cursor.toNat ∧ t.cursor.toNat ≤ s.inLen.toNat) ∨
    (t.cursor = s.cursor ∧ t.engine = .fail ∧ t.result = .truncated)

/-- 41_run_engine R149, 70_reset R241, R242: with no further turn of the environment every decode ends, whatever its
stream, within one more step than it has input bytes left; an abort request does not delay it. That the engine moves at
every step of an empty schedule is the model's choice of log 1 (DESIGN CHOICE). -/
def Obligations.EveryDecodeEnds : Prop :=
  ∀ s, s.Inv → s.engine = .busy → s.schedule = [] →
    ∃ n t, n ≤ s.inLen.toNat - s.cursor.toNat + 1 ∧ Sys2Proof.core.run n s = .next t ∧
      (t.engine = .done ∨ t.engine = .fail)

/-- 20_memory R71: an engine turn does not depend on input bytes before CURSOR or at and past IN_LEN: two spaces that
agree between them give the same step, but for the space itself. -/
def Obligations.OnlyTheStreamIsRead : Prop :=
  ∀ (s : State) (rest : List Turn) (m : Memory), s.engineNext rest →
    (∀ a, s.cursor.toNat ≤ a → a < s.inLen.toNat → m.read a = s.inMem.read a) →
    step { s with inMem := m } =
      (match step s with
        | .next t => .next { t with inMem := m }
        | .fault f => .fault f
        | .refused r => .refused r)

/-- 70_reset R232: what a start leaves of the decode depends only on the configuration, CTRL as written and the header
bytes, never on an earlier decode; the frames and the path too, once the start passes the size check. -/
def Obligations.StartForgetsEarlierDecodes : Prop :=
  ∀ (s u : State) (abort hdr ie : Bool), s.engine ≠ .busy → u.engine ≠ .busy →
    s.width = u.width → s.height = u.height → s.depth = u.depth → s.inLen = u.inLen → s.outCap = u.outCap →
    (∀ a, a < 16 → s.inMem.read a = u.inMem.read a) →
    ∃ t v, exec (.startDecode abort hdr ie) s = .next t ∧ exec (.startDecode abort hdr ie) u = .next v ∧
      t = { v with
        frame24 := t.frame24, frame8 := t.frame8, path := t.path, inMem := s.inMem, outMem := s.outMem,
        schedule := s.schedule, busData := s.busData, freeIdx := s.freeIdx } ∧
      (t.fmt ≠ .noFmt → t.frame24 = v.frame24 ∧ t.frame8 = v.frame8 ∧ t.path = v.path)

/-! ## Properties of the paths -/

/-- The D24 dictionary codes that reference slot `k`. -/
def References24 (i : Instr) (k : Nat) : Prop :=
  (∃ c f, i = .drefs c f ∧ f.toNat = k) ∨ (∃ f x p, i = .drefl f x p ∧ p.toNat = k) ∨
  (∃ p n, i = .drefx p n ∧ p.toNat = k)

/-- 42_decode24 R171: a reference to slot k and then one to slot 0, by any of the dictionary codes, both yield what slot k
held before the first: all the bytes the two write are that pixel, and it is at slot 0 after each. -/
def Obligations.MoveToFrontTwiceOnD24 : Prop :=
  ∀ (s t u : State) (i j : Instr) (k : Nat) (hk : k < 128), References24 i k → References24 j 0 →
    s.Inv → exec i s = .next t → t.engine = .busy → exec j t = .next u → u.result ≠ .truncated →
    (∀ a, s.outPtr.toNat ≤ a → a < u.outPtr.toNat →
      u.outMem.read a = s.frame24[k].extractLsb' (8 * ((a - s.outPtr.toNat) % 3)) 8) ∧
    t.frame24[0] = s.frame24[k] ∧ u.frame24[0] = s.frame24[k]

/-- The D8 dictionary codes that reference slot `k`: `hi - 1` or `sel - 1`, with `sel = 0` fixed to slot 0. -/
def References8 (i : Instr) (k : Nat) : Prop :=
  (∃ hi lo, i = .bref hi lo ∧ hi.toNat = k + 1) ∨ (∃ n sel q, i = .bref8 n sel q ∧ sel.toNat - 1 = k) ∨
  (∃ n sel q, i = .bref16 n sel q ∧ sel.toNat - 1 = k) ∨ (∃ n sel q, i = .bref32 n sel q ∧ sel.toNat - 1 = k)

/-- 43_decode8 R192: the same on D8. -/
def Obligations.MoveToFrontTwiceOnD8 : Prop :=
  ∀ (s t u : State) (i j : Instr) (k : Nat) (hk : k < 15), References8 i k → References8 j 0 →
    s.Inv → exec i s = .next t → t.engine = .busy → exec j t = .next u → u.result ≠ .truncated →
    (∀ a, s.outPtr.toNat ≤ a → a < u.outPtr.toNat → u.outMem.read a = s.frame8[k]) ∧
    t.frame8[0] = s.frame8[k] ∧ u.frame8[0] = s.frame8[k]

/-- 42_decode24 R170: a LITC with byte m ≥ 1 at CURSOR, with input for its literals: the m literals are copied from the
stream to the output, one per iteration, and PEND = 0 after them; with fewer pixels than m left, the decode ends DONE
after those, with PEND = m - REMAIN. That the engine moves at every step of an empty schedule is the model's choice of
log 1 (DESIGN CHOICE). -/
def Obligations.LiteralChainCopiesTheStream : Prop :=
  ∀ (s : State) (m : Byte), s.Inv → s.engine = .busy → s.path = .d24 → s.pend = 0 → s.schedule = [] →
    s.abortReq = false → s.inMem.read s.cursor.toNat = 0x01 → s.inMem.read (s.cursor.toNat + 1) = m → m ≠ 0 →
    s.cursor.toNat + 2 + 3 * min m.toNat s.remain.toNat ≤ s.inLen.toNat →
    ∃ t, Sys2Proof.core.run (min m.toNat s.remain.toNat) s = .next t ∧
      t.cursor.toNat = s.cursor.toNat + 2 + 3 * min m.toNat s.remain.toNat ∧
      t.remain.toNat = s.remain.toNat - m.toNat ∧ t.pend.toNat = m.toNat - s.remain.toNat ∧
      (∀ j, j < 3 * min m.toNat s.remain.toNat →
        t.outMem.read (s.outPtr.toNat + j) = s.inMem.read (s.cursor.toNat + 2 + j)) ∧
      (s.remain.toNat ≤ m.toNat → t.engine = .done ∧ t.result = .ok) ∧
      (m.toNat < s.remain.toNat → t.engine = .busy)

/-- 30_encoding R102: the redundant D24 encodings agree but for the bytes they consume. -/
def Obligations.RedundantEncodingsAgree : Prop :=
  ∀ (s t u : State) (i j : Instr),
    ((∃ f x p k, i = .drefx p k ∧ j = .drefl f x p ∧ k.toNat = 2 * f.toNat + x.toNat ∧ k ≠ 0) ∨
      (∃ c f f' x p, i = .drefl f' x p ∧ j = .drefs c f ∧ c.toNat = 2 * f'.toNat + x.toNat ∧ c ≠ 0 ∧
        p.toNat = f.toNat) ∨
      (∃ n k pix, i = .litx k pix ∧ j = .litr n pix ∧ k.toNat = n.toNat ∧ 2 ≤ n.toNat) ∨
      (∃ m pix, i = .litx 1 pix ∧ j = .litc m pix ∧ m.toNat ≤ 1)) →
    exec i s = .next t → exec j s = .next u → s.cursor.toNat + i.length ≤ s.inLen.toNat →
    u = { t with cursor := u.cursor }

/-! ## More of the host's accesses -/

/-- 10_state R23 to R34, R46: in every state, BUSY or not, the registers that always read current have these values. -/
def Obligations.RegisterValuesInEveryState : Prop :=
  ∀ (s : State) (off : BitVec 10), RegisterReads s off (regValue off.toNat s)

/-- 10_state R22, 20_memory R84: every register access that is not an aligned word is refused, and so is, while BUSY,
every host write to the input space and every host access to an output byte below NPIX * bpu. -/
def Obligations.IllegalHostMovesAreRefused : Prop :=
  ∀ (s : State) (rest : List Turn),
    (∀ (off : BitVec 10) (size : AccessSize), size ≠ .word ∨ off.toNat % 4 ≠ 0 →
      (s.schedule = .host (.readReg off size) :: rest → step s = .refused .registerAccess) ∧
      (∀ v, s.schedule = .host (.writeReg off size v) :: rest → step s = .refused .registerAccess)) ∧
    (s.engine = .busy → ∀ a : Word,
      (∀ b, s.schedule = .host (.writeInput a b) :: rest → step s = .refused .bufferOwnedByEngine) ∧
      (a.toNat < s.npix.toNat * bytesPerUnit s.path →
        (s.schedule = .host (.readOutput a) :: rest → step s = .refused .bufferOwnedByEngine) ∧
        (∀ b, s.schedule = .host (.writeOutput a b) :: rest → step s = .refused .bufferOwnedByEngine)))
end

