-- ==== Sys2Proof/Laws/Memory.lean ====
section
/-! SUPPORT. Laws of the byte spaces: read after write, frames, and the canonical form. -/

namespace Sys2Proof.Machine

theorem Memory.wfFrom_weaken {m : Memory} {lo lo' : Nat} (h : Memory.wfFrom lo m = true) (hl : lo' ≤ lo) :
    Memory.wfFrom lo' m = true := by
  cases m with
  | nil => rfl
  | cons p t =>
    simp only [Memory.wfFrom, Bool.and_eq_true, decide_eq_true_eq] at h ⊢
    exact ⟨⟨⟨by omega, h.1.1.2⟩, h.1.2⟩, h.2⟩

/-- Below a canonical list's first offset nothing is listed. -/
theorem Memory.read_below {m : Memory} {lo a : Nat} (h : Memory.wfFrom lo m = true) (ha : a < lo) :
    m.read a = unwritten := by
  induction m generalizing lo with
  | nil => rfl
  | cons p t ih =>
    simp only [Memory.wfFrom, Bool.and_eq_true, decide_eq_true_eq] at h
    rw [Memory.read, if_neg (by omega)]
    exact ih h.2 (by omega)

theorem Memory.read_write_other (m : Memory) {a a' : Nat} (v : Byte) (h : a' ≠ a) :
    (m.write a v).read a' = m.read a' := by
  induction m with
  | nil =>
    simp only [Memory.write]
    split <;> simp [Memory.read, Ne.symm h]
  | cons p t ih =>
    simp only [Memory.write]
    split
    · split <;> simp [Memory.read, Ne.symm h]
    · split
      · rename_i hk
        split <;> simp [Memory.read, ← hk, Ne.symm h]
      · simp [Memory.read, ih]

theorem Memory.read_write_same_from {m : Memory} {lo : Nat} (a : Nat) (v : Byte) (h : Memory.wfFrom lo m = true) :
    (m.write a v).read a = v := by
  induction m generalizing lo with
  | nil =>
    simp only [Memory.write]
    split
    · simp [Memory.read, *]
    · simp [Memory.read]
  | cons p t ih =>
    have hw := h
    simp only [Memory.wfFrom, Bool.and_eq_true, decide_eq_true_eq] at h
    simp only [Memory.write]
    split
    · rename_i hlt
      split
      · rename_i hv
        rw [hv, Memory.read, if_neg (by omega)]
        exact Memory.read_below h.2 (by omega)
      · simp [Memory.read]
    · split
      · rename_i heq
        split
        · rename_i hv
          rw [hv]
          exact Memory.read_below h.2 (by omega)
        · simp [Memory.read]
      · rename_i hne
        rw [Memory.read, if_neg (by omega)]
        exact ih h.2

/-- Read after write, in a canonical space. -/
theorem Memory.read_write_same {m : Memory} (a : Nat) (v : Byte) (h : m.wf = true) : (m.write a v).read a = v :=
  Memory.read_write_same_from a v h

theorem Memory.wfFrom_write {m : Memory} {lo a : Nat} (v : Byte) (h : Memory.wfFrom lo m = true) (hlo : lo ≤ a)
    (ha : a < 2 ^ 32) : Memory.wfFrom lo (m.write a v) = true := by
  induction m generalizing lo with
  | nil =>
    simp only [Memory.write]
    split
    · rfl
    · simp_all [Memory.wfFrom]
  | cons p t ih =>
    simp only [Memory.wfFrom, Bool.and_eq_true, decide_eq_true_eq] at h
    simp only [Memory.write]
    split
    · split
      · simp only [Memory.wfFrom, Bool.and_eq_true, decide_eq_true_eq]
        exact h
      · simp only [Memory.wfFrom, Bool.and_eq_true, decide_eq_true_eq, bne_iff_ne]
        exact ⟨⟨⟨hlo, ha⟩, by assumption⟩, ⟨⟨by omega, h.1.1.2⟩, by simpa using h.1.2⟩, h.2⟩
    · split
      · split
        · exact Memory.wfFrom_weaken h.2 (by omega)
        · rename_i heq hv
          simp only [Memory.wfFrom, Bool.and_eq_true, decide_eq_true_eq, bne_iff_ne]
          exact ⟨⟨⟨hlo, ha⟩, hv⟩, heq ▸ h.2⟩
      · simp only [Memory.wfFrom, Bool.and_eq_true, decide_eq_true_eq]
        exact ⟨h.1, ih h.2 (by omega)⟩

/-- A write keeps the canonical form. -/
theorem Memory.wf_write {m : Memory} {a : Nat} (v : Byte) (h : m.wf = true) (ha : a < 2 ^ 32) :
    (m.write a v).wf = true :=
  Memory.wfFrom_write v h (Nat.zero_le a) ha

theorem Memory.wf_writeBytes {m : Memory} {a : Nat} (bs : List Byte) (h : m.wf = true) (ha : a + bs.length ≤ 2 ^ 32) :
    (m.writeBytes a bs).wf = true := by
  induction bs generalizing m a with
  | nil => exact h
  | cons b bs ih =>
    simp only [List.length_cons] at ha
    exact ih (Memory.wf_write b h (by omega)) (by omega)

/-- The run of Emit keeps the canonical form. -/
theorem Memory.wf_writeRun {m : Memory} {a n : Nat} (unit : List Byte) (h : m.wf = true)
    (ha : a + n * unit.length ≤ 2 ^ 32) : (m.writeRun a unit n).wf = true := by
  induction n generalizing m a with
  | zero => exact h
  | succ n ih =>
    rw [Nat.succ_mul] at ha
    exact ih (Memory.wf_writeBytes unit h (by omega)) (by omega)

theorem Memory.wf_freeBelow {m : Memory} (idx : Nat) {n : Nat} (h : m.wf = true) (hn : n ≤ 2 ^ 32) :
    (freeBelow idx m n).wf = true := by
  induction n with
  | zero => exact h
  | succ n ih => exact Memory.wf_write _ (ih (by omega)) (by omega)

theorem Memory.read_writeBytes_outside (m : Memory) {a x : Nat} (bs : List Byte) (h : x < a ∨ a + bs.length ≤ x) :
    (m.writeBytes a bs).read x = m.read x := by
  induction bs generalizing m a with
  | nil => rfl
  | cons b bs ih =>
    simp only [List.length_cons] at h
    rw [Memory.writeBytes, ih _ (by omega), Memory.read_write_other _ _ (by omega)]

theorem Memory.read_writeBytes_inside {m : Memory} {a j : Nat} {bs : List Byte} (h : m.wf = true)
    (ha : a + bs.length ≤ 2 ^ 32) (hj : j < bs.length) : (m.writeBytes a bs).read (a + j) = bs[j] := by
  induction bs generalizing m a j with
  | nil => simp at hj
  | cons b bs ih =>
    simp only [List.length_cons] at ha hj
    rw [Memory.writeBytes]
    cases j with
    | zero =>
      rw [Memory.read_writeBytes_outside _ _ (by omega)]
      simpa using Memory.read_write_same a b h
    | succ j =>
      have := ih (m := m.write a b) (a := a + 1) (j := j) (Memory.wf_write b h (by omega)) (by omega) (by omega)
      rw [show a + (j + 1) = a + 1 + j by omega]
      simpa using this

/-- What Emit leaves of the bytes outside its run. -/
theorem Memory.read_writeRun_outside (m : Memory) {a x n : Nat} (unit : List Byte)
    (h : x < a ∨ a + n * unit.length ≤ x) : (m.writeRun a unit n).read x = m.read x := by
  induction n generalizing m a with
  | zero => rfl
  | succ n ih =>
    rw [Nat.succ_mul] at h
    rw [Memory.writeRun, ih _ (by omega), Memory.read_writeBytes_outside _ _ (by omega)]

/-- What Emit puts inside its run: the unit, over and over. -/
theorem Memory.read_writeRun_inside {m : Memory} {a j n : Nat} {unit : List Byte} (h : m.wf = true)
    (ha : a + n * unit.length ≤ 2 ^ 32) (hj : j < n * unit.length) :
    (m.writeRun a unit n).read (a + j) = unit[j % unit.length]'(Nat.mod_lt _ (by
      rcases Nat.eq_zero_or_pos unit.length with h0 | h0
      · simp [h0] at hj
      · exact h0)) := by
  induction n generalizing m a j with
  | zero => simp at hj
  | succ n ih =>
    rw [Nat.succ_mul] at ha hj
    have hw := Memory.wf_writeBytes (m := m) (a := a) unit h (by omega)
    rw [Memory.writeRun]
    by_cases hlt : j < unit.length
    · rw [Memory.read_writeRun_outside _ _ (by omega), Memory.read_writeBytes_inside h (by omega) hlt]
      simp [Nat.mod_eq_of_lt hlt]
    · have := ih (a := a + unit.length) (j := j - unit.length) hw (by omega) (by omega)
      rw [show a + j = a + unit.length + (j - unit.length) by omega, this]
      congr 1
      exact (Nat.mod_eq_sub_mod (by omega)).symm

theorem read_freeBelow_above (idx : Nat) (m : Memory) {n a : Nat} (h : n ≤ a) :
    (freeBelow idx m n).read a = m.read a := by
  induction n with
  | zero => rfl
  | succ n ih => rw [freeBelow, Memory.read_write_other _ _ (by omega), ih (by omega)]

@[simp] theorem Memory.length_readBytes (m : Memory) (a n : Nat) : (m.readBytes a n).length = n := by
  induction n generalizing a with
  | zero => rfl
  | succ n ih => simp [Memory.readBytes, ih]

theorem Memory.getElem_readBytes (m : Memory) {a n j : Nat} (h : j < n) :
    (m.readBytes a n)[j]'(by simpa using h) = m.read (a + j) := by
  induction n generalizing a j with
  | zero => omega
  | succ n ih =>
    cases j with
    | zero => simp [Memory.readBytes]
    | succ j => simp [Memory.readBytes, ih (a := a + 1) (j := j) (by omega), Nat.add_assoc, Nat.add_comm 1]

end Sys2Proof.Machine
end

