-- ==== Sys2Proof/Laws/State.lean ====
section
/-! SUPPORT. What each update of the state does to each field: one lemma per field per update, true by rfl. -/

namespace Sys2Proof.Machine

section
variable (s : State) (e : EngineState) (r : ResultCode)
@[simp] theorem endDecode_ctrlOp : (endDecode e r s).ctrlOp = s.ctrlOp := rfl
@[simp] theorem endDecode_ctrlHdr : (endDecode e r s).ctrlHdr = s.ctrlHdr := rfl
@[simp] theorem endDecode_ctrlIe : (endDecode e r s).ctrlIe = s.ctrlIe := rfl
@[simp] theorem endDecode_engine : (endDecode e r s).engine = e := rfl
@[simp] theorem endDecode_result : (endDecode e r s).result = r := rfl
@[simp] theorem endDecode_irqPend : (endDecode e r s).irqPend = true := rfl
@[simp] theorem endDecode_clamp : (endDecode e r s).clamp = s.clamp := rfl
@[simp] theorem endDecode_zrun : (endDecode e r s).zrun = s.zrun := rfl
@[simp] theorem endDecode_posfix : (endDecode e r s).posfix = s.posfix := rfl
@[simp] theorem endDecode_width : (endDecode e r s).width = s.width := rfl
@[simp] theorem endDecode_height : (endDecode e r s).height = s.height := rfl
@[simp] theorem endDecode_depth : (endDecode e r s).depth = s.depth := rfl
@[simp] theorem endDecode_inLen : (endDecode e r s).inLen = s.inLen := rfl
@[simp] theorem endDecode_outCap : (endDecode e r s).outCap = s.outCap := rfl
@[simp] theorem endDecode_fmt : (endDecode e r s).fmt = s.fmt := rfl
@[simp] theorem endDecode_stride : (endDecode e r s).stride = s.stride := rfl
@[simp] theorem endDecode_npix : (endDecode e r s).npix = s.npix := rfl
@[simp] theorem endDecode_remain : (endDecode e r s).remain = s.remain := rfl
@[simp] theorem endDecode_cursor : (endDecode e r s).cursor = s.cursor := rfl
@[simp] theorem endDecode_outPtr : (endDecode e r s).outPtr = s.outPtr := rfl
@[simp] theorem endDecode_pend : (endDecode e r s).pend = s.pend := rfl
@[simp] theorem endDecode_errOff : (endDecode e r s).errOff = s.errOff := rfl
@[simp] theorem endDecode_frame24 : (endDecode e r s).frame24 = s.frame24 := rfl
@[simp] theorem endDecode_frame8 : (endDecode e r s).frame8 = s.frame8 := rfl
@[simp] theorem endDecode_path : (endDecode e r s).path = s.path := rfl
@[simp] theorem endDecode_abortReq : (endDecode e r s).abortReq = false := rfl
@[simp] theorem endDecode_inMem : (endDecode e r s).inMem = s.inMem := rfl
@[simp] theorem endDecode_outMem : (endDecode e r s).outMem = s.outMem := rfl
@[simp] theorem endDecode_schedule : (endDecode e r s).schedule = s.schedule := rfl
@[simp] theorem endDecode_busData : (endDecode e r s).busData = s.busData := rfl
@[simp] theorem endDecode_freeIdx : (endDecode e r s).freeIdx = s.freeIdx := rfl
end

section
variable (s : State) (off : Nat)
@[simp] theorem truncated_ctrlOp : (truncated off s).ctrlOp = s.ctrlOp := rfl
@[simp] theorem truncated_ctrlHdr : (truncated off s).ctrlHdr = s.ctrlHdr := rfl
@[simp] theorem truncated_ctrlIe : (truncated off s).ctrlIe = s.ctrlIe := rfl
@[simp] theorem truncated_engine : (truncated off s).engine = .fail := rfl
@[simp] theorem truncated_result : (truncated off s).result = .truncated := rfl
@[simp] theorem truncated_irqPend : (truncated off s).irqPend = true := rfl
@[simp] theorem truncated_clamp : (truncated off s).clamp = s.clamp := rfl
@[simp] theorem truncated_zrun : (truncated off s).zrun = s.zrun := rfl
@[simp] theorem truncated_posfix : (truncated off s).posfix = s.posfix := rfl
@[simp] theorem truncated_width : (truncated off s).width = s.width := rfl
@[simp] theorem truncated_height : (truncated off s).height = s.height := rfl
@[simp] theorem truncated_depth : (truncated off s).depth = s.depth := rfl
@[simp] theorem truncated_inLen : (truncated off s).inLen = s.inLen := rfl
@[simp] theorem truncated_outCap : (truncated off s).outCap = s.outCap := rfl
@[simp] theorem truncated_fmt : (truncated off s).fmt = s.fmt := rfl
@[simp] theorem truncated_stride : (truncated off s).stride = s.stride := rfl
@[simp] theorem truncated_npix : (truncated off s).npix = s.npix := rfl
@[simp] theorem truncated_remain : (truncated off s).remain = s.remain := rfl
@[simp] theorem truncated_cursor : (truncated off s).cursor = s.cursor := rfl
@[simp] theorem truncated_outPtr : (truncated off s).outPtr = s.outPtr := rfl
@[simp] theorem truncated_pend : (truncated off s).pend = s.pend := rfl
@[simp] theorem truncated_errOff : (truncated off s).errOff = BitVec.ofNat 32 off := rfl
@[simp] theorem truncated_frame24 : (truncated off s).frame24 = s.frame24 := rfl
@[simp] theorem truncated_frame8 : (truncated off s).frame8 = s.frame8 := rfl
@[simp] theorem truncated_path : (truncated off s).path = s.path := rfl
@[simp] theorem truncated_abortReq : (truncated off s).abortReq = false := rfl
@[simp] theorem truncated_inMem : (truncated off s).inMem = s.inMem := rfl
@[simp] theorem truncated_outMem : (truncated off s).outMem = s.outMem := rfl
@[simp] theorem truncated_schedule : (truncated off s).schedule = s.schedule := rfl
@[simp] theorem truncated_busData : (truncated off s).busData = s.busData := rfl
@[simp] theorem truncated_freeIdx : (truncated off s).freeIdx = s.freeIdx := rfl
end

section
variable (s : State)
@[simp] theorem abortStep_ctrlOp : (abortStep s).ctrlOp = s.ctrlOp := rfl
@[simp] theorem abortStep_ctrlHdr : (abortStep s).ctrlHdr = s.ctrlHdr := rfl
@[simp] theorem abortStep_ctrlIe : (abortStep s).ctrlIe = s.ctrlIe := rfl
@[simp] theorem abortStep_engine : (abortStep s).engine = .fail := rfl
@[simp] theorem abortStep_result : (abortStep s).result = .aborted := rfl
@[simp] theorem abortStep_irqPend : (abortStep s).irqPend = true := rfl
@[simp] theorem abortStep_clamp : (abortStep s).clamp = s.clamp := rfl
@[simp] theorem abortStep_zrun : (abortStep s).zrun = s.zrun := rfl
@[simp] theorem abortStep_posfix : (abortStep s).posfix = s.posfix := rfl
@[simp] theorem abortStep_width : (abortStep s).width = s.width := rfl
@[simp] theorem abortStep_height : (abortStep s).height = s.height := rfl
@[simp] theorem abortStep_depth : (abortStep s).depth = s.depth := rfl
@[simp] theorem abortStep_inLen : (abortStep s).inLen = s.inLen := rfl
@[simp] theorem abortStep_outCap : (abortStep s).outCap = s.outCap := rfl
@[simp] theorem abortStep_fmt : (abortStep s).fmt = s.fmt := rfl
@[simp] theorem abortStep_stride : (abortStep s).stride = s.stride := rfl
@[simp] theorem abortStep_npix : (abortStep s).npix = s.npix := rfl
@[simp] theorem abortStep_remain : (abortStep s).remain = s.remain := rfl
@[simp] theorem abortStep_cursor : (abortStep s).cursor = s.cursor := rfl
@[simp] theorem abortStep_outPtr : (abortStep s).outPtr = s.outPtr := rfl
@[simp] theorem abortStep_pend : (abortStep s).pend = s.pend := rfl
@[simp] theorem abortStep_errOff : (abortStep s).errOff = s.errOff := rfl
@[simp] theorem abortStep_frame24 : (abortStep s).frame24 = s.frame24 := rfl
@[simp] theorem abortStep_frame8 : (abortStep s).frame8 = s.frame8 := rfl
@[simp] theorem abortStep_path : (abortStep s).path = s.path := rfl
@[simp] theorem abortStep_abortReq : (abortStep s).abortReq = false := rfl
@[simp] theorem abortStep_inMem : (abortStep s).inMem = s.inMem := rfl
@[simp] theorem abortStep_outMem : (abortStep s).outMem = s.outMem := rfl
@[simp] theorem abortStep_schedule : (abortStep s).schedule = s.schedule := rfl
@[simp] theorem abortStep_busData : (abortStep s).busData = s.busData := rfl
@[simp] theorem abortStep_freeIdx : (abortStep s).freeIdx = s.freeIdx := rfl
end

section
variable (s : State) (n : Nat)
@[simp] theorem advance_ctrlOp : (advance n s).ctrlOp = s.ctrlOp := rfl
@[simp] theorem advance_ctrlHdr : (advance n s).ctrlHdr = s.ctrlHdr := rfl
@[simp] theorem advance_ctrlIe : (advance n s).ctrlIe = s.ctrlIe := rfl
@[simp] theorem advance_engine : (advance n s).engine = s.engine := rfl
@[simp] theorem advance_result : (advance n s).result = s.result := rfl
@[simp] theorem advance_irqPend : (advance n s).irqPend = s.irqPend := rfl
@[simp] theorem advance_clamp : (advance n s).clamp = s.clamp := rfl
@[simp] theorem advance_zrun : (advance n s).zrun = s.zrun := rfl
@[simp] theorem advance_posfix : (advance n s).posfix = s.posfix := rfl
@[simp] theorem advance_width : (advance n s).width = s.width := rfl
@[simp] theorem advance_height : (advance n s).height = s.height := rfl
@[simp] theorem advance_depth : (advance n s).depth = s.depth := rfl
@[simp] theorem advance_inLen : (advance n s).inLen = s.inLen := rfl
@[simp] theorem advance_outCap : (advance n s).outCap = s.outCap := rfl
@[simp] theorem advance_fmt : (advance n s).fmt = s.fmt := rfl
@[simp] theorem advance_stride : (advance n s).stride = s.stride := rfl
@[simp] theorem advance_npix : (advance n s).npix = s.npix := rfl
@[simp] theorem advance_remain : (advance n s).remain = s.remain := rfl
@[simp] theorem advance_cursor : (advance n s).cursor = BitVec.ofNat 32 (s.cursor.toNat + n) := rfl
@[simp] theorem advance_outPtr : (advance n s).outPtr = s.outPtr := rfl
@[simp] theorem advance_pend : (advance n s).pend = s.pend := rfl
@[simp] theorem advance_errOff : (advance n s).errOff = s.errOff := rfl
@[simp] theorem advance_frame24 : (advance n s).frame24 = s.frame24 := rfl
@[simp] theorem advance_frame8 : (advance n s).frame8 = s.frame8 := rfl
@[simp] theorem advance_path : (advance n s).path = s.path := rfl
@[simp] theorem advance_abortReq : (advance n s).abortReq = s.abortReq := rfl
@[simp] theorem advance_inMem : (advance n s).inMem = s.inMem := rfl
@[simp] theorem advance_outMem : (advance n s).outMem = s.outMem := rfl
@[simp] theorem advance_schedule : (advance n s).schedule = s.schedule := rfl
@[simp] theorem advance_busData : (advance n s).busData = s.busData := rfl
@[simp] theorem advance_freeIdx : (advance n s).freeIdx = s.freeIdx := rfl
end

section
variable (s : State) (cnt : Int) (unit : List Byte)
@[simp] theorem emit_ctrlOp : (emit cnt unit s).ctrlOp = s.ctrlOp := rfl
@[simp] theorem emit_ctrlHdr : (emit cnt unit s).ctrlHdr = s.ctrlHdr := rfl
@[simp] theorem emit_ctrlIe : (emit cnt unit s).ctrlIe = s.ctrlIe := rfl
@[simp] theorem emit_engine : (emit cnt unit s).engine = s.engine := rfl
@[simp] theorem emit_result : (emit cnt unit s).result = s.result := rfl
@[simp] theorem emit_irqPend : (emit cnt unit s).irqPend = s.irqPend := rfl
@[simp] theorem emit_clamp : (emit cnt unit s).clamp = clampAfter cnt s := rfl
@[simp] theorem emit_zrun : (emit cnt unit s).zrun = zrunAfter cnt s := rfl
@[simp] theorem emit_posfix : (emit cnt unit s).posfix = s.posfix := rfl
@[simp] theorem emit_width : (emit cnt unit s).width = s.width := rfl
@[simp] theorem emit_height : (emit cnt unit s).height = s.height := rfl
@[simp] theorem emit_depth : (emit cnt unit s).depth = s.depth := rfl
@[simp] theorem emit_inLen : (emit cnt unit s).inLen = s.inLen := rfl
@[simp] theorem emit_outCap : (emit cnt unit s).outCap = s.outCap := rfl
@[simp] theorem emit_fmt : (emit cnt unit s).fmt = s.fmt := rfl
@[simp] theorem emit_stride : (emit cnt unit s).stride = s.stride := rfl
@[simp] theorem emit_npix : (emit cnt unit s).npix = s.npix := rfl
@[simp] theorem emit_remain : (emit cnt unit s).remain = BitVec.ofNat 32 (s.remain.toNat - runLength cnt s.remain.toNat) := rfl
@[simp] theorem emit_cursor : (emit cnt unit s).cursor = s.cursor := rfl
@[simp] theorem emit_outPtr : (emit cnt unit s).outPtr = BitVec.ofNat 32 (s.outPtr.toNat + runLength cnt s.remain.toNat * unit.length) := rfl
@[simp] theorem emit_pend : (emit cnt unit s).pend = s.pend := rfl
@[simp] theorem emit_errOff : (emit cnt unit s).errOff = s.errOff := rfl
@[simp] theorem emit_frame24 : (emit cnt unit s).frame24 = s.frame24 := rfl
@[simp] theorem emit_frame8 : (emit cnt unit s).frame8 = s.frame8 := rfl
@[simp] theorem emit_path : (emit cnt unit s).path = s.path := rfl
@[simp] theorem emit_abortReq : (emit cnt unit s).abortReq = s.abortReq := rfl
@[simp] theorem emit_inMem : (emit cnt unit s).inMem = s.inMem := rfl
@[simp] theorem emit_outMem : (emit cnt unit s).outMem = s.outMem.writeRun s.outPtr.toNat unit (runLength cnt s.remain.toNat) := rfl
@[simp] theorem emit_schedule : (emit cnt unit s).schedule = s.schedule := rfl
@[simp] theorem emit_busData : (emit cnt unit s).busData = s.busData := rfl
@[simp] theorem emit_freeIdx : (emit cnt unit s).freeIdx = s.freeIdx := rfl
end

section
variable (s : State) (pos : Fin Config.k24) (pix : Pixel)
@[simp] theorem mtf24_ctrlOp : (mtf24 pos pix s).ctrlOp = s.ctrlOp := rfl
@[simp] theorem mtf24_ctrlHdr : (mtf24 pos pix s).ctrlHdr = s.ctrlHdr := rfl
@[simp] theorem mtf24_ctrlIe : (mtf24 pos pix s).ctrlIe = s.ctrlIe := rfl
@[simp] theorem mtf24_engine : (mtf24 pos pix s).engine = s.engine := rfl
@[simp] theorem mtf24_result : (mtf24 pos pix s).result = s.result := rfl
@[simp] theorem mtf24_irqPend : (mtf24 pos pix s).irqPend = s.irqPend := rfl
@[simp] theorem mtf24_clamp : (mtf24 pos pix s).clamp = s.clamp := rfl
@[simp] theorem mtf24_zrun : (mtf24 pos pix s).zrun = s.zrun := rfl
@[simp] theorem mtf24_posfix : (mtf24 pos pix s).posfix = s.posfix := rfl
@[simp] theorem mtf24_width : (mtf24 pos pix s).width = s.width := rfl
@[simp] theorem mtf24_height : (mtf24 pos pix s).height = s.height := rfl
@[simp] theorem mtf24_depth : (mtf24 pos pix s).depth = s.depth := rfl
@[simp] theorem mtf24_inLen : (mtf24 pos pix s).inLen = s.inLen := rfl
@[simp] theorem mtf24_outCap : (mtf24 pos pix s).outCap = s.outCap := rfl
@[simp] theorem mtf24_fmt : (mtf24 pos pix s).fmt = s.fmt := rfl
@[simp] theorem mtf24_stride : (mtf24 pos pix s).stride = s.stride := rfl
@[simp] theorem mtf24_npix : (mtf24 pos pix s).npix = s.npix := rfl
@[simp] theorem mtf24_remain : (mtf24 pos pix s).remain = s.remain := rfl
@[simp] theorem mtf24_cursor : (mtf24 pos pix s).cursor = s.cursor := rfl
@[simp] theorem mtf24_outPtr : (mtf24 pos pix s).outPtr = s.outPtr := rfl
@[simp] theorem mtf24_pend : (mtf24 pos pix s).pend = s.pend := rfl
@[simp] theorem mtf24_errOff : (mtf24 pos pix s).errOff = s.errOff := rfl
@[simp] theorem mtf24_frame24 : (mtf24 pos pix s).frame24 = mtf pos pix s.frame24 := rfl
@[simp] theorem mtf24_frame8 : (mtf24 pos pix s).frame8 = s.frame8 := rfl
@[simp] theorem mtf24_path : (mtf24 pos pix s).path = s.path := rfl
@[simp] theorem mtf24_abortReq : (mtf24 pos pix s).abortReq = s.abortReq := rfl
@[simp] theorem mtf24_inMem : (mtf24 pos pix s).inMem = s.inMem := rfl
@[simp] theorem mtf24_outMem : (mtf24 pos pix s).outMem = s.outMem := rfl
@[simp] theorem mtf24_schedule : (mtf24 pos pix s).schedule = s.schedule := rfl
@[simp] theorem mtf24_busData : (mtf24 pos pix s).busData = s.busData := rfl
@[simp] theorem mtf24_freeIdx : (mtf24 pos pix s).freeIdx = s.freeIdx := rfl
end

section
variable (s : State) (pos : Fin Config.k8) (pix : Byte)
@[simp] theorem mtf8_ctrlOp : (mtf8 pos pix s).ctrlOp = s.ctrlOp := rfl
@[simp] theorem mtf8_ctrlHdr : (mtf8 pos pix s).ctrlHdr = s.ctrlHdr := rfl
@[simp] theorem mtf8_ctrlIe : (mtf8 pos pix s).ctrlIe = s.ctrlIe := rfl
@[simp] theorem mtf8_engine : (mtf8 pos pix s).engine = s.engine := rfl
@[simp] theorem mtf8_result : (mtf8 pos pix s).result = s.result := rfl
@[simp] theorem mtf8_irqPend : (mtf8 pos pix s).irqPend = s.irqPend := rfl
@[simp] theorem mtf8_clamp : (mtf8 pos pix s).clamp = s.clamp := rfl
@[simp] theorem mtf8_zrun : (mtf8 pos pix s).zrun = s.zrun := rfl
@[simp] theorem mtf8_posfix : (mtf8 pos pix s).posfix = s.posfix := rfl
@[simp] theorem mtf8_width : (mtf8 pos pix s).width = s.width := rfl
@[simp] theorem mtf8_height : (mtf8 pos pix s).height = s.height := rfl
@[simp] theorem mtf8_depth : (mtf8 pos pix s).depth = s.depth := rfl
@[simp] theorem mtf8_inLen : (mtf8 pos pix s).inLen = s.inLen := rfl
@[simp] theorem mtf8_outCap : (mtf8 pos pix s).outCap = s.outCap := rfl
@[simp] theorem mtf8_fmt : (mtf8 pos pix s).fmt = s.fmt := rfl
@[simp] theorem mtf8_stride : (mtf8 pos pix s).stride = s.stride := rfl
@[simp] theorem mtf8_npix : (mtf8 pos pix s).npix = s.npix := rfl
@[simp] theorem mtf8_remain : (mtf8 pos pix s).remain = s.remain := rfl
@[simp] theorem mtf8_cursor : (mtf8 pos pix s).cursor = s.cursor := rfl
@[simp] theorem mtf8_outPtr : (mtf8 pos pix s).outPtr = s.outPtr := rfl
@[simp] theorem mtf8_pend : (mtf8 pos pix s).pend = s.pend := rfl
@[simp] theorem mtf8_errOff : (mtf8 pos pix s).errOff = s.errOff := rfl
@[simp] theorem mtf8_frame24 : (mtf8 pos pix s).frame24 = s.frame24 := rfl
@[simp] theorem mtf8_frame8 : (mtf8 pos pix s).frame8 = mtf pos pix s.frame8 := rfl
@[simp] theorem mtf8_path : (mtf8 pos pix s).path = s.path := rfl
@[simp] theorem mtf8_abortReq : (mtf8 pos pix s).abortReq = s.abortReq := rfl
@[simp] theorem mtf8_inMem : (mtf8 pos pix s).inMem = s.inMem := rfl
@[simp] theorem mtf8_outMem : (mtf8 pos pix s).outMem = s.outMem := rfl
@[simp] theorem mtf8_schedule : (mtf8 pos pix s).schedule = s.schedule := rfl
@[simp] theorem mtf8_busData : (mtf8 pos pix s).busData = s.busData := rfl
@[simp] theorem mtf8_freeIdx : (mtf8 pos pix s).freeIdx = s.freeIdx := rfl
end

section
variable (s : State)
@[simp] theorem clearForStart_ctrlOp : (clearForStart s).ctrlOp = s.ctrlOp := rfl
@[simp] theorem clearForStart_ctrlHdr : (clearForStart s).ctrlHdr = s.ctrlHdr := rfl
@[simp] theorem clearForStart_ctrlIe : (clearForStart s).ctrlIe = s.ctrlIe := rfl
@[simp] theorem clearForStart_engine : (clearForStart s).engine = .busy := rfl
@[simp] theorem clearForStart_result : (clearForStart s).result = .ok := rfl
@[simp] theorem clearForStart_irqPend : (clearForStart s).irqPend = false := rfl
@[simp] theorem clearForStart_clamp : (clearForStart s).clamp = false := rfl
@[simp] theorem clearForStart_zrun : (clearForStart s).zrun = false := rfl
@[simp] theorem clearForStart_posfix : (clearForStart s).posfix = false := rfl
@[simp] theorem clearForStart_width : (clearForStart s).width = s.width := rfl
@[simp] theorem clearForStart_height : (clearForStart s).height = s.height := rfl
@[simp] theorem clearForStart_depth : (clearForStart s).depth = s.depth := rfl
@[simp] theorem clearForStart_inLen : (clearForStart s).inLen = s.inLen := rfl
@[simp] theorem clearForStart_outCap : (clearForStart s).outCap = s.outCap := rfl
@[simp] theorem clearForStart_fmt : (clearForStart s).fmt = .noFmt := rfl
@[simp] theorem clearForStart_stride : (clearForStart s).stride = 0 := rfl
@[simp] theorem clearForStart_npix : (clearForStart s).npix = 0 := rfl
@[simp] theorem clearForStart_remain : (clearForStart s).remain = 0 := rfl
@[simp] theorem clearForStart_cursor : (clearForStart s).cursor = 0 := rfl
@[simp] theorem clearForStart_outPtr : (clearForStart s).outPtr = 0 := rfl
@[simp] theorem clearForStart_pend : (clearForStart s).pend = 0 := rfl
@[simp] theorem clearForStart_errOff : (clearForStart s).errOff = 0 := rfl
@[simp] theorem clearForStart_frame24 : (clearForStart s).frame24 = s.frame24 := rfl
@[simp] theorem clearForStart_frame8 : (clearForStart s).frame8 = s.frame8 := rfl
@[simp] theorem clearForStart_path : (clearForStart s).path = s.path := rfl
@[simp] theorem clearForStart_abortReq : (clearForStart s).abortReq = false := rfl
@[simp] theorem clearForStart_inMem : (clearForStart s).inMem = s.inMem := rfl
@[simp] theorem clearForStart_outMem : (clearForStart s).outMem = s.outMem := rfl
@[simp] theorem clearForStart_schedule : (clearForStart s).schedule = s.schedule := rfl
@[simp] theorem clearForStart_busData : (clearForStart s).busData = s.busData := rfl
@[simp] theorem clearForStart_freeIdx : (clearForStart s).freeIdx = s.freeIdx := rfl
end

section
variable (s : State)
@[simp] theorem readHeader_ctrlOp : (readHeader s).ctrlOp = s.ctrlOp := rfl
@[simp] theorem readHeader_ctrlHdr : (readHeader s).ctrlHdr = s.ctrlHdr := rfl
@[simp] theorem readHeader_ctrlIe : (readHeader s).ctrlIe = s.ctrlIe := rfl
@[simp] theorem readHeader_engine : (readHeader s).engine = s.engine := rfl
@[simp] theorem readHeader_result : (readHeader s).result = s.result := rfl
@[simp] theorem readHeader_irqPend : (readHeader s).irqPend = s.irqPend := rfl
@[simp] theorem readHeader_clamp : (readHeader s).clamp = s.clamp := rfl
@[simp] theorem readHeader_zrun : (readHeader s).zrun = s.zrun := rfl
@[simp] theorem readHeader_posfix : (readHeader s).posfix = s.posfix := rfl
@[simp] theorem readHeader_width : (readHeader s).width = le2 (s.inMem.read 8) (s.inMem.read 9) := rfl
@[simp] theorem readHeader_height : (readHeader s).height = le2 (s.inMem.read 10) (s.inMem.read 11) := rfl
@[simp] theorem readHeader_depth : (readHeader s).depth = s.inMem.read 12 := rfl
@[simp] theorem readHeader_inLen : (readHeader s).inLen = s.inLen := rfl
@[simp] theorem readHeader_outCap : (readHeader s).outCap = s.outCap := rfl
@[simp] theorem readHeader_fmt : (readHeader s).fmt = s.fmt := rfl
@[simp] theorem readHeader_stride : (readHeader s).stride = s.stride := rfl
@[simp] theorem readHeader_npix : (readHeader s).npix = s.npix := rfl
@[simp] theorem readHeader_remain : (readHeader s).remain = s.remain := rfl
@[simp] theorem readHeader_cursor : (readHeader s).cursor = 16 := rfl
@[simp] theorem readHeader_outPtr : (readHeader s).outPtr = s.outPtr := rfl
@[simp] theorem readHeader_pend : (readHeader s).pend = s.pend := rfl
@[simp] theorem readHeader_errOff : (readHeader s).errOff = s.errOff := rfl
@[simp] theorem readHeader_frame24 : (readHeader s).frame24 = s.frame24 := rfl
@[simp] theorem readHeader_frame8 : (readHeader s).frame8 = s.frame8 := rfl
@[simp] theorem readHeader_path : (readHeader s).path = s.path := rfl
@[simp] theorem readHeader_abortReq : (readHeader s).abortReq = s.abortReq := rfl
@[simp] theorem readHeader_inMem : (readHeader s).inMem = s.inMem := rfl
@[simp] theorem readHeader_outMem : (readHeader s).outMem = s.outMem := rfl
@[simp] theorem readHeader_schedule : (readHeader s).schedule = s.schedule := rfl
@[simp] theorem readHeader_busData : (readHeader s).busData = s.busData := rfl
@[simp] theorem readHeader_freeIdx : (readHeader s).freeIdx = s.freeIdx := rfl
end

section
variable (s : State)
@[simp] theorem sized_ctrlOp : (sized s).ctrlOp = s.ctrlOp := rfl
@[simp] theorem sized_ctrlHdr : (sized s).ctrlHdr = s.ctrlHdr := rfl
@[simp] theorem sized_ctrlIe : (sized s).ctrlIe = s.ctrlIe := rfl
@[simp] theorem sized_engine : (sized s).engine = s.engine := rfl
@[simp] theorem sized_result : (sized s).result = s.result := rfl
@[simp] theorem sized_irqPend : (sized s).irqPend = s.irqPend := rfl
@[simp] theorem sized_clamp : (sized s).clamp = s.clamp := rfl
@[simp] theorem sized_zrun : (sized s).zrun = s.zrun := rfl
@[simp] theorem sized_posfix : (sized s).posfix = s.posfix := rfl
@[simp] theorem sized_width : (sized s).width = s.width := rfl
@[simp] theorem sized_height : (sized s).height = s.height := rfl
@[simp] theorem sized_depth : (sized s).depth = s.depth := rfl
@[simp] theorem sized_inLen : (sized s).inLen = s.inLen := rfl
@[simp] theorem sized_outCap : (sized s).outCap = s.outCap := rfl
@[simp] theorem sized_fmt : (sized s).fmt = s.fmt := rfl
@[simp] theorem sized_stride : (sized s).stride = BitVec.ofNat 32 (strideOf s.width.toNat s.depth.toNat) := rfl
@[simp] theorem sized_npix : (sized s).npix = BitVec.ofNat 32 (unitsOf s.width.toNat s.height.toNat s.depth.toNat) := rfl
@[simp] theorem sized_remain : (sized s).remain = s.remain := rfl
@[simp] theorem sized_cursor : (sized s).cursor = s.cursor := rfl
@[simp] theorem sized_outPtr : (sized s).outPtr = s.outPtr := rfl
@[simp] theorem sized_pend : (sized s).pend = s.pend := rfl
@[simp] theorem sized_errOff : (sized s).errOff = s.errOff := rfl
@[simp] theorem sized_frame24 : (sized s).frame24 = s.frame24 := rfl
@[simp] theorem sized_frame8 : (sized s).frame8 = s.frame8 := rfl
@[simp] theorem sized_path : (sized s).path = s.path := rfl
@[simp] theorem sized_abortReq : (sized s).abortReq = s.abortReq := rfl
@[simp] theorem sized_inMem : (sized s).inMem = s.inMem := rfl
@[simp] theorem sized_outMem : (sized s).outMem = s.outMem := rfl
@[simp] theorem sized_schedule : (sized s).schedule = s.schedule := rfl
@[simp] theorem sized_busData : (sized s).busData = s.busData := rfl
@[simp] theorem sized_freeIdx : (sized s).freeIdx = s.freeIdx := rfl
end

section
variable (s : State)
@[simp] theorem dispatched_ctrlOp : (dispatched s).ctrlOp = s.ctrlOp := rfl
@[simp] theorem dispatched_ctrlHdr : (dispatched s).ctrlHdr = s.ctrlHdr := rfl
@[simp] theorem dispatched_ctrlIe : (dispatched s).ctrlIe = s.ctrlIe := rfl
@[simp] theorem dispatched_engine : (dispatched s).engine = s.engine := rfl
@[simp] theorem dispatched_result : (dispatched s).result = s.result := rfl
@[simp] theorem dispatched_irqPend : (dispatched s).irqPend = s.irqPend := rfl
@[simp] theorem dispatched_clamp : (dispatched s).clamp = s.clamp := rfl
@[simp] theorem dispatched_zrun : (dispatched s).zrun = s.zrun := rfl
@[simp] theorem dispatched_posfix : (dispatched s).posfix = s.posfix := rfl
@[simp] theorem dispatched_width : (dispatched s).width = s.width := rfl
@[simp] theorem dispatched_height : (dispatched s).height = s.height := rfl
@[simp] theorem dispatched_depth : (dispatched s).depth = s.depth := rfl
@[simp] theorem dispatched_inLen : (dispatched s).inLen = s.inLen := rfl
@[simp] theorem dispatched_outCap : (dispatched s).outCap = s.outCap := rfl
@[simp] theorem dispatched_fmt : (dispatched s).fmt = fmtOf s.depth := rfl
@[simp] theorem dispatched_stride : (dispatched s).stride = s.stride := rfl
@[simp] theorem dispatched_npix : (dispatched s).npix = s.npix := rfl
@[simp] theorem dispatched_remain : (dispatched s).remain = s.npix := rfl
@[simp] theorem dispatched_cursor : (dispatched s).cursor = s.cursor := rfl
@[simp] theorem dispatched_outPtr : (dispatched s).outPtr = s.outPtr := rfl
@[simp] theorem dispatched_pend : (dispatched s).pend = s.pend := rfl
@[simp] theorem dispatched_errOff : (dispatched s).errOff = s.errOff := rfl
@[simp] theorem dispatched_frame24 : (dispatched s).frame24 = frame24Init := rfl
@[simp] theorem dispatched_frame8 : (dispatched s).frame8 = frame8Init := rfl
@[simp] theorem dispatched_path : (dispatched s).path = pathOf s.depth := rfl
@[simp] theorem dispatched_abortReq : (dispatched s).abortReq = s.abortReq := rfl
@[simp] theorem dispatched_inMem : (dispatched s).inMem = s.inMem := rfl
@[simp] theorem dispatched_outMem : (dispatched s).outMem = s.outMem := rfl
@[simp] theorem dispatched_schedule : (dispatched s).schedule = s.schedule := rfl
@[simp] theorem dispatched_busData : (dispatched s).busData = s.busData := rfl
@[simp] theorem dispatched_freeIdx : (dispatched s).freeIdx = s.freeIdx := rfl
end

/-- Completion ends the decode or changes nothing (41_run_engine R148). -/
theorem complete_cases (s : State) :
    (s.remain = 0 ∧ complete s = endDecode .done .ok s) ∨ (s.remain ≠ 0 ∧ complete s = s) := by
  by_cases h : s.remain = 0
  · exact .inl ⟨h, if_pos h⟩
  · exact .inr ⟨h, if_neg h⟩

section
variable (s : State)
@[simp] theorem complete_ctrlOp : (complete s).ctrlOp = s.ctrlOp := by unfold complete; split <;> rfl
@[simp] theorem complete_ctrlHdr : (complete s).ctrlHdr = s.ctrlHdr := by unfold complete; split <;> rfl
@[simp] theorem complete_ctrlIe : (complete s).ctrlIe = s.ctrlIe := by unfold complete; split <;> rfl
@[simp] theorem complete_engine : (complete s).engine = if s.remain = 0 then .done else s.engine := by
  unfold complete; split <;> rfl
@[simp] theorem complete_result : (complete s).result = if s.remain = 0 then .ok else s.result := by
  unfold complete; split <;> rfl
@[simp] theorem complete_irqPend : (complete s).irqPend = if s.remain = 0 then true else s.irqPend := by
  unfold complete; split <;> rfl
@[simp] theorem complete_clamp : (complete s).clamp = s.clamp := by unfold complete; split <;> rfl
@[simp] theorem complete_zrun : (complete s).zrun = s.zrun := by unfold complete; split <;> rfl
@[simp] theorem complete_posfix : (complete s).posfix = s.posfix := by unfold complete; split <;> rfl
@[simp] theorem complete_width : (complete s).width = s.width := by unfold complete; split <;> rfl
@[simp] theorem complete_height : (complete s).height = s.height := by unfold complete; split <;> rfl
@[simp] theorem complete_depth : (complete s).depth = s.depth := by unfold complete; split <;> rfl
@[simp] theorem complete_inLen : (complete s).inLen = s.inLen := by unfold complete; split <;> rfl
@[simp] theorem complete_outCap : (complete s).outCap = s.outCap := by unfold complete; split <;> rfl
@[simp] theorem complete_fmt : (complete s).fmt = s.fmt := by unfold complete; split <;> rfl
@[simp] theorem complete_stride : (complete s).stride = s.stride := by unfold complete; split <;> rfl
@[simp] theorem complete_npix : (complete s).npix = s.npix := by unfold complete; split <;> rfl
@[simp] theorem complete_remain : (complete s).remain = s.remain := by unfold complete; split <;> rfl
@[simp] theorem complete_cursor : (complete s).cursor = s.cursor := by unfold complete; split <;> rfl
@[simp] theorem complete_outPtr : (complete s).outPtr = s.outPtr := by unfold complete; split <;> rfl
@[simp] theorem complete_pend : (complete s).pend = s.pend := by unfold complete; split <;> rfl
@[simp] theorem complete_errOff : (complete s).errOff = s.errOff := by unfold complete; split <;> rfl
@[simp] theorem complete_frame24 : (complete s).frame24 = s.frame24 := by unfold complete; split <;> rfl
@[simp] theorem complete_frame8 : (complete s).frame8 = s.frame8 := by unfold complete; split <;> rfl
@[simp] theorem complete_path : (complete s).path = s.path := by unfold complete; split <;> rfl
@[simp] theorem complete_abortReq : (complete s).abortReq = if s.remain = 0 then false else s.abortReq := by
  unfold complete; split <;> rfl
@[simp] theorem complete_inMem : (complete s).inMem = s.inMem := by unfold complete; split <;> rfl
@[simp] theorem complete_outMem : (complete s).outMem = s.outMem := by unfold complete; split <;> rfl
@[simp] theorem complete_schedule : (complete s).schedule = s.schedule := by unfold complete; split <;> rfl
@[simp] theorem complete_busData : (complete s).busData = s.busData := by unfold complete; split <;> rfl
@[simp] theorem complete_freeIdx : (complete s).freeIdx = s.freeIdx := by unfold complete; split <;> rfl
end

end Sys2Proof.Machine
end

