-- ==== Sys2Proof/Laws/Ops.lean ====
section
/-! SUPPORT. For each shared operation, one lemma that says all it can do. -/

namespace Sys2Proof.Machine

/-! Counts -/

theorem runLength_le (cnt : Int) (r : Nat) : runLength cnt r ≤ r := by
  unfold runLength
  omega

theorem runLength_int (cnt : Int) (r : Nat) : (runLength cnt r : Int) = min (max cnt 0) r := by
  unfold runLength
  omega

/-- The run as Emit's flags see it: empty exactly for a count of 0 or less, unless nothing remains. -/
theorem runLength_eq_zero_iff (cnt : Int) (r : Nat) : runLength cnt r = 0 ↔ cnt ≤ 0 ∨ r = 0 := by
  unfold runLength
  omega

/-! Stream reads -/

theorem firstShort_none {len cur : Nat} {ns : List Nat} (h : cur + ns.sum ≤ len) : firstShort len cur ns = none := by
  induction ns generalizing cur with
  | nil => rfl
  | cons n ns ih =>
    simp only [List.sum_cons] at h
    rw [firstShort, if_neg (by omega)]
    exact ih (by omega)

theorem fits_of_firstShort_none {len cur : Nat} {ns : List Nat} (hc : cur ≤ len) (h : firstShort len cur ns = none) :
    cur + ns.sum ≤ len := by
  induction ns generalizing cur with
  | nil => simpa using hc
  | cons n ns ih =>
    rw [firstShort] at h
    split at h
    · cases h
    · have := ih (by omega) h
      simp only [List.sum_cons]
      omega

/-- The field that does not fit is the one after those that do. -/
theorem firstShort_at {len cur k : Nat} {ns : List Nat} (hk : k < ns.length) (h : cur + (ns.take k).sum ≤ len)
    (h' : len < cur + (ns.take (k + 1)).sum) : firstShort len cur ns = some (cur + (ns.take k).sum) := by
  induction ns generalizing cur k with
  | nil => simp at hk
  | cons n ns ih =>
    cases k with
    | zero =>
      simp only [List.take_succ_cons, List.take_zero, List.sum_cons, List.sum_nil] at h h' ⊢
      rw [firstShort, if_pos (by omega)]
      rfl
    | succ k =>
      simp only [List.take_succ_cons, List.sum_cons, List.length_cons] at h h' hk ⊢
      rw [firstShort, if_neg (by omega), ih (cur := cur + n) (k := k) (by omega) (by omega) (by omega)]
      congr 1
      omega

theorem firstShort_bound {len cur off : Nat} {ns : List Nat} (hc : cur ≤ len)
    (h : firstShort len cur ns = some off) : cur ≤ off ∧ off ≤ len := by
  induction ns generalizing cur with
  | nil => cases h
  | cons n ns ih =>
    rw [firstShort] at h
    split at h
    · cases h
      exact ⟨Nat.le_refl _, hc⟩
    · have := ih (by omega) h
      omega

/-- Reading fields that lie below IN_LEN. -/
theorem withFields_fit {ns : List Nat} {s : State} (k : State → Out) (h : s.cursor.toNat + ns.sum ≤ s.inLen.toNat) :
    withFields ns s k = k (advance ns.sum s) := by
  rw [withFields, firstShort_none h]

/-- Reading fields of which one does not fit. -/
theorem withFields_short {ns : List Nat} {s : State} {j : Nat} (k : State → Out) (hj : j < ns.length)
    (h : s.cursor.toNat + (ns.take j).sum ≤ s.inLen.toNat)
    (h' : s.inLen.toNat < s.cursor.toNat + (ns.take (j + 1)).sum) :
    withFields ns s k = .next (truncated (s.cursor.toNat + (ns.take j).sum) s) := by
  rw [withFields, firstShort_at hj h h']

/-- All that reading fields can do: end the decode TRUNCATED, or go on with CURSOR past them. -/
theorem withFields_cases (ns : List Nat) (s : State) (k : State → Out) :
    (∃ off, firstShort s.inLen.toNat s.cursor.toNat ns = some off ∧ withFields ns s k = .next (truncated off s)) ∨
    (firstShort s.inLen.toNat s.cursor.toNat ns = none ∧ withFields ns s k = k (advance ns.sum s)) := by
  unfold withFields
  split
  · exact .inl ⟨_, by assumption, rfl⟩
  · exact .inr ⟨by assumption, rfl⟩

theorem enabled24_iff (pending : Bool) (s : State) :
    enabled24 pending s = true ↔ s.engine = .busy ∧ s.path = .d24 ∧ (0 < s.pend.toNat ↔ pending = true) := by
  cases pending <;> simp [enabled24, State.busy, and_assoc]

theorem enabled8_iff (s : State) : enabled8 s = true ↔ s.engine = .busy ∧ s.path = .d8 := by
  simp [enabled8, State.busy]

theorem code24_enabled {pending : Bool} {ns : List Nat} {s : State} (k : State → Out)
    (h : enabled24 pending s = true) : code24 pending ns s k = withFields ns s k := if_pos h

theorem code8_enabled {ns : List Nat} {s : State} (k : State → Out) (h : enabled8 s = true) :
    code8 ns s k = withFields ns s k := if_pos h

/-! The end of a run -/

/-- Emit has room whenever the units that remain fit below OUT_CAP. -/
theorem emitFits_of_room {cnt : Int} {size : Nat} {s : State}
    (h : s.outPtr.toNat + s.remain.toNat * size ≤ s.outCap.toNat) : emitFits cnt size s = true := by
  have hle := Nat.mul_le_mul_right size (runLength_le cnt s.remain.toNat)
  simp only [emitFits, Bool.or_eq_true, decide_eq_true_eq]
  exact .inr (by omega)

theorem emit_remain_toNat (cnt : Int) (unit : List Byte) (s : State) :
    (emit cnt unit s).remain.toNat = s.remain.toNat - runLength cnt s.remain.toNat := by
  have := s.remain.isLt
  simp only [emit_remain, BitVec.toNat_ofNat]
  omega

theorem emit_outPtr_toNat {cnt : Int} {unit : List Byte} {s : State} (h : emitFits cnt unit.length s = true) :
    (emit cnt unit s).outPtr.toNat = s.outPtr.toNat + runLength cnt s.remain.toNat * unit.length := by
  have h1 := s.outPtr.isLt
  have h2 := s.outCap.isLt
  simp only [emitFits, Bool.or_eq_true, beq_iff_eq, decide_eq_true_eq] at h
  simp only [emit_outPtr, BitVec.toNat_ofNat]
  rcases h with h | h
  · simp only [h]
    omega
  · omega

/-- All that the end of a D24 iteration can do. -/
theorem finish24_cases (pix : Pixel) (cnt : Int) (pos : Fin Config.k24) (s : State) :
    (emitFits cnt 3 s = true ∧ finish24 pix cnt pos s = .next (complete (mtf24 pos pix (emit cnt (bytes3 pix) s)))) ∨
    (emitFits cnt 3 s = false ∧ finish24 pix cnt pos s = .fault .outputPastCapacity) := by
  unfold finish24
  cases emitFits cnt 3 s <;> simp

/-- All that the end of a D8 iteration can do. -/
theorem finish8_cases (pix : Byte) (cnt : Int) (pos : Fin Config.k8) (s : State) :
    (emitFits cnt 1 s = true ∧ finish8 pix cnt pos s = .next (complete (mtf8 pos pix (emit cnt [pix] s)))) ∨
    (emitFits cnt 1 s = false ∧ finish8 pix cnt pos s = .fault .outputPastCapacity) := by
  unfold finish8
  cases emitFits cnt 1 s <;> simp

/-! The history manager -/

theorem mtf_toList {α : Type} {n : Nat} (pos : Fin n) (pix : α) (f : Vector α n) :
    (mtf pos pix f).toList = pix :: f.toList.eraseIdx pos := by
  simp [mtf, Vector.toList]

theorem mtf_getElem {α : Type} {n : Nat} (pos : Fin n) (pix : α) (f : Vector α n) {i : Nat} (h : i < n) :
    (mtf pos pix f)[i] = (pix :: f.toList.eraseIdx pos)[i]'(by
      have := pos.isLt
      simp [List.length_eraseIdx]
      omega) := by
  simp [mtf]

/-- The emitted pixel is at slot 0 (41_run_engine R151). -/
theorem mtf_front {α : Type} {n : Nat} (pos : Fin n) (pix : α) (f : Vector α n) (h : 0 < n) :
    (mtf pos pix f)[0] = pix := by
  rw [mtf_getElem]
  rfl

/-- Slots up to `pos` move one back. -/
theorem mtf_shifted {α : Type} {n : Nat} (pos : Fin n) (pix : α) (f : Vector α n) {i : Nat} (h : i < n) (h1 : 1 ≤ i)
    (hp : i ≤ pos) : (mtf pos pix f)[i] = f[i - 1] := by
  obtain ⟨j, rfl⟩ : ∃ j, i = j + 1 := ⟨i - 1, by omega⟩
  rw [mtf_getElem, List.getElem_cons_succ, List.getElem_eraseIdx_of_lt _ (by omega)]
  simp

/-- Slots beyond `pos` stay. -/
theorem mtf_kept {α : Type} {n : Nat} (pos : Fin n) (pix : α) (f : Vector α n) {i : Nat} (h : i < n)
    (hp : (pos : Nat) < i) : (mtf pos pix f)[i] = f[i] := by
  obtain ⟨j, rfl⟩ : ∃ j, i = j + 1 := ⟨i - 1, by omega⟩
  rw [mtf_getElem, List.getElem_cons_succ, List.getElem_eraseIdx_of_ge _ (by omega)]
  simp

/-! The start sequence -/

/-- All that the start sequence can do from the bit-depth check on (40_dispatch R122 steps 3 to 8). -/
theorem startImage_cases (s : State) :
    (legalDepth s.depth = false ∧ startImage s = endDecode .fail .declined s) ∨
    (legalDepth s.depth = true ∧ s.outCap.toNat < (sized s).stride.toNat * s.height.toNat ∧
      startImage s = endDecode .fail .size (sized s)) ∨
    (legalDepth s.depth = true ∧ (sized s).stride.toNat * s.height.toNat ≤ s.outCap.toNat ∧
      startImage s = complete (dispatched (sized s))) := by
  unfold startImage
  by_cases hd : legalDepth s.depth = true
  · rw [if_pos hd]
    by_cases hs : (sized s).stride.toNat * s.height.toNat > s.outCap.toNat
    · rw [if_pos hs]
      exact .inr (.inl ⟨hd, hs, rfl⟩)
    · rw [if_neg hs]
      exact .inr (.inr ⟨hd, by omega, rfl⟩)
  · rw [if_neg hd]
    exact .inl ⟨by simpa using hd, rfl⟩

/-- All that the start sequence can do (40_dispatch R122). -/
theorem startSequence_cases (s : State) :
    (s.ctrlOp ≠ 0 ∧ startSequence s = endDecode .fail .unsupported (clearForStart s)) ∨
    (s.ctrlOp = 0 ∧ s.ctrlHdr = true ∧ s.inLen.toNat < 16 ∧
      startSequence s = endDecode .fail .truncated (clearForStart s)) ∨
    (s.ctrlOp = 0 ∧ s.ctrlHdr = true ∧ 16 ≤ s.inLen.toNat ∧
      startSequence s = startImage (readHeader (clearForStart s))) ∨
    (s.ctrlOp = 0 ∧ s.ctrlHdr = false ∧ startSequence s = startImage (clearForStart s)) := by
  unfold startSequence
  by_cases ho : s.ctrlOp = 0
  · cases hh : s.ctrlHdr
    · simp [ho, hh]
    · by_cases hl : s.inLen.toNat < 16
      · simp [ho, hh, hl]
      · have : 16 ≤ s.inLen.toNat := by omega
        simp [ho, hh, hl, this]
  · refine .inl ⟨ho, ?_⟩
    simp only [clearForStart_ctrlOp]
    exact if_pos ho

/-- All that a CTRL write can do (10_state R24). -/
theorem ctrlWrite_cases (start abort : Bool) (op : BitVec 2) (hdr ie : Bool) (s : State) :
    (s.engine = .busy ∧
      ctrlWrite start abort op hdr ie s = { s with ctrlIe := ie, abortReq := s.abortReq || abort }) ∨
    (s.engine ≠ .busy ∧ start = false ∧
      ctrlWrite start abort op hdr ie s = { s with ctrlOp := op, ctrlHdr := hdr, ctrlIe := ie }) ∨
    (s.engine ≠ .busy ∧ start = true ∧
      ctrlWrite start abort op hdr ie s =
        startSequence { s with ctrlOp := op, ctrlHdr := hdr, ctrlIe := ie }) := by
  unfold ctrlWrite State.busy
  by_cases h : s.engine = .busy
  · simp [h]
  · cases start <;> simp [h]

theorem legalDepth_iff (d : BitVec 8) : legalDepth d = true ↔ d = 1 ∨ d = 8 ∨ d = 24 := by
  simp [legalDepth, or_assoc]

/-- STRIDE's bound for a legal depth (10_state R33). -/
theorem strideOf_le {w : Nat} {d : BitVec 8} (hw : w ≤ 65535) (hd : legalDepth d = true) :
    strideOf w d.toNat ≤ 196605 := by
  rcases (legalDepth_iff d).1 hd with rfl | rfl | rfl <;> simp [strideOf] <;> omega

/-- `N * bpu = Stride * h` (40_dispatch R128). -/
theorem unitsOf_mul {w h : Nat} {d : BitVec 8} (hd : legalDepth d = true) :
    unitsOf w h d.toNat * bytesPerUnit (pathOf d) = strideOf w d.toNat * h := by
  rcases (legalDepth_iff d).1 hd with rfl | rfl | rfl
  · simp [unitsOf, strideOf, pathOf, bytesPerUnit]
  · simp [unitsOf, strideOf, pathOf, bytesPerUnit]
  · simp only [unitsOf, strideOf, pathOf, bytesPerUnit]
    simp
    rw [show w * 24 / 8 = w * 3 by omega]
    ring

/-- NPIX's bound for a legal depth (10_state R34). -/
theorem unitsOf_le {w h : Nat} {d : BitVec 8} (hw : w ≤ 65535) (hh : h ≤ 65535) (hd : legalDepth d = true) :
    unitsOf w h d.toNat ≤ 0xFFFE0001 := by
  have : (65535 : Nat) * 65535 = 0xFFFE0001 := by norm_num
  rcases (legalDepth_iff d).1 hd with rfl | rfl | rfl
  · have h1 : (w + 7) / 8 ≤ 65535 := by omega
    simpa [unitsOf, strideOf, this] using Nat.mul_le_mul h1 hh
  · have h1 : w * 8 / 8 ≤ 65535 := by omega
    simpa [unitsOf, strideOf, this] using Nat.mul_le_mul h1 hh
  · simpa [unitsOf, this] using Nat.mul_le_mul hw hh

end Sys2Proof.Machine
end

