-- ==== Sys2Proof/Laws/Code.lean ====
section
/-! SUPPORT. What a whole iteration does: the run, the update and the completion after the reads, and every way a
control code can end. -/

namespace Sys2Proof.Machine

/-- The room Emit needs, in a state that keeps the invariant (20_memory R72). -/
theorem State.Inv.room {s : State} (h : s.Inv) (hb : s.engine = .busy) :
    s.outPtr.toNat + s.remain.toNat * bytesPerUnit s.path ≤ s.outCap.toNat := by
  have h1 := h.outPtr_eq (h.busy_fmt (.inl hb))
  have h2 := h.busy_fits hb
  have h3 := h.remain_le
  rw [State.outSize] at h2
  rw [h1, ← Nat.add_mul]
  rw [Nat.sub_add_cancel h3]
  exact h2

/-- Emit's results and frame (41_run_engine R145). -/
theorem emit_emitted {cnt : Int} {unit : List Byte} {s : State} (hw : s.outMem.wf = true)
    (hr : s.outPtr.toNat + s.remain.toNat * unit.length ≤ s.outCap.toNat) :
    Emitted s (emit cnt unit s) cnt unit := by
  have hp := emit_outPtr_toNat (emitFits_of_room (cnt := cnt) hr)
  have hn := runLength_le cnt s.remain.toNat
  have hi := runLength_int cnt s.remain.toNat
  have hm := Nat.mul_le_mul_right unit.length hn
  have hc := s.outCap.isLt
  refine ⟨?_, ?_, ?_, ?_, rfl, rfl⟩
  · rw [emit_remain_toNat]
    omega
  · rw [hp, ← hi]
    push_cast
    ring
  · intro a h1 h2
    rw [hp] at h2
    have hin := Memory.read_writeRun_inside (m := s.outMem) (a := s.outPtr.toNat) (j := a - s.outPtr.toNat)
      (n := runLength cnt s.remain.toNat) (unit := unit) hw (by omega) (by omega)
    rw [Nat.add_sub_cancel' h1] at hin
    rw [emit_outMem, hin, List.getD_eq_getElem?_getD, List.getElem?_eq_getElem, Option.getD_some]
  · intro a h
    rw [hp] at h
    rw [emit_outMem]
    exact Memory.read_writeRun_outside _ _ h

theorem mtf_moved {α : Type} {n : Nat} (pos : Fin n) (pix : α) (f : Vector α n) :
    MovedToFront f (mtf pos pix f) pos pix :=
  ⟨fun h => mtf_front pos pix f h, fun _ h h1 hp => mtf_shifted pos pix f h h1 hp,
    fun _ h hp => mtf_kept pos pix f h hp⟩

theorem complete_completion (s t : State)
    (h : t.engine = s.engine ∧ t.result = s.result ∧ t.irqPend = s.irqPend ∧ t.abortReq = s.abortReq) :
    Completion s (complete t) := by
  obtain ⟨h1, h2, h3, h4⟩ := h
  constructor
  · intro h0
    rw [complete_remain] at h0
    simp [h0]
  · intro h0
    rw [complete_remain] at h0
    rw [complete_engine, complete_result, complete_irqPend, complete_abortReq, if_neg h0, if_neg h0, if_neg h0,
      if_neg h0]
    exact ⟨h1, h2, h3, h4⟩

theorem advance_toNat {s : State} {n : Nat} (h : s.cursor.toNat + n ≤ s.inLen.toNat) :
    (advance n s).cursor.toNat = s.cursor.toNat + n := by
  have := s.inLen.isLt
  simp only [advance_cursor, BitVec.toNat_ofNat]
  omega

/-- The end of a D24 iteration, with PEND as the code leaves it: it completes, with these results and this frame. -/
theorem finish24_ran {s : State} {len : Nat} (q : BitVec 8) (pix : Pixel) (cnt : Int) (pos : Fin Config.k24)
    (hw : s.outMem.wf = true) (hr : s.outPtr.toNat + s.remain.toNat * 3 ≤ s.outCap.toNat)
    (hf : s.cursor.toNat + len ≤ s.inLen.toNat) :
    ∃ t, finish24 pix cnt pos { advance len s with pend := q } = .next t ∧ Ran24 s t len q.toNat pix cnt pos := by
  have hem := emit_emitted (cnt := cnt) (unit := bytes3 pix) (s := { advance len s with pend := q }) hw hr
  refine ⟨_, if_pos (emitFits_of_room (cnt := cnt) (size := 3) hr), ?_⟩
  constructor
  · simpa using advance_toNat hf
  · simp
  · exact ⟨by simpa using hem.remain, by simpa [bytes3] using hem.outPtr, by simpa [bytes3] using hem.inside,
      by simpa using hem.outside, by simpa using hem.clamp, by simpa using hem.zrun⟩
  · simpa using mtf_moved pos pix s.frame24
  · obtain ⟨h1, h2⟩ := complete_completion (mtf24 pos pix (emit cnt (bytes3 pix) { advance len s with pend := q })) _
      ⟨rfl, rfl, rfl, rfl⟩
    exact ⟨h1, by simpa using h2⟩
  · simp
  · simp
  · simp
  · constructor <;> simp

/-- The end of a D8 iteration: it completes, with these results and this frame. -/
theorem finish8_ran {s : State} {len : Nat} (fix : Bool) (pix : Byte) (cnt : Int) (pos : Fin Config.k8)
    (hw : s.outMem.wf = true) (hr : s.outPtr.toNat + s.remain.toNat * 1 ≤ s.outCap.toNat)
    (hf : s.cursor.toNat + len ≤ s.inLen.toNat) :
    ∃ t, finish8 pix cnt pos { advance len s with posfix := s.posfix || fix } = .next t ∧
      Ran8 s t len fix pix cnt pos := by
  have hem := emit_emitted (cnt := cnt) (unit := [pix]) (s := { advance len s with posfix := s.posfix || fix }) hw hr
  refine ⟨_, if_pos (emitFits_of_room (cnt := cnt) (size := 1) hr), ?_⟩
  constructor
  · simpa using advance_toNat hf
  · simp
  · exact ⟨by simpa using hem.remain, by simpa using hem.outPtr, by simpa using hem.inside,
      by simpa using hem.outside, by simpa using hem.clamp, by simpa using hem.zrun⟩
  · simpa using mtf_moved pos pix s.frame8
  · obtain ⟨h1, h2⟩ := complete_completion
      (mtf8 pos pix (emit cnt [pix] { advance len s with posfix := s.posfix || fix })) _ ⟨rfl, rfl, rfl, rfl⟩
    exact ⟨h1, by simpa using h2⟩
  · simp
  · simp
  · simp
  · constructor <;> simp

/-- The truncation of an iteration, as the claims say it. -/
theorem truncated_at {s : State} {off : Nat} (h : off ≤ s.inLen.toNat) : TruncatedAt s (truncated off s) off := by
  have := s.inLen.isLt
  refine ⟨?_, rfl⟩
  simp only [truncated_errOff, BitVec.toNat_ofNat]
  omega

/-- A control code whose fields are `ns` has its effect or is truncated, as its continuation says. -/
theorem codeEffect_of_fields {i : Instr} {s : State} {eff : State → Prop} {k : State → Out}
    (he : exec i s = withFields i.fields s k)
    (hk : s.cursor.toNat + i.length ≤ s.inLen.toNat → ∃ t, k (advance i.length s) = .next t ∧ eff t) :
    CodeEffect i s eff := by
  constructor
  · intro hf
    rw [he, withFields_fit k hf]
    exact hk hf
  · intro j hj h h'
    exact ⟨_, he.trans (withFields_short k hj h h'), truncated_at h⟩

/-- Every way a control code's iteration can end, in any state: not presented, undone, without room, or a run. -/
inductive CodeEnd (i : Instr) (s : State) : Prop where
  | notEnabled (h : exec i s = .refused .codeNotEnabled)
  | undone (off : Nat) (hb : s.engine = .busy)
      (hoff : firstShort s.inLen.toNat s.cursor.toNat i.fields = some off) (h : exec i s = .next (truncated off s))
  | noRoom (hb : s.engine = .busy) (h : exec i s = .fault .outputPastCapacity)
      (hroom : s.outCap.toNat < s.outPtr.toNat + s.remain.toNat * bytesPerUnit s.path)
  | run24 (q : BitVec 8) (pix : Pixel) (cnt : Int) (pos : Fin Config.k24) (hb : s.engine = .busy)
      (hp : s.path = .d24) (hq : q.toNat ≤ 254 ∨ q.toNat ≤ s.pend.toNat)
      (hn : firstShort s.inLen.toNat s.cursor.toNat i.fields = none)
      (hfit : emitFits cnt 3 s = true)
      (h : exec i s =
        .next (complete (mtf24 pos pix (emit cnt (bytes3 pix) { advance i.length s with pend := q }))))
  | run8 (fix : Bool) (pix : Byte) (cnt : Int) (pos : Fin Config.k8) (hb : s.engine = .busy) (hp : s.path = .d8)
      (hn : firstShort s.inLen.toNat s.cursor.toNat i.fields = none)
      (hfit : emitFits cnt 1 s = true)
      (h : exec i s =
        .next (complete (mtf8 pos pix (emit cnt [pix] { advance i.length s with posfix := s.posfix || fix }))))

theorem noRoom_of_not_fits {cnt : Int} {size : Nat} {s : State} (h : emitFits cnt size s = false) :
    s.outCap.toNat < s.outPtr.toNat + s.remain.toNat * size := by
  by_contra hc
  rw [emitFits_of_room (by omega)] at h
  cases h

theorem codeEnd24 {i : Instr} {s : State} (pending : Bool) (k : State → Out)
    (he : exec i s = code24 pending i.fields s k)
    (hk : enabled24 pending s = true → ∃ q pix cnt pos, (q.toNat ≤ 254 ∨ q.toNat ≤ s.pend.toNat) ∧
      k (advance i.length s) = finish24 pix cnt pos { advance i.length s with pend := q }) : CodeEnd i s := by
  by_cases hen : enabled24 pending s = true
  · obtain ⟨hb, hp, -⟩ := (enabled24_iff pending s).1 hen
    rw [code24_enabled k hen] at he
    obtain ⟨off, hoff, h⟩ | ⟨hn, h⟩ := withFields_cases i.fields s k
    · exact .undone off hb hoff (he.trans h)
    · obtain ⟨q, pix, cnt, pos, hq, hke⟩ := hk hen
      have h := he.trans (h.trans hke)
      obtain ⟨hfit, hf⟩ | ⟨hfit, hf⟩ := finish24_cases pix cnt pos { advance i.length s with pend := q }
      · exact .run24 q pix cnt pos hb hp hq hn hfit (h.trans hf)
      · refine .noRoom hb (h.trans hf) ?_
        rw [hp]
        exact noRoom_of_not_fits hfit
  · exact .notEnabled (he.trans (if_neg hen))

theorem codeEnd8 {i : Instr} {s : State} (k : State → Out) (he : exec i s = code8 i.fields s k)
    (hk : ∃ fix pix cnt pos,
      k (advance i.length s) = finish8 pix cnt pos { advance i.length s with posfix := s.posfix || fix }) :
    CodeEnd i s := by
  by_cases hen : enabled8 s = true
  · obtain ⟨hb, hp⟩ := (enabled8_iff s).1 hen
    rw [code8_enabled k hen] at he
    obtain ⟨off, hoff, h⟩ | ⟨hn, h⟩ := withFields_cases i.fields s k
    · exact .undone off hb hoff (he.trans h)
    · obtain ⟨fix, pix, cnt, pos, hke⟩ := hk
      have h := he.trans (h.trans hke)
      obtain ⟨hfit, hf⟩ | ⟨hfit, hf⟩ :=
        finish8_cases pix cnt pos { advance i.length s with posfix := s.posfix || fix }
      · exact .run8 fix pix cnt pos hb hp hn hfit (h.trans hf)
      · refine .noRoom hb (h.trans hf) ?_
        rw [hp]
        exact noRoom_of_not_fits hfit
  · exact .notEnabled (he.trans (if_neg hen))

theorem posfix_unchanged (s : State) (n : Nat) : advance n s = { advance n s with posfix := s.posfix || false } := by
  simp [advance]

/-- Whether an instruction is a control code of the stream, rather than a host command. -/
def isCode : Instr → Bool
  | .startDecode _ _ _ => false
  | .startEncode _ _ _ _ => false
  | .abort _ _ _ _ => false
  | _ => true

/-- Every control code ends in one of the ways of `CodeEnd`. -/
theorem code_end (i : Instr) (s : State) (hi : isCode i = true) : CodeEnd i s := by
  cases i with
  | litp pix =>
    refine codeEnd24 true _ rfl fun hen => ⟨s.pend - 1, pix, 1, literalSlot24, .inr ?_, rfl⟩
    have h0 : 0 < s.pend.toNat := ((enabled24_iff true s).1 hen).2.2.2 rfl
    have := s.pend.isLt
    rw [BitVec.toNat_sub]
    simp
    omega
  | drefs c f => exact codeEnd24 false _ rfl fun _ => ⟨s.pend, _, _, _, .inr (Nat.le_refl _), rfl⟩
  | drefl f x p => exact codeEnd24 false _ rfl fun _ => ⟨s.pend, _, _, _, .inr (Nat.le_refl _), rfl⟩
  | drefx p k => exact codeEnd24 false _ rfl fun _ => ⟨s.pend, _, _, _, .inr (Nat.le_refl _), rfl⟩
  | litc m pix =>
    refine codeEnd24 false _ rfl fun _ => ⟨chainPend m, pix, 1, literalSlot24, .inl ?_, rfl⟩
    have := m.isLt
    simp only [chainPend, BitVec.toNat_ofNat]
    omega
  | litx k pix => exact codeEnd24 false _ rfl fun _ => ⟨s.pend, _, _, _, .inr (Nat.le_refl _), rfl⟩
  | litr n pix => exact codeEnd24 false _ rfl fun _ => ⟨s.pend, _, _, _, .inr (Nat.le_refl _), rfl⟩
  | bref hi lo => exact codeEnd8 _ rfl ⟨false, _, _, _, by rw [← posfix_unchanged]⟩
  | blit lo b => exact codeEnd8 _ rfl ⟨false, _, _, _, by rw [← posfix_unchanged]⟩
  | blit8 k b => exact codeEnd8 _ rfl ⟨false, _, _, _, by rw [← posfix_unchanged]⟩
  | blit16 k b => exact codeEnd8 _ rfl ⟨false, _, _, _, by rw [← posfix_unchanged]⟩
  | blit32 k b => exact codeEnd8 _ rfl ⟨false, _, _, _, by rw [← posfix_unchanged]⟩
  | bref8 k sel q => exact codeEnd8 _ rfl ⟨sel == 0, _, _, _, rfl⟩
  | bref16 k sel q => exact codeEnd8 _ rfl ⟨sel == 0, _, _, _, rfl⟩
  | bref32 k sel q => exact codeEnd8 _ rfl ⟨sel == 0, _, _, _, rfl⟩
  | startDecode abort hdr ie => cases hi
  | startEncode abort op hdr ie => cases hi
  | abort start op hdr ie => cases hi

end Sys2Proof.Machine
end

