-- ==== Sys2Proof/Laws/Decode.lean ====
section
/-! SUPPORT. Laws of the byte helpers, of the field readers and of the control bytes, for claims about encodings. -/

namespace Sys2Proof

/-! Little-endian fields and their bytes are inverse. -/

theorem le2_bytes (v : BitVec 16) : le2 (v.extractLsb' 0 8) (v.extractLsb' 8 8) = v := by
  apply BitVec.eq_of_getLsbD_eq
  intro i hi
  simp only [le2, BitVec.getLsbD_append, BitVec.getLsbD_extractLsb']
  by_cases h1 : i < 8
  · simp [h1]
  · simp [h1, show i - 8 < 8 by omega, show 8 + (i - 8) = i by omega]

theorem le3_bytes (v : BitVec 24) : le3 (v.extractLsb' 0 8) (v.extractLsb' 8 8) (v.extractLsb' 16 8) = v := by
  apply BitVec.eq_of_getLsbD_eq
  intro i hi
  simp only [le3, BitVec.getLsbD_append, BitVec.getLsbD_extractLsb']
  by_cases h1 : i < 8
  · simp [h1]
  · by_cases h2 : i < 16
    · simp [h1, show i - 8 < 8 by omega, show 8 + (i - 8) = i by omega]
    · simp [h1, show ¬ i - 8 < 8 by omega, show i - 8 - 8 < 8 by omega, show 16 + (i - 8 - 8) = i by omega]

theorem le4_bytes (v : BitVec 32) :
    le4 (v.extractLsb' 0 8) (v.extractLsb' 8 8) (v.extractLsb' 16 8) (v.extractLsb' 24 8) = v := by
  apply BitVec.eq_of_getLsbD_eq
  intro i hi
  simp only [le4, BitVec.getLsbD_append, BitVec.getLsbD_extractLsb']
  by_cases h1 : i < 8
  · simp [h1]
  · by_cases h2 : i < 16
    · simp [h1, show i - 8 < 8 by omega, show 8 + (i - 8) = i by omega]
    · by_cases h3 : i < 24
      · simp [h1, show ¬ i - 8 < 8 by omega, show i - 8 - 8 < 8 by omega, show 16 + (i - 8 - 8) = i by omega]
      · simp [h1, show ¬ i - 8 < 8 by omega, show ¬ i - 8 - 8 < 8 by omega, show i - 8 - 8 - 8 < 8 by omega,
          show 24 + (i - 8 - 8 - 8) = i by omega]

theorem extract_append_low {m n : Nat} (x : BitVec m) (y : BitVec n) (w : Nat) (hw : w ≤ n) :
    (x ++ y).extractLsb' 0 w = y.extractLsb' 0 w := by
  apply BitVec.eq_of_getLsbD_eq
  intro i hi
  simp [BitVec.getLsbD_append, hi, show i < n by omega]

theorem extract_append_high {m n : Nat} (x : BitVec m) (y : BitVec n) (k w : Nat) :
    (x ++ y).extractLsb' (n + k) w = x.extractLsb' k w := by
  apply BitVec.eq_of_getLsbD_eq
  intro i hi
  simp only [BitVec.getLsbD_extractLsb', BitVec.getLsbD_append]
  rw [if_neg (by omega), show n + k + i - n = k + i by omega]

theorem extract_byte (x : BitVec 8) : x.extractLsb' 0 8 = x := by
  apply BitVec.eq_of_getLsbD_eq
  intro i hi
  simp only [BitVec.getLsbD_extractLsb', hi, decide_true, Bool.true_and, Nat.zero_add]

theorem bytes2_le2 (a b : BitVec 8) : bytes2 (le2 a b) = [a, b] := by
  unfold bytes2 le2
  rw [extract_append_low b a 8 (Nat.le_refl 8), extract_append_high b a 0 8, extract_byte, extract_byte]

theorem bytes3_le3 (a b c : BitVec 8) : bytes3 (le3 a b c) = [a, b, c] := by
  unfold bytes3 le3
  rw [extract_append_low (c ++ b) a 8 (Nat.le_refl 8), extract_append_high (c ++ b) a 0 8,
    extract_append_high (c ++ b) a 8 8, extract_append_low c b 8 (Nat.le_refl 8), extract_append_high c b 0 8,
    extract_byte, extract_byte, extract_byte]

theorem bytes4_le4 (a b c d : BitVec 8) : bytes4 (le4 a b c d) = [a, b, c, d] := by
  unfold bytes4 le4
  rw [extract_append_low (d ++ c ++ b) a 8 (Nat.le_refl 8), extract_append_high (d ++ c ++ b) a 0 8,
    extract_append_high (d ++ c ++ b) a 8 8, extract_append_high (d ++ c ++ b) a 16 8,
    extract_append_low (d ++ c) b 8 (Nat.le_refl 8), extract_append_high (d ++ c) b 0 8,
    extract_append_high (d ++ c) b 8 8, extract_append_low d c 8 (Nat.le_refl 8), extract_append_high d c 0 8,
    extract_byte, extract_byte, extract_byte, extract_byte]

/-! A reader on the bytes of its field goes on with the field's value. -/

theorem field1_cons (off : Nat) (a : Byte) (r : List Byte) (k : Byte → List Byte → CodeResult) :
    field1 off (a :: r) k = k a r := rfl

theorem field2_bytes2 (off : Nat) (v : BitVec 16) (r : List Byte) (k : BitVec 16 → List Byte → CodeResult) :
    field2 off (bytes2 v ++ r) k = k v r := by
  simp only [bytes2, List.cons_append, List.nil_append, field2, le2_bytes]

theorem field3_bytes3 (off : Nat) (v : Pixel) (r : List Byte) (k : Pixel → List Byte → CodeResult) :
    field3 off (bytes3 v ++ r) k = k v r := by
  simp only [bytes3, List.cons_append, List.nil_append, field3, le3_bytes]

theorem field4_bytes4 (off : Nat) (v : BitVec 32) (r : List Byte) (k : BitVec 32 → List Byte → CodeResult) :
    field4 off (bytes4 v ++ r) k = k v r := by
  simp only [bytes4, List.cons_append, List.nil_append, field4, le4_bytes]

/-! A reader that gives a code had its field's bytes. -/

theorem field1_code {off : Nat} {bs : List Byte} {k : Byte → List Byte → CodeResult} {i : Instr}
    (h : field1 off bs k = .code i) : ∃ a r, bs = a :: r ∧ k a r = .code i := by
  cases bs with
  | nil => cases h
  | cons a r => exact ⟨a, r, rfl, h⟩

theorem field2_code {off : Nat} {bs : List Byte} {k : BitVec 16 → List Byte → CodeResult} {i : Instr}
    (h : field2 off bs k = .code i) : ∃ v r, bs = bytes2 v ++ r ∧ k v r = .code i := by
  match bs, h with
  | a :: b :: r, h => exact ⟨le2 a b, r, by rw [bytes2_le2]; rfl, h⟩

theorem field3_code {off : Nat} {bs : List Byte} {k : Pixel → List Byte → CodeResult} {i : Instr}
    (h : field3 off bs k = .code i) : ∃ v r, bs = bytes3 v ++ r ∧ k v r = .code i := by
  match bs, h with
  | a :: b :: c :: r, h => exact ⟨le3 a b c, r, by rw [bytes3_le3]; rfl, h⟩

theorem field4_code {off : Nat} {bs : List Byte} {k : BitVec 32 → List Byte → CodeResult} {i : Instr}
    (h : field4 off bs k = .code i) : ∃ v r, bs = bytes4 v ++ r ∧ k v r = .code i := by
  match bs, h with
  | a :: b :: c :: d :: r, h => exact ⟨le4 a b c d, r, by rw [bytes4_le4]; rfl, h⟩

/-! The fields of one byte, both ways (30_encoding R92, R95). -/

theorem drefs_byte : ∀ (c : BitVec 2) (f : BitVec 5),
    ((1 : BitVec 1) ++ c ++ f).extractLsb' 5 2 = c ∧ ((1 : BitVec 1) ++ c ++ f).extractLsb' 0 5 = f ∧
      ((1 : BitVec 1) ++ c ++ f).getLsbD 7 = true := by decide

theorem drefl_byte : ∀ f : BitVec 5,
    ((4 : BitVec 3) ++ f).extractLsb' 5 2 = 0 ∧ ((4 : BitVec 3) ++ f).extractLsb' 0 5 = f ∧
      ((4 : BitVec 3) ++ f).getLsbD 7 = true := by decide

theorem ext_byte : ∀ (x : BitVec 1) (p : BitVec 7),
    (x ++ p).extractLsb' 7 1 = x ∧ (x ++ p).extractLsb' 0 7 = p := by decide

theorem litr_byte : ∀ n : BitVec 7,
    ((0 : BitVec 1) ++ n).getLsbD 7 = false ∧ ((0 : BitVec 1) ++ n).extractLsb' 0 7 = n ∧
      (2 ≤ n.toNat → (0 : BitVec 1) ++ n ≠ 0x01 ∧ (0 : BitVec 1) ++ n ≠ 0x00) := by decide

theorem nibble_byte : ∀ hi lo : BitVec 4,
    (hi ++ lo).extractLsb' 4 4 = hi ∧ (hi ++ lo).extractLsb' 0 4 = lo := by decide

theorem byte_of_nibbles : ∀ b : Byte, b.extractLsb' 4 4 ++ b.extractLsb' 0 4 = b := by decide

theorem byte_of_ext : ∀ b : Byte, b.extractLsb' 7 1 ++ b.extractLsb' 0 7 = b := by decide

theorem byte_of_dref : ∀ b : Byte, b.getLsbD 7 = true →
    (1 : BitVec 1) ++ b.extractLsb' 5 2 ++ b.extractLsb' 0 5 = b ∧
      (b.extractLsb' 5 2 = 0 → (4 : BitVec 3) ++ b.extractLsb' 0 5 = b) := by decide

theorem byte_of_litr : ∀ b : Byte, b.getLsbD 7 = false →
    (0 : BitVec 1) ++ b.extractLsb' 0 7 = b ∧ (b ≠ 0x01 → b ≠ 0x00 → 2 ≤ (b.extractLsb' 0 7).toNat) := by decide

/-- The fields of a CTRL value, in the order of its bits (10_state R24). -/
theorem ctrlWord_fields : ∀ (start abort : Bool) (op : BitVec 2) (hdr ie : Bool),
    ctrlStart (ctrlWord start abort op hdr ie) = start ∧ ctrlAbort (ctrlWord start abort op hdr ie) = abort ∧
      ctrlOpField (ctrlWord start abort op hdr ie) = op ∧ ctrlHdrField (ctrlWord start abort op hdr ie) = hdr ∧
      ctrlIeField (ctrlWord start abort op hdr ie) = ie := by decide

/-- The CTRL word as a number (10_state R24). -/
theorem ctrlWord_toNat : ∀ (start abort : Bool) (op : BitVec 2) (hdr ie : Bool),
    (ctrlWord start abort op hdr ie).toNat =
      start.toNat + 2 * abort.toNat + 4 * op.toNat + 0x10 * hdr.toNat + 0x20 * ie.toNat := by decide

/-- A CTRL write's bytes decode as its value does. -/
theorem decode_bytes4 {busy : Bool} {v : Word} {i : Instr} (rest : List Byte) (h : decodeCtrl busy v = some i) :
    decode (.ctrl busy) (bytes4 v ++ rest) = .ok i := by
  simp only [decode, bytes4, List.cons_append, List.nil_append, le4_bytes, h]

end Sys2Proof
end

