-- ==== Sys2Proof/Laws/PerInstr.lean ====
section
/-! SUPPORT. Statements made of every instruction, one lemma per constructor. -/

namespace Sys2Proof.Laws

/-- The encoding is as long as the fields that the engine reads (30_encoding R104). -/
def EncodedLength.Statement (i : Instr) : Prop := (encode i).length = i.length

theorem EncodedLength.litp (pix : Pixel) :
    EncodedLength.Statement (.litp pix) := rfl
theorem EncodedLength.drefs (c : BitVec 2) (f : BitVec 5) :
    EncodedLength.Statement (.drefs c f) := rfl
theorem EncodedLength.drefl (f : BitVec 5) (x : BitVec 1) (p : BitVec 7) :
    EncodedLength.Statement (.drefl f x p) := rfl
theorem EncodedLength.drefx (p : BitVec 7) (k : BitVec 32) :
    EncodedLength.Statement (.drefx p k) := rfl
theorem EncodedLength.litc (m : Byte) (pix : Pixel) :
    EncodedLength.Statement (.litc m pix) := rfl
theorem EncodedLength.litx (k : BitVec 32) (pix : Pixel) :
    EncodedLength.Statement (.litx k pix) := rfl
theorem EncodedLength.litr (n : BitVec 7) (pix : Pixel) :
    EncodedLength.Statement (.litr n pix) := rfl
theorem EncodedLength.bref (hi lo : BitVec 4) :
    EncodedLength.Statement (.bref hi lo) := rfl
theorem EncodedLength.blit (lo : BitVec 4) (b : Byte) :
    EncodedLength.Statement (.blit lo b) := rfl
theorem EncodedLength.blit8 (k : BitVec 8) (b : Byte) :
    EncodedLength.Statement (.blit8 k b) := rfl
theorem EncodedLength.blit16 (k : BitVec 16) (b : Byte) :
    EncodedLength.Statement (.blit16 k b) := rfl
theorem EncodedLength.blit32 (k : BitVec 32) (b : Byte) :
    EncodedLength.Statement (.blit32 k b) := rfl
theorem EncodedLength.bref8 (k : BitVec 8) (sel q : BitVec 4) :
    EncodedLength.Statement (.bref8 k sel q) := rfl
theorem EncodedLength.bref16 (k : BitVec 16) (sel q : BitVec 4) :
    EncodedLength.Statement (.bref16 k sel q) := rfl
theorem EncodedLength.bref32 (k : BitVec 32) (sel q : BitVec 4) :
    EncodedLength.Statement (.bref32 k sel q) := rfl
theorem EncodedLength.startDecode (abort hdr ie : Bool) :
    EncodedLength.Statement (.startDecode abort hdr ie) := rfl
theorem EncodedLength.startEncode (abort : Bool) (op : BitVec 2) (hdr ie : Bool) :
    EncodedLength.Statement (.startEncode abort op hdr ie) := rfl
theorem EncodedLength.abort (start : Bool) (op : BitVec 2) (hdr ie : Bool) :
    EncodedLength.Statement (.abort start op hdr ie) := rfl

end Sys2Proof.Laws
end

