-- ==== Sys2Proof/Laws/Step.lean ====
section
/-! SUPPORT. What a step can do, said once: the fetch, the engine's turn, and every way a step reaches a next state. -/

namespace Sys2Proof.Machine

/-! Fetching -/

theorem readBytes_take (m : Memory) (a : Nat) {n k : Nat} (h : k ≤ n) :
    (m.readBytes a n).take k = m.readBytes a k := by
  induction k generalizing a n with
  | zero => rfl
  | succ k ih =>
    obtain ⟨n, rfl⟩ : ∃ j, n = j + 1 := ⟨n - 1, by omega⟩
    simp [Memory.readBytes, ih (a + 1) (by omega : k ≤ n)]

theorem readBytes_eq {m : Memory} {a : Nat} {bs : List Byte}
    (h : ∀ j (h : j < bs.length), m.read (a + j) = bs[j]) : m.readBytes a bs.length = bs := by
  apply List.ext_getElem (by simp)
  intro j h1 h2
  rw [Memory.getElem_readBytes _ (by simpa using h1)]
  exact h j h2

theorem length_le_maxLength (i : Instr) : i.length ≤ maxLength := by
  cases i <;> simp [Instr.length, Instr.fields, maxLength]

/-- The bytes fetched begin with the bytes that lie at CURSOR. -/
theorem fetchBytes_of_streamHas {s : State} {bs : List Byte} (h : s.streamHas bs) (hl : bs.length ≤ maxLength) :
    ∃ rest, fetchBytes s = bs ++ rest := by
  obtain ⟨h1, h2⟩ := h
  refine ⟨(fetchBytes s).drop bs.length, ?_⟩
  conv_lhs => rw [← List.take_append_drop bs.length (fetchBytes s)]
  congr 1
  rw [fetchBytes, readBytes_take _ _ (by omega), readBytes_eq h2]

/-- When IN_LEN ends the stream after those bytes, they are all that is fetched. -/
theorem fetchBytes_at_end {s : State} {bs : List Byte} (h : s.streamHas bs) (hl : bs.length ≤ maxLength)
    (he : s.inLen.toNat = s.cursor.toNat + bs.length) : fetchBytes s = bs := by
  rw [fetchBytes, he, Nat.add_sub_cancel_left, min_eq_right hl]
  exact readBytes_eq h.2

/-- Decoding in the context that the state selects is the decoding of the fetch. -/
theorem decodeCode_of_decode {i : Instr} {s : State} {bs : List Byte} (h : decode s.codeCtx bs = .ok i) :
    decodeCode s.path (decide (0 < s.pend.toNat)) bs = .code i := by
  unfold State.codeCtx at h
  unfold decodeCode
  cases hp : s.path <;> simp only [hp, decode] at h ⊢
  · cases hd : decode24 (decide (0 < s.pend.toNat)) bs <;> rw [hd] at h <;> cases h
    rfl
  · cases hd : decode8 bs <;> rw [hd] at h <;> cases h
    rfl

/-! The engine's step -/

/-- An engine turn is the iteration, with the turn taken from the schedule. -/
theorem step_of_engineNext {s : State} {rest : List Turn} (h : s.engineNext rest) :
    step s = engineStep { s with schedule := rest } := by
  obtain ⟨hb, ⟨h1, h2, h3⟩ | h1⟩ := h
  · subst h2
    have e : ({ s with schedule := [] } : State) = s := by
      cases s
      simp at h1
      simp [h1]
    rw [e]
    simp [step, stepTurn, h1, engineTurn, State.busy, hb, h3]
  · simp [step, stepTurn, h1, takeTurn, State.busy, hb]

/-- An iteration is the code at CURSOR, or the truncation of a code that the stream does not give. -/
theorem engineStep_cases (s : State) :
    (∃ i, fetchCode s = .code i ∧ engineStep s = exec i s) ∨
    (∃ off, fetchCode s = .short off ∧ engineStep s = .next (truncated (s.cursor.toNat + off) s)) := by
  unfold engineStep
  cases fetchCode s with
  | code i => exact .inl ⟨i, rfl, rfl⟩
  | short off => exact .inr ⟨off, rfl, rfl⟩

/-- A host turn is its move, with the turn taken from the schedule. -/
theorem step_of_host {s : State} {m : HostMove} {rest : List Turn} (h : s.schedule = .host m :: rest) :
    step s = hostMove m { s with schedule := rest } := by
  simp [step, stepTurn, h, takeTurn]

/-- Every way a step ends in a next state. -/
inductive StepTo (s t : State) : Prop where
  /-- Nothing to do, or a turn whose step is not enabled. -/
  | stay (h : t = { s with schedule := t.schedule })
      (hn : s.engine ≠ .busy ∨ (s.abortReq = false ∧ ∃ rest, s.schedule = .abortStep :: rest))
  /-- An iteration of the engine. -/
  | iteration (hb : s.engine = .busy) (u : State) (h : engineStep u = .next t)
      (hu : u = { s with schedule := u.schedule, freeIdx := u.freeIdx })
      (hs : s.schedule = [] ∨ s.schedule = .engine :: u.schedule)
  /-- The abort step. -/
  | abort (hb : s.engine = .busy) (ha : s.abortReq = true) (u : State) (h : t = abortStep u)
      (hu : u = { s with schedule := u.schedule, freeIdx := u.freeIdx })
      (hs : s.schedule = [] ∨ s.schedule = .abortStep :: u.schedule)
  /-- A move of the host or the platform. -/
  | host (m : HostMove) (rest : List Turn) (hs : s.schedule = .host m :: rest)
      (h : hostMove m { s with schedule := rest } = .next t)

/-- All that a step can do when it ends in a next state. -/
theorem step_cases {s t : State} (h : step s = .next t) : StepTo s t := by
  unfold step stepTurn at h
  split at h
  · rename_i hs
    unfold engineTurn at h
    split at h
    · rename_i hb
      have hb : s.engine = .busy := by simpa [State.busy] using hb
      split at h
      · rename_i ha
        dsimp only at h
        split at h
        · cases h
          exact .abort hb ha { s with freeIdx := s.freeIdx + 1 } rfl rfl (.inl hs)
        · exact .iteration hb { s with freeIdx := s.freeIdx + 1 } h rfl (.inl hs)
      · exact .iteration hb s h rfl (.inl hs)
    · rename_i hb
      cases h
      exact .stay rfl (.inl (by simpa [State.busy] using hb))
  · rename_i turn rest hs
    cases turn with
    | engine =>
      simp only [takeTurn] at h
      split at h
      · rename_i hb
        exact .iteration (by simpa [State.busy] using hb) { s with schedule := rest } h rfl (.inr hs)
      · rename_i hb
        cases h
        exact .stay rfl (.inl (by simpa [State.busy] using hb))
    | abortStep =>
      simp only [takeTurn] at h
      split at h
      · rename_i hb
        obtain ⟨hb, ha⟩ : s.engine = .busy ∧ s.abortReq = true := by simpa [State.busy] using hb
        cases h
        exact .abort hb ha { s with schedule := rest } rfl rfl (.inr hs)
      · rename_i hb
        cases h
        refine .stay rfl ?_
        by_cases hbusy : s.engine = .busy
        · exact .inr ⟨by simpa [State.busy, hbusy] using hb, rest, hs⟩
        · exact .inl hbusy
    | host m => exact .host m rest hs h

/-! Register accesses -/

/-- A word read at an aligned offset. -/
theorem hostMove_readReg {off : BitVec 10} (s : State) (h : off.toNat % 4 = 0) :
    hostMove (.readReg off .word) s = .next (readReg off.toNat s) := by
  simp [hostMove, alignedWord, h]

/-- A word write at an aligned offset other than CTRL's. -/
theorem hostMove_writeReg {off : BitVec 10} (s : State) (v : Word) (h : off.toNat % 4 = 0)
    (hc : off.toNat ≠ ctrlOffset) : hostMove (.writeReg off .word v) s = .next (writeReg off.toNat v s) := by
  simp [hostMove, alignedWord, h, hc]

/-- A word write to CTRL. -/
theorem hostMove_writeCtrl (s : State) (v : Word) : hostMove (.writeReg 0x004 .word v) s = writeCtrl v s := rfl

end Sys2Proof.Machine
end

