-- ==== Sys2Proof/Tests/Slice0.lean ====
section
/-! SUPPORT. Tests on single steps, with expected values from the spec's vectors, and a witness for the hypotheses of
every statement. -/

open Sys2Proof Sys2Proof.Machine

set_option maxRecDepth 20000

namespace Sys2Proof.Tests

/-! ## Helpers -/

/-- Whether an outcome is a next state with this property. -/
def nextIs (o : Out) (p : State → Bool) : Bool :=
  match o with
  | .next t => p t
  | _ => false

theorem exists_of_nextIs {o : Out} {p : State → Bool} (h : nextIs o p = true) : ∃ t, o = .next t ∧ p t = true := by
  cases o with
  | next t => exact ⟨t, rfl, h⟩
  | fault f => cases h
  | refused r => cases h

theorem next_of_nextIs {o : Out} {p : State → Bool} (h : nextIs o p = true) : ∃ t, o = .next t := by
  obtain ⟨t, h, -⟩ := exists_of_nextIs h
  exact ⟨t, h⟩

/-- A D24 decode of `w` pixels at its first code, the stream `bs` and PEND = `pend`. -/
def busy24 (w : Nat) (bs : List Byte) (pend : BitVec 8 := 0) : State :=
  { State.reset with
    engine := .busy, width := BitVec.ofNat 16 w, height := 1, depth := 24, fmt := .bgr24, path := .d24
    stride := BitVec.ofNat 32 (3 * w), npix := BitVec.ofNat 32 w, remain := BitVec.ofNat 32 w
    outCap := BitVec.ofNat 32 (3 * w), inLen := BitVec.ofNat 32 bs.length, pend := pend
    inMem := Memory.writeBytes [] 0 bs }

/-- A D8 decode of `w` bytes at its first code. -/
def busy8 (w : Nat) (bs : List Byte) : State :=
  { State.reset with
    engine := .busy, width := BitVec.ofNat 16 w, height := 1, depth := 8, fmt := .indexed8, path := .d8
    stride := BitVec.ofNat 32 w, npix := BitVec.ofNat 32 w, remain := BitVec.ofNat 32 w
    outCap := BitVec.ofNat 32 w, inLen := BitVec.ofNat 32 bs.length, inMem := Memory.writeBytes [] 0 bs }

/-- An idle core configured for an image, with the input `bs`. -/
def ready (w h d cap : Nat) (bs : List Byte) : State :=
  { State.reset with
    width := BitVec.ofNat 16 w, height := BitVec.ofNat 16 h, depth := BitVec.ofNat 8 d, outCap := BitVec.ofNat 32 cap
    inLen := BitVec.ofNat 32 bs.length, inMem := Memory.writeBytes [] 0 bs }

/-- A move of the host as the next turn. -/
def hosted (m : HostMove) (s : State) : State := { s with schedule := [.host m] }

/-- The first `n` output bytes. -/
def out (n : Nat) (t : State) : List Byte := t.outMem.readBytes 0 n

/-- The first `n` slots of FRAME24. -/
def f24 (n : Nat) (t : State) : List Pixel := t.frame24.toList.take n

/-! ## Well-formedness: an ill-formed term for each check -/

theorem test_wf_drefs : (Instr.drefs 0 5).wf = false ∧ (Instr.drefs 1 5).wf = true := by decide
theorem test_wf_drefl : (Instr.drefl 0 0 3).wf = false ∧ (Instr.drefl 0 1 3).wf = true := by decide
theorem test_wf_litr : (Instr.litr 1 0).wf = false ∧ (Instr.litr 2 0).wf = true := by decide
theorem test_wf_bref : (Instr.bref 0 1).wf = false ∧ (Instr.bref 1 0).wf = true := by decide
theorem test_wf_blit : (Instr.blit 10 1).wf = false ∧ (Instr.blit 9 1).wf = true := by decide
theorem test_wf_startEncode : (Instr.startEncode false 0 false false).wf = false ∧
    (Instr.startEncode false 1 false false).wf = true := by decide

/-! ## Decoding: words written out from 30_encoding R93, R96 and from 10_state R24 -/

theorem test_decode_litp : decode (.d24 true) [0x80, 0x02, 0xFE] = .ok (.litp 0xFE0280) := by decide
-- 1 11 11111: c = 3, f = 31 (vector V-24-10)
theorem test_decode_drefs : decode (.d24 false) [0xFF] = .ok (.drefs 3 31) := by decide
-- 100 00010, 1 0000001: f = 2, x = 1, p = 1, count 5 (vector V-24-11)
theorem test_decode_drefl : decode (.d24 false) [0x82, 0x81] = .ok (.drefl 2 1 1) := by decide
-- 100 00000, 1 0000000: still DREFL (vector V-24-13)
theorem test_decode_drefl_one : decode (.d24 false) [0x80, 0x80, 1, 2, 3, 4] = .ok (.drefl 0 1 0) := by decide
-- 10000000, 0 0000001, K little-endian
theorem test_decode_drefx : decode (.d24 false) [0x80, 0x01, 0x78, 0x56, 0x34, 0x12] = .ok (.drefx 1 0x12345678) := by
  decide
theorem test_decode_litc : decode (.d24 false) [0x01, 0x03, 0xA1, 0xA2, 0xA3] = .ok (.litc 3 0xA3A2A1) := by decide
theorem test_decode_litx : decode (.d24 false) [0x00, 0x05, 0, 0, 0x80, 0xAA, 0xBB, 0xCC] =
    .ok (.litx 0x80000005 0xCCBBAA) := by decide
theorem test_decode_litr : decode (.d24 false) [0x7F, 0x01, 0x02, 0x03] = .ok (.litr 127 0x030201) := by decide
-- 1011 0000: slot 10, count 1 (vector T-S9)
theorem test_decode_bref : decode .d8 [0xB0] = .ok (.bref 11 0) := by decide
theorem test_decode_blit : decode .d8 [0x09, 0x7F] = .ok (.blit 9 0x7F) := by decide
theorem test_decode_blit8 : decode .d8 [0x0A, 0xFE, 0x01] = .ok (.blit8 0xFE 0x01) := by decide
theorem test_decode_blit16 : decode .d8 [0x0B, 0x34, 0x12, 0x77] = .ok (.blit16 0x1234 0x77) := by decide
theorem test_decode_blit32 : decode .d8 [0x0C, 0xFF, 0xFF, 0xFF, 0x7F, 0x42] = .ok (.blit32 0x7FFFFFFF 0x42) := by
  decide
theorem test_decode_bref8 : decode .d8 [0x0D, 0x02, 0xF5] = .ok (.bref8 2 15 5) := by decide
theorem test_decode_bref16 : decode .d8 [0x0E, 0x01, 0x02, 0x21] = .ok (.bref16 0x0201 2 1) := by decide
theorem test_decode_bref32 : decode .d8 [0x0F, 0x00, 0x00, 0x00, 0x01, 0x21] = .ok (.bref32 0x01000000 2 1) := by
  decide
-- START, HDR and IE: bits 0, 4 and 5
theorem test_decode_startDecode : decode (.ctrl false) [0x31, 0, 0, 0] = .ok (.startDecode false true true) := by
  decide
-- OP = 3: bits 3..2 (vector V-D2)
theorem test_decode_startEncode : decode (.ctrl false) [0x0D, 0, 0, 0] = .ok (.startEncode false 3 false false) := by
  decide
theorem test_decode_abort : decode (.ctrl true) [0x02, 0, 0, 0] = .ok (.abort false 0 false false) := by decide
theorem test_decode_short : decode (.d24 false) [0x01, 0x03, 0xA1, 0xA2] = .error (.short 2) := by decide
theorem test_decode_no_command : decode (.ctrl false) [0x3C, 0, 0, 0] = .error .notACommand := by decide

theorem test_table_word : decodeTableWord 64 0xCCBBAA0000000500 = some (.litx 5 0xCCBBAA) := by decide
theorem test_fetch_word : nextIs (step (State.reset.withFetchWord 32 0x0302017F))
    (fun t => t.clamp && out 3 t == [0x01, 0x02, 0x03] && t.engine == .done) = true := by decide

/-! ## Single steps; the vector of 95_test_vectors or the rule is named -/

-- T-S3: the second literal of a chain
theorem test_litp : nextIs (step (busy24 2 [0xB1, 0xB2, 0xB3] 2))
    (fun t => t.pend == 1 && t.cursor == 3 && out 3 t == [0xB1, 0xB2, 0xB3] && t.engine == .busy) = true := by decide
-- V-24-10: count 3 from slot 31
theorem test_drefs : nextIs (step (busy24 4 [0xFF])) (fun t => t.remain == 1 && t.outPtr == 9 && t.cursor == 1) = true
    := by decide
-- R146: a reference to slot 5 moves slots 0 to 4 one back and keeps slot 6
theorem test_drefs_moves : nextIs (step { busy24 2 [0xA5] with
      frame24 := (((frame24Init.set 0 0xA).set 4 0xE).set 5 0xF).set 6 0x7 })
    (fun t => f24 7 t == [0xF, 0xA, 0, 0, 0, 0xE, 0x7]) = true := by decide
-- V-24-12: count 63 from slot 127, clamped here
theorem test_drefl : nextIs (step (busy24 64 [0x9F, 0xFF])) (fun t => t.remain == 1 && t.cursor == 2 && !t.clamp) = true
    := by decide
-- V-24-14: K = 0 writes nothing, sets ZRUN and still moves slot 1 to the front
theorem test_drefx_zero : nextIs (step { busy24 1 [0x80, 0x01, 0, 0, 0, 0] with frame24 := frame24Init.set 1 0x332211 })
    (fun t => t.zrun && t.outPtr == 0 && f24 2 t == [0x332211, 0] && t.engine == .busy) = true := by decide
-- T-S4 (a): K = 0xFFFFFFFF is clamped
theorem test_drefx_clamp : nextIs (step (busy24 6 [0x80, 0x00, 0xFF, 0xFF, 0xFF, 0xFF]))
    (fun t => t.clamp && t.engine == .done && t.outPtr == 18) = true := by decide
-- T-S3
theorem test_litc : nextIs (step (busy24 3 [0x01, 0x03, 0xA1, 0xA2, 0xA3]))
    (fun t => t.pend == 2 && t.cursor == 5 && out 3 t == [0xA1, 0xA2, 0xA3]) = true := by decide
-- V-24-4: m = 0 owes no literal
theorem test_litc_zero : nextIs (step (busy24 2 [0x01, 0x00, 0x01, 0x02, 0x03])) (fun t => t.pend == 0 && t.remain == 1)
    = true := by decide
-- V-24-6
theorem test_litx : nextIs (step (busy24 3 [0x00, 0x03, 0, 0, 0, 0x09, 0x08, 0x07]))
    (fun t => out 9 t == [9, 8, 7, 9, 8, 7, 9, 8, 7] && t.frame24[0] == 0x070809 && t.cursor == 8) = true := by decide
-- T-S1
theorem test_litr : nextIs (step (busy24 2 [0x02, 0x01, 0x02, 0x03]))
    (fun t => out 6 t == [1, 2, 3, 1, 2, 3] && t.engine == .done && regValue 0x008 t == 0x102) = true := by decide
-- T-S9: slot 10 to the front
theorem test_bref : nextIs (step (busy8 2 [0xB0])) (fun t => out 1 t == [0x0A] && t.frame8.toList ==
    [0x0A, 0, 1, 2, 3, 4, 5, 6, 7, 8, 9, 0x0B, 0x0C, 0x0D, 0xFF]) = true := by decide
-- T-S2: the last slot is evicted
theorem test_blit : nextIs (step (busy8 1 [0x00, 0x7F])) (fun t => out 1 t == [0x7F] && t.engine == .done &&
    t.frame8.toList == [0x7F, 0, 1, 2, 3, 4, 5, 6, 7, 8, 9, 0x0A, 0x0B, 0x0C, 0x0D]) = true := by decide
-- R183: count k + 11
theorem test_blit8 : nextIs (step (busy8 20 [0x0A, 0x02, 0x55])) (fun t => t.outPtr == 13 && t.cursor == 3) = true := by
  decide
-- R184: count k + 267
theorem test_blit16 : nextIs (step (busy8 300 [0x0B, 0x01, 0x00, 0x00])) (fun t => t.remain == 32 && t.cursor == 4) = true
    := by decide
-- R185: the count field is signed; k = -65803 gives a count of 0
theorem test_blit32_zero : nextIs (step (busy8 1 [0x0C, 0xF5, 0xFE, 0xFE, 0xFF, 0x42]))
    (fun t => t.zrun && t.remain == 1 && t.frame8[0] == 0x42) = true := by decide
-- T-S5 (a)
theorem test_blit32_clamp : nextIs (step (busy8 8 [0x0C, 0xFF, 0xFF, 0xFF, 0x7F, 0x42]))
    (fun t => t.clamp && out 8 t == List.replicate 8 0x42 && t.engine == .done) = true := by decide
-- R186, R189: base 0x10, 16 * 1 + 2 + 1 more; slot 1
theorem test_bref8 : nextIs (step (busy8 40 [0x0D, 0x01, 0x22])) (fun t => t.outPtr == 35 && t.frame8[0] == 1 &&
    !t.posfix) = true := by decide
-- R189: sel = 0 names slot 0 and sets POSFIX
theorem test_bref8_posfix : nextIs (step { busy8 40 [0x0D, 0x00, 0x00] with frame8 := frame8Init.set 0 9 })
    (fun t => t.posfix && t.outPtr == 17 && t.frame8[0] == 9 && t.frame8[1] == 1) = true := by decide
-- R187: base 0x120
theorem test_bref16 : nextIs (step (busy8 300 [0x0E, 0x00, 0x00, 0x10])) (fun t => t.remain == 11 && t.cursor == 4)
    = true := by decide
-- T-S5 (b)
theorem test_bref32 : nextIs (step (busy8 8 [0x0F, 0x00, 0x00, 0x00, 0x01, 0x21]))
    (fun t => t.clamp && out 8 t == List.replicate 8 1 && t.frame8[1] == 0 && t.cursor == 6) = true := by decide
-- R188: the count field is signed; k = -1 lowers the count by 16
theorem test_bref32_negative : nextIs (step (busy8 1 [0x0F, 0xEC, 0xEF, 0xFF, 0xFF, 0x1F]))
    (fun t => t.zrun && t.remain == 1 && !t.posfix) = true := by decide
-- T-S1 at its start
theorem test_startDecode : nextIs (exec (.startDecode false false true) (ready 2 1 24 6 [2, 1, 2, 3]))
    (fun t => t.engine == .busy && t.stride == 6 && t.remain == 2 && t.cursor == 0 && t.fmt == .bgr24 && t.ctrlIe) = true
    := by decide
-- V-D5: header mode, depth 16
theorem test_startDecode_header : nextIs (exec (.startDecode false true false)
      (ready 0 0 0 9 [0x47, 0x43, 0x6D, 0x70, 0, 0, 0, 0, 2, 0, 1, 0, 0x10, 0, 0, 0, 0]))
    (fun t => regValue 0x008 t == 0x113 && t.cursor == 16 && t.depth == 0x10 && t.width == 2 && t.fmt == .noFmt) = true
    := by decide
-- V-D1
theorem test_startEncode : nextIs (exec (.startEncode false 1 false false) (ready 2 1 24 6 [2, 1, 2, 3]))
    (fun t => regValue 0x008 t == 0x133 && t.stride == 0 && t.cursor == 0) = true := by decide
-- R132, R206
theorem test_abort : nextIs (exec (.abort false 0 false false) (busy24 2 [2, 1, 2, 3]))
    (fun t => t.abortReq && t.engine == .busy) = true := by decide
theorem test_abort_step : nextIs (step { busy24 2 [2, 1, 2, 3] with abortReq := true, schedule := [.abortStep] })
    (fun t => regValue 0x008 t == 0x153 && !t.abortReq && t.remain == 2) = true := by decide
-- V-D14: TRUNCATED undoes the iteration
theorem test_truncated : nextIs (step (busy24 2 [0x01, 0x03, 0xA1, 0xA2]))
    (fun t => regValue 0x008 t == 0x123 && t.errOff == 2 && t.cursor == 0 && t.pend == 0 && t.outMem == []) = true := by
  decide
-- V-D8: SIZE keeps STRIDE and NPIX
theorem test_size : nextIs (exec (.startDecode false false false) (ready 2 2 24 11 [0]))
    (fun t => regValue 0x008 t == 0x143 && t.stride == 6 && t.npix == 4 && t.fmt == .noFmt) = true := by decide
theorem test_register_read : nextIs (step (hosted (.readReg 0x338 .word) State.reset)) (fun t => t.busData == 0xFF) = true
    := by decide
theorem test_register_width : step (hosted (.readReg 0x008 .half) State.reset) = .refused .registerAccess := by rfl

/-! ## Witnesses: for every statement, a concrete state and operands that meet all its hypotheses together -/

theorem inv_busy24 {w : Nat} {bs : List Byte} {pend : BitVec 8} (h0 : 0 < w) (h1 : w < 65536)
    (h2 : bs.length < 2 ^ 32) (h3 : pend.toNat ≤ 254) : (busy24 w bs pend).Inv := by
  have hm : (Memory.writeBytes [] 0 bs).wf = true := Memory.wf_writeBytes bs rfl (by omega)
  have e3 : (BitVec.ofNat 32 (3 * w)).toNat = 3 * w := by
    rw [BitVec.toNat_ofNat]
    omega
  have e1 : (BitVec.ofNat 32 w).toNat = w := by
    rw [BitVec.toNat_ofNat]
    omega
  exact {
    inMem_wf := hm, outMem_wf := rfl, result_ok_iff := iff_of_true rfl nofun, idle_busy_irq := fun _ => rfl
    abortReq_busy := nofun, busy_remain := fun _ => by simpa [busy24, e1] using h0
    done_remain := nofun, busy_fmt := fun _ => nofun, fmt_path := fun _ => iff_of_true rfl rfl
    remain_le := Nat.le_refl _
    npix_le := by
      simp only [busy24, e1]
      omega
    stride_le := by
      simp only [busy24, e3]
      omega
    outPtr_eq := fun _ => by simp [busy24, State.reset, bytesPerUnit]
    busy_size := fun _ => by
      change (BitVec.ofNat 32 w).toNat * 3 = (BitVec.ofNat 32 (3 * w)).toNat * 1
      omega
    busy_fits := fun _ => by
      simp only [State.outSize, busy24, bytesPerUnit, e1, e3]
      omega
    busy_cursor := fun _ => Nat.zero_le _, busy_op := fun _ => rfl, pend_le := h3, d8_pend := nofun
    errOff_truncated := fun h => absurd rfl h }

theorem inv_busy8 {w : Nat} {bs : List Byte} (h0 : 0 < w) (h1 : w < 65536) (h2 : bs.length < 2 ^ 32) :
    (busy8 w bs).Inv := by
  have hm : (Memory.writeBytes [] 0 bs).wf = true := Memory.wf_writeBytes bs rfl (by omega)
  have e1 : (BitVec.ofNat 32 w).toNat = w := by
    rw [BitVec.toNat_ofNat]
    omega
  exact {
    inMem_wf := hm, outMem_wf := rfl, result_ok_iff := iff_of_true rfl nofun, idle_busy_irq := fun _ => rfl
    abortReq_busy := nofun, busy_remain := fun _ => by simpa [busy8, e1] using h0
    done_remain := nofun, busy_fmt := fun _ => nofun, fmt_path := fun _ => iff_of_false nofun nofun
    remain_le := Nat.le_refl _
    npix_le := by
      simp only [busy8, e1]
      omega
    stride_le := by
      simp only [busy8, e1]
      omega
    outPtr_eq := fun _ => by simp [busy8, State.reset, bytesPerUnit]
    busy_size := fun _ => by simp [State.outSize, busy8, bytesPerUnit, e1]
    busy_fits := fun _ => by simp [State.outSize, busy8, bytesPerUnit, e1]
    busy_cursor := fun _ => Nat.zero_le _, busy_op := fun _ => rfl, pend_le := Nat.zero_le _, d8_pend := fun _ => rfl
    errOff_truncated := fun h => absurd rfl h }

/-- The invariant does not speak of the turns to come. -/
theorem inv_schedule {s : State} (h : s.Inv) (turns : List Turn) : ({ s with schedule := turns } : State).Inv :=
  { inMem_wf := h.inMem_wf, outMem_wf := h.outMem_wf, result_ok_iff := h.result_ok_iff
    idle_busy_irq := h.idle_busy_irq, abortReq_busy := h.abortReq_busy, busy_remain := h.busy_remain
    done_remain := h.done_remain, busy_fmt := h.busy_fmt, fmt_path := h.fmt_path, remain_le := h.remain_le
    npix_le := h.npix_le, stride_le := h.stride_le, outPtr_eq := h.outPtr_eq, busy_size := h.busy_size
    busy_fits := h.busy_fits, busy_cursor := h.busy_cursor, busy_op := h.busy_op, pend_le := h.pend_le
    d8_pend := h.d8_pend, errOff_truncated := h.errOff_truncated }

/-- The code ends exactly at IN_LEN. -/
def EndsAtLimit (i : Instr) (s : State) : Prop := s.cursor.toNat + i.length = s.inLen.toNat

/-- Field `k` of the code is the one that IN_LEN cuts off, by one byte. -/
def CutInField (i : Instr) (s : State) (k : Nat) : Prop :=
  k < i.fields.length ∧ s.cursor.toNat + (i.fields.take k).sum ≤ s.inLen.toNat ∧
  s.inLen.toNat < s.cursor.toNat + (i.fields.take (k + 1)).sum

/-- Both clauses of a D24 code's effect at their boundaries, in states that meet its hypotheses. -/
def Meets24 (i : Instr) (pend : BitVec 8) (k : Nat) : Prop :=
  let s := busy24 2 (encode i) pend
  let c := busy24 2 ((encode i).take (i.length - 1)) pend
  (s.Inv ∧ s.engine = .busy ∧ s.path = .d24 ∧ s.pend = pend ∧ EndsAtLimit i s) ∧
  (c.Inv ∧ c.engine = .busy ∧ c.path = .d24 ∧ c.pend = pend ∧ CutInField i c k)

/-- Both clauses of a D8 code's effect at their boundaries. -/
def Meets8 (i : Instr) (k : Nat) : Prop :=
  let s := busy8 2 (encode i)
  let c := busy8 2 ((encode i).take (i.length - 1))
  (s.Inv ∧ s.engine = .busy ∧ s.path = .d8 ∧ EndsAtLimit i s) ∧
  (c.Inv ∧ c.engine = .busy ∧ c.path = .d8 ∧ CutInField i c k)

theorem meets24 {i : Instr} {pend : BitVec 8} {k : Nat} (hl : (encode i).length < 2 ^ 32) (hp : pend.toNat ≤ 254)
    (he : EndsAtLimit i (busy24 2 (encode i) pend))
    (hc : CutInField i (busy24 2 ((encode i).take (i.length - 1)) pend) k) : Meets24 i pend k :=
  ⟨⟨inv_busy24 (by decide) (by decide) hl hp, rfl, rfl, rfl, he⟩,
    ⟨inv_busy24 (by decide) (by decide) (lt_of_le_of_lt (List.length_take_le' _ _) hl) hp, rfl, rfl, rfl, hc⟩⟩

theorem meets8 {i : Instr} {k : Nat} (hl : (encode i).length < 2 ^ 32) (he : EndsAtLimit i (busy8 2 (encode i)))
    (hc : CutInField i (busy8 2 ((encode i).take (i.length - 1))) k) : Meets8 i k :=
  ⟨⟨inv_busy8 (by decide) (by decide) hl, rfl, rfl, he⟩,
    ⟨inv_busy8 (by decide) (by decide) (lt_of_le_of_lt (List.length_take_le' _ _) hl), rfl, rfl, hc⟩⟩

theorem wit_LitpEffect : Meets24 (.litp 0x030201) 1 0 :=
  meets24 (by decide) (by decide) (by unfold EndsAtLimit; decide) (by unfold CutInField; decide)
theorem wit_DrefsEffect : Meets24 (.drefs 1 31) 0 0 :=
  meets24 (by decide) (by decide) (by unfold EndsAtLimit; decide) (by unfold CutInField; decide)
theorem wit_DreflEffect : Meets24 (.drefl 31 1 127) 0 1 :=
  meets24 (by decide) (by decide) (by unfold EndsAtLimit; decide) (by unfold CutInField; decide)
theorem wit_DrefxEffect : Meets24 (.drefx 127 0xFFFFFFFF) 0 2 :=
  meets24 (by decide) (by decide) (by unfold EndsAtLimit; decide) (by unfold CutInField; decide)
theorem wit_LitcEffect : Meets24 (.litc 255 0x030201) 0 2 :=
  meets24 (by decide) (by decide) (by unfold EndsAtLimit; decide) (by unfold CutInField; decide)
theorem wit_LitxEffect : Meets24 (.litx 0 0x030201) 0 2 :=
  meets24 (by decide) (by decide) (by unfold EndsAtLimit; decide) (by unfold CutInField; decide)
theorem wit_LitrEffect : Meets24 (.litr 127 0x030201) 0 1 :=
  meets24 (by decide) (by decide) (by unfold EndsAtLimit; decide) (by unfold CutInField; decide)
theorem wit_BrefEffect : Meets8 (.bref 1 15) 0 ∧ Meets8 (.bref 15 0) 0 ∧ (15 : BitVec 4) ≠ 0 :=
  ⟨meets8 (by decide) (by unfold EndsAtLimit; decide) (by unfold CutInField; decide),
    meets8 (by decide) (by unfold EndsAtLimit; decide) (by unfold CutInField; decide), by decide⟩
theorem wit_LiteralRunEffects8 :
    Meets8 (.blit 9 1) 1 ∧ Meets8 (.blit8 255 1) 2 ∧ Meets8 (.blit16 0xFFFF 1) 2 ∧ Meets8 (.blit32 0x80000000 1) 2 :=
  ⟨meets8 (by decide) (by unfold EndsAtLimit; decide) (by unfold CutInField; decide),
    meets8 (by decide) (by unfold EndsAtLimit; decide) (by unfold CutInField; decide),
    meets8 (by decide) (by unfold EndsAtLimit; decide) (by unfold CutInField; decide),
    meets8 (by decide) (by unfold EndsAtLimit; decide) (by unfold CutInField; decide)⟩
theorem wit_EscapeReferenceEffects8 :
    Meets8 (.bref8 255 0 15) 2 ∧ Meets8 (.bref16 0xFFFF 1 0) 2 ∧ Meets8 (.bref32 0x80000000 15 0) 2 :=
  ⟨meets8 (by decide) (by unfold EndsAtLimit; decide) (by unfold CutInField; decide),
    meets8 (by decide) (by unfold EndsAtLimit; decide) (by unfold CutInField; decide),
    meets8 (by decide) (by unfold EndsAtLimit; decide) (by unfold CutInField; decide)⟩

/-- A step from `s`, in its invariant, that ends in a next state with `p`. -/
def StepsWith (s : State) (p : State → Bool) : Prop := s.Inv ∧ ∃ t, step s = .next t ∧ p t = true

theorem stepsWith {s : State} {p : State → Bool} (hi : s.Inv) (h : nextIs (step s) p = true) : StepsWith s p :=
  ⟨hi, exists_of_nextIs h⟩

-- an iteration that goes on, one that ends DONE, one that ends TRUNCATED
theorem wit_EveryStepKeepsInvariant :
    StepsWith (busy24 2 [0xA1]) (fun t => t.engine == .busy) ∧
    StepsWith (busy24 1 [0xA0]) (fun t => t.engine == .done) ∧
    StepsWith (busy8 1 []) (fun t => t.engine == .fail) :=
  ⟨stepsWith (inv_busy24 (by decide) (by decide) (by decide) (by decide)) (by decide),
    stepsWith (inv_busy24 (by decide) (by decide) (by decide) (by decide)) (by decide),
    stepsWith (inv_busy8 (by decide) (by decide) (by decide)) (by decide)⟩

theorem wit_InvariantStepsNeverFault : (busy24 1 [0x00, 0xFF, 0xFF, 0xFF, 0xFF, 1, 2, 3]).Inv :=
  inv_busy24 (by decide) (by decide) (by decide) (by decide)

-- each way: a read, a write, the input, and the output's last owned byte
theorem wit_OnlyIllegalHostMovesAreRefused :
    step (hosted (.readReg 0x006 .word) State.reset) = .refused .registerAccess ∧
    step (hosted (.writeReg 0x004 .byte 1) State.reset) = .refused .registerAccess ∧
    step (hosted (.writeInput 0 1) (busy8 2 [])) = .refused .bufferOwnedByEngine ∧
    step (hosted (.readOutput 1) (busy8 2 [])) = .refused .bufferOwnedByEngine ∧
    step (hosted (.writeOutput 5 1) (busy24 2 [])) = .refused .bufferOwnedByEngine := ⟨rfl, rfl, rfl, rfl, rfl⟩

theorem wit_ResetMoveResetsTheCore :
    (hosted .reset State.reset).schedule = .host .reset :: [] ∧ State.reset.engine ≠ .busy ∧
    (hosted .reset (busy24 1 [])).schedule = .host .reset :: [] ∧ (hosted .reset (busy24 1 [])).engine = .busy := by
  decide

theorem wit_DecodeOfEncodeIsTheInstruction :
    (Instr.drefs 1 0).wf = true ∧ (Instr.drefl 31 0 127).wf = true ∧ (Instr.litr 2 0).wf = true ∧
    (Instr.bref 15 15).wf = true ∧ (Instr.blit 9 0).wf = true ∧ (Instr.startEncode true 3 true true).wf = true := by
  decide

theorem wit_CodesHaveOneEncoding :
    decodeCode .d24 false [0x02, 1, 2, 3] = .code (.litr 2 0x030201) ∧ decodeCode .d24 true [1, 2, 3] =
      .code (.litp 0x030201) ∧ decodeCode .d8 false [0x10] = .code (.bref 1 0) := by decide

-- each clause at both ends of its range
theorem wit_D24OpcodeMap :
    decode24 false [0x02, 0, 0, 0, 0, 0, 0, 0] = .code (.litr 2 0) ∧
    decode24 false [0x7F, 0, 0, 0, 0, 0, 0, 0] = .code (.litr 127 0) ∧
    decode24 false [0x80, 0x7F, 0, 0, 0, 0, 0, 0] = .code (.drefx 127 0) ∧
    decode24 false [0x80, 0x80, 0, 0, 0, 0, 0, 0] = .code (.drefl 0 1 0) ∧
    decode24 false [0x81, 0, 0, 0, 0, 0, 0, 0] = .code (.drefl 1 0 0) ∧
    decode24 false [0x9F, 0, 0, 0, 0, 0, 0, 0] = .code (.drefl 31 0 0) ∧
    decode24 false [0xA0, 0, 0, 0, 0, 0, 0, 0] = .code (.drefs 1 0) ∧
    decode24 false [0xBF, 0, 0, 0, 0, 0, 0, 0] = .code (.drefs 1 31) ∧
    decode24 false [0xC0, 0, 0, 0, 0, 0, 0, 0] = .code (.drefs 2 0) ∧
    decode24 false [0xE0, 0, 0, 0, 0, 0, 0, 0] = .code (.drefs 3 0) := by decide

theorem wit_D8OpcodeMap :
    decode8 [0x00, 1, 0, 0, 0, 0] = .code (.blit 0 1) ∧ decode8 [0x09, 1, 0, 0, 0, 0] = .code (.blit 9 1) ∧
    decode8 [0x10, 1, 0, 0, 0, 0] = .code (.bref 1 0) ∧ decode8 [0xFF, 1, 0, 0, 0, 0] = .code (.bref 15 15) := by
  decide

-- both ways the engine moves next
theorem wit_StepRunsTheDecodedCode :
    (busy24 1 [0xA0]).engineNext [] ∧ decodeCode .d24 false (fetchBytes (busy24 1 [0xA0])) = .code (.drefs 1 0) ∧
    ({ busy24 1 [0xA0] with abortReq := true, schedule := [.engine, .abortStep] } : State).engineNext [.abortStep] :=
  ⟨⟨rfl, .inl ⟨rfl, rfl, rfl⟩⟩, by decide, ⟨rfl, .inr rfl⟩⟩

theorem wit_StepRunsTheCodeAtCursor :
    (busy24 2 [1, 2, 3] 1).engineNext [] ∧ (Instr.litp 0x030201).ctx = (busy24 2 [1, 2, 3] 1).codeCtx ∧
    (Instr.litp 0x030201).wf = true ∧ (busy24 2 [1, 2, 3] 1).streamHas (encode (.litp 0x030201)) :=
  ⟨⟨rfl, .inl ⟨rfl, rfl, rfl⟩⟩, by decide, rfl, by unfold State.streamHas; decide⟩

theorem wit_StepRunsTheCutOffCode :
    (busy8 2 [0x0B, 0x01]).engineNext [] ∧ (Instr.blit16 1 7).ctx = (busy8 2 [0x0B, 0x01]).codeCtx ∧
    (Instr.blit16 1 7).wf = true ∧ 2 < (Instr.blit16 1 7).length ∧
    (busy8 2 [0x0B, 0x01]).inLen.toNat = (busy8 2 [0x0B, 0x01]).cursor.toNat + 2 ∧
    (busy8 2 [0x0B, 0x01]).streamHas ((encode (.blit16 1 7)).take 2) :=
  ⟨⟨rfl, .inl ⟨rfl, rfl, rfl⟩⟩, by decide, rfl, by decide, by decide, by unfold State.streamHas; decide⟩

theorem wit_StepRunsTheHostCommand :
    (hosted (.writeReg 0x004 .word 0x21) State.reset).schedule = .host (.writeReg 0x004 .word 0x21) :: [] ∧
    decodeCtrl (State.reset.engine == .busy) 0x21 = some (.startDecode false false true) := by decide

theorem wit_FramesOfTheD24Codes :
    (∃ t, exec (.litp 1) (busy24 2 [1, 0, 0] 1) = .next t) ∧ (∃ t, exec (.drefs 1 0) (busy24 2 [0xA0]) = .next t) ∧
    (∃ t, exec (.drefl 1 0 0) (busy24 2 [0x81, 0]) = .next t) ∧
    (∃ t, exec (.drefx 0 1) (busy24 2 [0x80, 0, 1, 0, 0, 0]) = .next t) ∧
    (∃ t, exec (.litc 1 1) (busy24 2 [1, 1, 1, 0, 0]) = .next t) ∧
    (∃ t, exec (.litx 1 1) (busy24 2 [0, 1, 0, 0, 0, 1, 0, 0]) = .next t) ∧
    (∃ t, exec (.litr 2 1) (busy24 2 [2, 1, 0, 0]) = .next t) := by
  refine ⟨?_, ?_, ?_, ?_, ?_, ?_, ?_⟩ <;>
    exact next_of_nextIs (p := fun t => t.result == .ok) (by decide)

theorem wit_FramesOfTheD8Codes :
    (∃ t, exec (.bref 1 0) (busy8 2 [0x10]) = .next t) ∧ (∃ t, exec (.blit 0 1) (busy8 2 [0, 1]) = .next t) ∧
    (∃ t, exec (.blit8 0 1) (busy8 2 [0xA, 0, 1]) = .next t) ∧
    (∃ t, exec (.blit16 0 1) (busy8 2 [0xB, 0, 0, 1]) = .next t) ∧
    (∃ t, exec (.blit32 0 1) (busy8 2 [0xC, 0, 0, 0, 0, 1]) = .next t) ∧
    (∃ t, exec (.bref8 0 0 1) (busy8 2 [0xD, 0, 1]) = .next t) ∧
    (∃ t, exec (.bref16 0 0 1) (busy8 2 [0xE, 0, 0, 1]) = .next t) ∧
    (∃ t, exec (.bref32 0 0 1) (busy8 2 [0xF, 0, 0, 0, 0, 1]) = .next t) := by
  refine ⟨?_, ?_, ?_, ?_, ?_, ?_, ?_, ?_⟩ <;>
    exact next_of_nextIs (p := fun t => t.result == .ok) (by decide)

-- in each state of the engine
theorem wit_FramesOfTheHostCommands :
    (∃ t, exec (.startDecode false false true) State.reset = .next t) ∧ State.reset.engine ≠ .busy ∧
    (∃ t, exec (.startEncode false 1 false true) State.reset = .next t) ∧
    (∃ t, exec (.abort false 0 true true) (busy24 1 []) = .next t) ∧ (busy24 1 []).engine = .busy :=
  ⟨⟨_, rfl⟩, by decide, ⟨_, rfl⟩, ⟨_, rfl⟩, rfl⟩

-- a declined depth, the three legal ones, one byte too little, exactly enough, and an empty image
theorem wit_StartDecodeDirectMode :
    (ready 2 2 24 12 []).engine ≠ .busy ∧
    ((7 : BitVec 8) ≠ 1 ∧ (7 : BitVec 8) ≠ 8 ∧ (7 : BitVec 8) ≠ 24) ∧
    (ready 2 2 24 11 []).outCap.toNat < imageStride 2 24 * (2 : BitVec 16).toNat ∧
    imageStride 2 24 * (2 : BitVec 16).toNat ≤ (ready 2 2 24 12 []).outCap.toNat ∧ imageUnits 2 2 24 ≠ 0 ∧
    imageStride 9 1 * (1 : BitVec 16).toNat ≤ (ready 9 1 1 2 []).outCap.toNat ∧ imageUnits 9 1 1 = 2 ∧
    imageStride 5 8 * (0 : BitVec 16).toNat ≤ (ready 5 0 8 0 []).outCap.toNat ∧ imageUnits 5 0 8 = 0 := by decide

theorem wit_StartDecodeHeaderMode :
    (ready 0 0 0 9 (List.replicate 15 0)).engine ≠ .busy ∧ (ready 0 0 0 9 (List.replicate 15 0)).inLen.toNat < 16 ∧
    (ready 0 0 0 9 (List.replicate 16 0)).engine ≠ .busy ∧ 16 ≤ (ready 0 0 0 9 (List.replicate 16 0)).inLen.toNat := by
  decide

theorem wit_StartEncodeEndsUnsupported :
    State.reset.engine ≠ .busy ∧ (1 : BitVec 2) ≠ 0 ∧ (2 : BitVec 2) ≠ 0 ∧ (3 : BitVec 2) ≠ 0 := by decide

theorem wit_StartWhileBusyIsIgnored : (busy24 1 []).engine = .busy := rfl

theorem wit_AbortRequestsTheAbortStep : (busy24 1 []).engine = .busy ∧ State.reset.engine ≠ .busy := by decide

theorem wit_AbortStepEndsTheDecode :
    let s : State := { busy24 1 [] with schedule := [.abortStep] }
    (s.schedule = .abortStep :: [] ∧ s.engine = .busy ∧ s.abortReq = false) ∧
    ({ s with abortReq := true } : State).abortReq = true ∧ s.Inv ∧ State.reset.engine ≠ .busy :=
  ⟨by decide, rfl, inv_schedule (inv_busy24 (by decide) (by decide) (by decide) (by decide)) _, by decide⟩

-- while BUSY, and in any state at the ends of the two read-only ranges
theorem wit_IgnoredRegisterWrites :
    let w := fun (off : BitVec 10) => HostMove.writeReg off .word 5
    ((hosted (w 0x00C) (busy8 1 [])).schedule = .host (w 0x00C) :: [] ∧ (busy8 1 []).engine = .busy) ∧
    ((hosted (w 0x000) State.reset).schedule = .host (w 0x000) :: [] ∧ (0x000 : BitVec 10).toNat < 0x00C) ∧
    (hosted (w 0x020) State.reset).schedule = .host (w 0x020) :: [] ∧ 0x020 ≤ (0x020 : BitVec 10).toNat ∧
    (0x00C : BitVec 10).toNat % 4 = 0 ∧ (0x3FC : BitVec 10).toNat % 4 = 0 := by decide

theorem wit_ConfigurationWritesStore :
    let w := fun (off : BitVec 10) => HostMove.writeReg off .word 5
    State.reset.engine ≠ .busy ∧ (hosted (w 0x00C) State.reset).schedule = .host (w 0x00C) :: [] ∧
    (hosted (w 0x010) State.reset).schedule = .host (w 0x010) :: [] ∧
    (hosted (w 0x014) State.reset).schedule = .host (w 0x014) :: [] ∧
    (hosted (w 0x018) State.reset).schedule = .host (w 0x018) :: [] ∧
    (hosted (w 0x01C) State.reset).schedule = .host (w 0x01C) :: [] := by decide

theorem wit_StatusWriteClearsIrqPend :
    (hosted (.writeReg 0x008 .word 0x100) State.reset).schedule = .host (.writeReg 0x008 .word 0x100) :: [] ∧
    (0x100 : Word).getLsbD 8 = true ∧ (0xFF : Word).getLsbD 8 = false := by decide

-- not BUSY and BUSY, with IE set and clear
theorem wit_InterruptEnableGatesTheLine :
    (∀ s ∈ [State.reset, busy8 1 []], (hosted (.writeReg 0x004 .word 0x3C) s).schedule =
      .host (.writeReg 0x004 .word 0x3C) :: []) ∧
    State.reset.engine ≠ .busy ∧ (busy8 1 []).engine = .busy ∧
    (0x3C : Word).getLsbD 0 = false ∧ (0x3C : Word).getLsbD 1 = false ∧ (0x3C : Word).getLsbD 5 = true ∧
    (0x00 : Word).getLsbD 5 = false := by decide

-- each clause at the ends of its range
theorem wit_BusyProgressReadsKeepReservedBits :
    (busy8 1 []).engine = .busy ∧ (∀ off ∈ [0x000, 0x028, 0x038, 0x040, 0x0FC, 0x100, 0x2FC, 0x300, 0x338, 0x33C, 0x3FC],
      (off : BitVec 10).toNat % 4 = 0 ∧
      (hosted (.readReg off .word) (busy8 1 [])).schedule = .host (.readReg off .word) :: []) := by decide

theorem wit_IdleReadsReturnTheRegister :
    State.reset.engine ≠ .busy ∧ (∀ off ∈ [0x000, 0x004, 0x008, 0x00C, 0x010, 0x014, 0x018, 0x01C, 0x020, 0x024, 0x028,
      0x02C, 0x030, 0x034, 0x038, 0x03C, 0x040, 0x0FC, 0x100, 0x2FC, 0x300, 0x338, 0x33C, 0x3FC], (off : BitVec 10).toNat % 4 = 0 ∧
      (hosted (.readReg off .word) State.reset).schedule = .host (.readReg off .word) :: []) := by decide

-- not BUSY at the last offset (log 14); while BUSY an input byte below IN_LEN, and the first output byte the engine does
-- not own, below OUT_CAP
theorem wit_HostBufferAccesses :
    let r := hosted (.writeInput 0xFFFFFFFF 1) State.reset
    let b := fun m => hosted m { busy24 2 [0xA0] with outCap := 7 }
    (r.Inv ∧ r.engine ≠ .busy ∧ r.schedule = .host (.writeInput 0xFFFFFFFF 1) :: []) ∧
    (∀ m ∈ [.readInput 0, .writeOutput 6 1, .readOutput 6], (b m).Inv ∧ (b m).engine = .busy ∧
      (b m).schedule = .host m :: [] ∧ (b m).npix.toNat * bytesPerUnit (b m).path = (6 : Word).toNat ∧
      0 < (b m).inLen.toNat ∧ (6 : Word).toNat < (b m).outCap.toNat) :=
  ⟨⟨by constructor <;> decide, by decide, rfl⟩,
    fun m _ => ⟨inv_schedule (s := { busy24 2 [0xA0] with outCap := 7 }) (by constructor <;> decide) _, rfl, rfl, rfl,
      show 0 < 1 by decide, show 6 < 7 by decide⟩⟩

theorem wit_IllegalHostMovesAreRefused :
    let s := fun m => hosted m (busy24 2 [])
    (∀ m ∈ [.readReg 0x008 .half, .writeReg 0x001 .word 1, .writeInput 0 1, .readOutput 5, .writeOutput 0 1],
      (s m).schedule = .host m :: [] ∧ (s m).engine = .busy) ∧
    AccessSize.half ≠ .word ∧ (0x001 : BitVec 10).toNat % 4 ≠ 0 ∧
    (5 : Word).toNat < (busy24 2 []).npix.toNat * bytesPerUnit (busy24 2 []).path := by decide

-- reset, a start, the end of a decode
theorem wit_EngineStateTransitions :
    (∃ t, step (hosted .reset (busy24 1 [])) = .next t ∧ (t.engine == .idle) = true) ∧
    (∃ t, step (hosted (.writeReg 0x004 .word 1) (ready 1 1 8 1 [])) = .next t ∧ (t.engine == .busy) = true) ∧
    (∃ t, step (busy24 1 [0xA0]) = .next t ∧ (t.engine == .done) = true) :=
  ⟨⟨_, rfl, rfl⟩, exists_of_nextIs (p := fun t => t.engine == .busy) (by decide),
    exists_of_nextIs (p := fun t => t.engine == .done) (by decide)⟩

-- each of the three bits, cleared by a start
theorem wit_InfoBitsAreSticky :
    ∃ t, step (hosted (.writeReg 0x004 .word 1) { State.reset with clamp := true, zrun := true, posfix := true }) =
      .next t ∧ (!t.clamp && !t.zrun && !t.posfix) = true :=
  exists_of_nextIs (p := fun t => !t.clamp && !t.zrun && !t.posfix) (by decide)

theorem wit_DecodeParametersAreStable :
    let s := hosted (.writeReg 0x00C .word 9) (busy24 2 [0xA0])
    s.engine = .busy ∧ (∃ t, step s = .next t) ∧ (∀ rest, s.schedule ≠ .host .reset :: rest) :=
  ⟨rfl, next_of_nextIs (p := fun t => t.width == 2) (by decide), fun _ h => by cases h⟩

theorem wit_IdleCoreDoesNothing : State.reset.schedule = [] ∧ State.reset.engine ≠ .busy := by decide

-- an iteration that writes, and one that fails
theorem wit_EngineWritesForwardBelowTheImage :
    StepsWith (busy24 2 [0x02, 1, 2, 3]) (fun t => t.outPtr == 6) ∧ (busy24 2 [0x02, 1, 2, 3]).engineNext [] :=
  ⟨stepsWith (inv_busy24 (by decide) (by decide) (by decide) (by decide)) (by decide), rfl, .inl ⟨rfl, rfl, rfl⟩⟩

theorem wit_DoneDecodesFillTheImage :
    StepsWith (busy24 2 [0x02, 1, 2, 3]) (fun t => t.engine == .done) ∧ (busy24 2 [0x02, 1, 2, 3]).engineNext [] ∧
    StepsWith (busy8 2 [0x00]) (fun t => t.engine == .fail) ∧ (busy8 2 [0x00]).engineNext [] :=
  ⟨stepsWith (inv_busy24 (by decide) (by decide) (by decide) (by decide)) (by decide), ⟨rfl, .inl ⟨rfl, rfl, rfl⟩⟩,
    stepsWith (inv_busy8 (by decide) (by decide) (by decide)) (by decide), rfl, .inl ⟨rfl, rfl, rfl⟩⟩

theorem wit_IterationsMoveTheCursorForward :
    StepsWith (busy8 2 [0x10]) (fun t => t.cursor == 1) ∧ (busy8 2 [0x10]).engineNext [] ∧
    StepsWith (busy8 2 [0x00]) (fun t => t.cursor == 0 && t.result == .truncated) ∧ (busy8 2 [0x00]).engineNext [] :=
  ⟨stepsWith (inv_busy8 (by decide) (by decide) (by decide)) (by decide), ⟨rfl, .inl ⟨rfl, rfl, rfl⟩⟩,
    stepsWith (inv_busy8 (by decide) (by decide) (by decide)) (by decide), rfl, .inl ⟨rfl, rfl, rfl⟩⟩

theorem wit_EveryDecodeEnds :
    (busy24 2 [0xA0, 0x01]).Inv ∧ (busy24 2 [0xA0, 0x01]).engine = .busy ∧ (busy24 2 [0xA0, 0x01]).schedule = [] :=
  ⟨inv_busy24 (by decide) (by decide) (by decide) (by decide), rfl, rfl⟩

-- a space that differs past IN_LEN
theorem wit_OnlyTheStreamIsRead :
    (busy8 2 [0x10]).engineNext [] ∧ (∀ a, (busy8 2 [0x10]).cursor.toNat ≤ a → a < (busy8 2 [0x10]).inLen.toNat →
      Memory.read [(0, 0x10), (1, 0x55)] a = (busy8 2 [0x10]).inMem.read a) :=
  ⟨⟨rfl, .inl ⟨rfl, rfl, rfl⟩⟩, fun a _ h => by
    obtain rfl : a = 0 := Nat.lt_one_iff.1 h
    rfl⟩

-- two cores with different histories and flags
theorem wit_StartForgetsEarlierDecodes :
    let s := ready 2 1 8 2 [0x10]
    let u : State := { s with frame8 := frame8Init.set 0 7, clamp := true, engine := .done, pend := 9 }
    s.engine ≠ .busy ∧ u.engine ≠ .busy ∧ s.width = u.width ∧ s.height = u.height ∧ s.depth = u.depth ∧
    s.inLen = u.inLen ∧ s.outCap = u.outCap ∧ (∀ a, a < 16 → s.inMem.read a = u.inMem.read a) := by decide

-- the first reference by DREFX to the last slot, the second by DREFS
theorem wit_MoveToFrontTwiceOnD24 :
    let s := busy24 3 [0x80, 0x7F, 1, 0, 0, 0, 0xA0]
    References24 (.drefx 127 1) 127 ∧ References24 (.drefs 1 0) 0 ∧ s.Inv ∧
    ∃ t u, exec (.drefx 127 1) s = .next t ∧ t.engine = .busy ∧ exec (.drefs 1 0) t = .next u ∧ u.result ≠ .truncated :=
  ⟨.inr (.inr ⟨127, 1, rfl, rfl⟩), .inl ⟨1, 0, rfl, rfl⟩, inv_busy24 (by decide) (by decide) (by decide) (by decide),
    _, _, rfl, by decide, rfl, by decide⟩

-- the first reference by BREF to the last slot, the second by BREF8 with the fixed slot
theorem wit_MoveToFrontTwiceOnD8 :
    let s := busy8 30 [0xF0, 0x0D, 0x00, 0x01]
    References8 (.bref 15 0) 14 ∧ References8 (.bref8 0 0 1) 0 ∧ s.Inv ∧
    ∃ t u, exec (.bref 15 0) s = .next t ∧ t.engine = .busy ∧ exec (.bref8 0 0 1) t = .next u ∧ u.result ≠ .truncated :=
  ⟨.inl ⟨15, 0, rfl, rfl⟩, .inr (.inl ⟨0, 0, 1, rfl, rfl⟩), inv_busy8 (by decide) (by decide) (by decide),
    _, _, rfl, by decide, rfl, by decide⟩

-- as many pixels as literals, and one pixel more
theorem wit_LiteralChainCopiesTheStream :
    (∀ w ∈ [2, 3], let s := busy24 w [0x01, 0x02, 1, 2, 3, 4, 5, 6]
      s.engine = .busy ∧ s.path = .d24 ∧ s.pend = 0 ∧ s.schedule = [] ∧ s.abortReq = false ∧
      s.inMem.read s.cursor.toNat = 0x01 ∧ s.inMem.read (s.cursor.toNat + 1) = 2 ∧
      s.cursor.toNat + 2 + 3 * min (2 : Byte).toNat s.remain.toNat ≤ s.inLen.toNat) ∧
    (busy24 2 [0x01, 0x02, 1, 2, 3, 4, 5, 6]).Inv ∧ (busy24 3 [0x01, 0x02, 1, 2, 3, 4, 5, 6]).Inv :=
  ⟨by decide, inv_busy24 (by decide) (by decide) (by decide) (by decide),
    inv_busy24 (by decide) (by decide) (by decide) (by decide)⟩

-- each of the four pairs
theorem wit_RedundantEncodingsAgree :
    let s := busy24 2 [0, 0, 0, 0, 0, 0, 0, 0]
    (∃ t, exec (.drefx 127 63) s = .next t) ∧ (∃ u, exec (.drefl 31 1 127) s = .next u) ∧
    (∃ t, exec (.drefl 1 1 31) s = .next t) ∧ (∃ u, exec (.drefs 3 31) s = .next u) ∧
    (∃ t, exec (.litx 2 5) s = .next t) ∧ (∃ u, exec (.litr 2 5) s = .next u) ∧
    (∃ t, exec (.litx 1 5) s = .next t) ∧ (∃ u, exec (.litc 0 5) s = .next u) ∧
    s.cursor.toNat + (Instr.litx 2 5).length ≤ s.inLen.toNat := by
  refine ⟨?_, ?_, ?_, ?_, ?_, ?_, ?_, ?_, by decide⟩ <;>
    exact next_of_nextIs (p := fun t => t.result == .ok) (by decide)

end Sys2Proof.Tests
end

/-! ## Register and buffer accesses: what a move of the host or the platform can do -/

namespace Sys2Proof.Machine

theorem busy_iff (s : State) : s.busy = true ↔ s.engine = .busy := by
  simp [State.busy]

theorem not_busy_iff (s : State) : ¬ s.busy = true ↔ s.engine ≠ .busy :=
  not_congr (busy_iff s)

theorem ownsOutput_iff (a : Word) (s : State) :
    ownsOutput a s = true ↔ s.engine = .busy ∧ a.toNat < s.npix.toNat * bytesPerUnit s.path := by
  rw [ownsOutput, Bool.and_eq_true, busy_iff, decide_eq_true_eq, State.outSize]

theorem alignedWord_iff (off : BitVec 10) (size : AccessSize) :
    alignedWord off size = true ↔ size = .word ∧ off.toNat % 4 = 0 := by
  simp [alignedWord]

/-- A CTRL write is `ctrlWrite` of the written fields, whatever command it is (10_state R24; log 11, log 12). -/
theorem writeCtrl_eq (v : Word) (s : State) :
    writeCtrl v s =
      .next (ctrlWrite (ctrlStart v) (ctrlAbort v) (ctrlOpField v) (ctrlHdrField v) (ctrlIeField v) s) := by
  unfold writeCtrl decodeCtrl
  by_cases ha : (ctrlAbort v && (s.busy || !ctrlStart v)) = true
  · rw [if_pos ha, ((Bool.and_eq_true _ _).mp ha).1]
    rfl
  · rw [if_neg ha]
    cases hs : ctrlStart v
    · have ha : ctrlAbort v = false := by simpa [hs] using ha
      simp [ha]
    · by_cases ho : ctrlOpField v = 0
      · rw [if_pos rfl, if_pos ho, ho]
        rfl
      · rw [if_pos rfl, if_neg ho]
        rfl

/-- What a move of the host or the platform leaves when it has a next state. -/
inductive HostTo (m : HostMove) (s t : State) : Prop where
  /-- At most the read data changes: a read, or a write that is ignored. -/
  | bus (h : t = { s with busData := t.busData, freeIdx := t.freeIdx })
  /-- A CTRL write. -/
  | ctrl (v : Word) (hm : m = .writeReg 0x004 .word v)
      (h : t = ctrlWrite (ctrlStart v) (ctrlAbort v) (ctrlOpField v) (ctrlHdrField v) (ctrlIeField v) s)
  /-- A STATUS write. -/
  | status (b : Bool) (h : t = { s with irqPend := s.irqPend && b })
  /-- A write to a configuration register when not BUSY. -/
  | config (hn : s.engine ≠ .busy)
      (h : t = { s with width := t.width, height := t.height, depth := t.depth, inLen := t.inLen, outCap := t.outCap })
  /-- A write to the input space when not BUSY. -/
  | input (hn : s.engine ≠ .busy) (a : Word) (b : Byte) (h : t = { s with inMem := s.inMem.write a.toNat b })
  /-- A write to an output byte that the engine does not own. -/
  | output (a : Word) (b : Byte) (h : t = { s with outMem := s.outMem.write a.toNat b })
  /-- The reset. -/
  | reset (hm : m = .reset) (h : t = hardReset s)

/-- The outcomes of a move: a next state, or one of the refusals of 10_state R22 and 20_memory R84. -/
inductive HostEnd (m : HostMove) (s : State) : Out → Prop where
  | next (t : State) (h : HostTo m s t) : HostEnd m s (.next t)
  | notAlignedWord (off : BitVec 10) (size : AccessSize) (ha : alignedWord off size = false)
      (hm : m = .readReg off size ∨ ∃ v, m = .writeReg off size v) : HostEnd m s (.refused .registerAccess)
  | inputOwned (hb : s.engine = .busy) (a : Word) (b : Byte) (hm : m = .writeInput a b) :
      HostEnd m s (.refused .bufferOwnedByEngine)
  | outputOwned (a : Word) (ho : ownsOutput a s = true) (hm : m = .readOutput a ∨ ∃ b, m = .writeOutput a b) :
      HostEnd m s (.refused .bufferOwnedByEngine)

/-- A register read changes the read data only. -/
theorem readReg_eq (off : Nat) (s : State) :
    readReg off s = { s with busData := (readReg off s).busData, freeIdx := (readReg off s).freeIdx } := by
  unfold readReg
  split <;> rfl

/-- All that a register write other than CTRL's can do. -/
theorem writeReg_cases (m : HostMove) (off : Nat) (v : Word) (s : State) : HostTo m s (writeReg off v s) := by
  unfold writeReg
  split
  · exact .status _ rfl
  · split
    · exact .bus rfl
    · rename_i hb
      have hn := (not_busy_iff s).1 hb
      repeat' split
      all_goals exact .config hn rfl

/-- All that a move can do. -/
theorem hostMove_end (m : HostMove) (s : State) : HostEnd m s (hostMove m s) := by
  cases m with
  | readReg off size =>
    simp only [hostMove]
    split
    · exact .next _ (.bus (readReg_eq _ _))
    · rename_i ha
      exact .notAlignedWord off size (by simpa using ha) (.inl rfl)
  | writeReg off size v =>
    simp only [hostMove]
    split
    · rename_i ha
      split
      · rename_i ho
        obtain ⟨rfl, -⟩ := (alignedWord_iff off size).1 ha
        obtain rfl : off = 0x004 := BitVec.eq_of_toNat_eq ho
        rw [writeCtrl_eq]
        exact .next _ (.ctrl v rfl rfl)
      · exact .next _ (writeReg_cases _ _ _ _)
    · rename_i ha
      exact .notAlignedWord off size (by simpa using ha) (.inr ⟨v, rfl⟩)
  | readInput a => exact .next _ (.bus rfl)
  | writeInput a b =>
    simp only [hostMove]
    split
    · rename_i hb
      exact .inputOwned ((busy_iff s).1 hb) a b rfl
    · rename_i hb
      exact .next _ (.input ((not_busy_iff s).1 hb) a b rfl)
  | readOutput a =>
    simp only [hostMove]
    split
    · rename_i ho
      exact .outputOwned a ho (.inl rfl)
    · exact .next _ (.bus rfl)
  | writeOutput a b =>
    simp only [hostMove]
    split
    · rename_i ho
      exact .outputOwned a ho (.inr ⟨b, rfl⟩)
    · exact .next _ (.output a b rfl)
  | reset => exact .next _ (.reset rfl rfl)

/-- All that a move can do when it has a next state. -/
theorem hostMove_cases {m : HostMove} {s t : State} (h : hostMove m s = .next t) : HostTo m s t := by
  have he := hostMove_end m s
  rw [h] at he
  cases he with
  | next t ht => exact ht

end Sys2Proof.Machine


/-! ## The codes an iteration presents, and what each leaves unchanged -/

namespace Sys2Proof

/-- Whatever code a reading gives is a code of the context `c`. -/
def CodesIn (c : DecodeCtx) (res : CodeResult) : Prop := ∀ i, res = .code i → i.ctx = c

theorem codesIn_code {c : DecodeCtx} {i : Instr} (h : i.ctx = c) : CodesIn c (.code i) := by
  rintro _ ⟨⟩
  exact h

section
variable {c : DecodeCtx} (off : Nat) (bs : List Byte)

theorem codesIn_field1 {k : Byte → List Byte → CodeResult} (h : ∀ v r, CodesIn c (k v r)) :
    CodesIn c (field1 off bs k) := fun i hi => by
  obtain ⟨v, r, -, hk⟩ := field1_code hi
  exact h v r i hk

theorem codesIn_field2 {k : BitVec 16 → List Byte → CodeResult} (h : ∀ v r, CodesIn c (k v r)) :
    CodesIn c (field2 off bs k) := fun i hi => by
  obtain ⟨v, r, -, hk⟩ := field2_code hi
  exact h v r i hk

theorem codesIn_field3 {k : Pixel → List Byte → CodeResult} (h : ∀ v r, CodesIn c (k v r)) :
    CodesIn c (field3 off bs k) := fun i hi => by
  obtain ⟨v, r, -, hk⟩ := field3_code hi
  exact h v r i hk

theorem codesIn_field4 {k : BitVec 32 → List Byte → CodeResult} (h : ∀ v r, CodesIn c (k v r)) :
    CodesIn c (field4 off bs k) := fun i hi => by
  obtain ⟨v, r, -, hk⟩ := field4_code hi
  exact h v r i hk

end

/-- The D24 selection gives LITP exactly while a literal is pending (30_encoding R103). -/
theorem codesIn_decode24 (pending : Bool) (bs : List Byte) : CodesIn (.d24 pending) (decode24 pending bs) := by
  cases pending with
  | true =>
    rw [decode24, if_pos rfl]
    exact codesIn_field3 _ _ fun _ _ => codesIn_code rfl
  | false =>
    rw [decode24, if_neg Bool.false_ne_true]
    refine codesIn_field1 _ _ fun ctl r => ?_
    dsimp only
    split
    · split
      · exact codesIn_code rfl
      · refine codesIn_field1 _ _ fun ext r => ?_
        split
        · exact codesIn_field4 _ _ fun _ _ => codesIn_code rfl
        · exact codesIn_code rfl
    · split
      · exact codesIn_field1 _ _ fun _ _ => codesIn_field3 _ _ fun _ _ => codesIn_code rfl
      · split
        · exact codesIn_field4 _ _ fun _ _ => codesIn_field3 _ _ fun _ _ => codesIn_code rfl
        · exact codesIn_field3 _ _ fun _ _ => codesIn_code rfl

/-- The D8 selection gives D8 codes only. -/
theorem codesIn_decode8 (bs : List Byte) : CodesIn .d8 (decode8 bs) := by
  refine codesIn_field1 _ _ fun ctl r => ?_
  dsimp only
  split
  · exact codesIn_code rfl
  split
  · exact codesIn_field1 _ _ fun _ _ => codesIn_code rfl
  split
  · exact codesIn_field1 _ _ fun _ _ => codesIn_field1 _ _ fun _ _ => codesIn_code rfl
  split
  · exact codesIn_field2 _ _ fun _ _ => codesIn_field1 _ _ fun _ _ => codesIn_code rfl
  split
  · exact codesIn_field4 _ _ fun _ _ => codesIn_field1 _ _ fun _ _ => codesIn_code rfl
  split
  · exact codesIn_field1 _ _ fun _ _ => codesIn_field1 _ _ fun _ _ => codesIn_code rfl
  split
  · exact codesIn_field2 _ _ fun _ _ => codesIn_field1 _ _ fun _ _ => codesIn_code rfl
  · exact codesIn_field4 _ _ fun _ _ => codesIn_field1 _ _ fun _ _ => codesIn_code rfl

end Sys2Proof

namespace Sys2Proof.Machine

/-- The code at CURSOR is one of the context that PATH and PEND select. -/
theorem ctx_of_fetchCode {s : State} {i : Instr} (h : fetchCode s = .code i) : i.ctx = s.codeCtx := by
  unfold fetchCode decodeCode at h
  unfold State.codeCtx
  cases hp : s.path <;> rw [hp] at h
  · exact codesIn_decode24 _ _ i h
  · exact codesIn_decode8 _ i h

/-- A host command is read in no context of the stream. -/
theorem isCode_of_ctx {s : State} {i : Instr} (h : i.ctx = s.codeCtx) : isCode i = true := by
  unfold State.codeCtx at h
  cases i with
  | startDecode | startEncode | abort => cases hp : s.path <;> simp [hp, Instr.ctx] at h
  | _ => rfl

/-- Every D24 code is its reads and then the end of a D24 iteration. -/
theorem exec_eq_code24 {i : Instr} {pending : Bool} (h : i.ctx = .d24 pending) (s : State) :
    ∃ k, exec i s = code24 pending i.fields s k ∧ ∀ u, ∃ pix cnt pos v, k u = finish24 pix cnt pos v := by
  cases i <;> cases h <;> exact ⟨_, rfl, fun _ => ⟨_, _, _, _, rfl⟩⟩

/-- Every D8 code is its reads and then the end of a D8 iteration. -/
theorem exec_eq_code8 {i : Instr} (h : i.ctx = .d8) (s : State) :
    ∃ k, exec i s = code8 i.fields s k ∧ ∀ u, ∃ pix cnt pos v, k u = finish8 pix cnt pos v := by
  cases i <;> cases h <;> exact ⟨_, rfl, fun _ => ⟨_, _, _, _, rfl⟩⟩

/-- Reading fields is refused only if what follows is. -/
theorem withFields_ne_refused {ns : List Nat} {s : State} {k : State → Out} {r : Refusal}
    (hk : ∀ u, k u ≠ .refused r) : withFields ns s k ≠ .refused r := by
  obtain ⟨off, -, h⟩ | ⟨-, h⟩ := withFields_cases ns s k
  · simp [h]
  · rw [h]
    exact hk _

/-- A code of the context that a BUSY core selects is never refused. -/
theorem exec_ne_refused {s : State} {i : Instr} (hb : s.engine = .busy) (h : i.ctx = s.codeCtx) (r : Refusal) :
    exec i s ≠ .refused r := by
  cases hp : s.path with
  | d24 =>
    simp only [State.codeCtx, hp] at h
    obtain ⟨k, he, hk⟩ := exec_eq_code24 h s
    rw [he, code24_enabled k ((enabled24_iff _ s).2 ⟨hb, hp, by simp⟩)]
    refine withFields_ne_refused fun u => ?_
    obtain ⟨pix, cnt, pos, v, hf⟩ := hk u
    obtain ⟨-, h⟩ | ⟨-, h⟩ := finish24_cases pix cnt pos v <;> simp [hf, h]
  | d8 =>
    simp only [State.codeCtx, hp] at h
    obtain ⟨k, he, hk⟩ := exec_eq_code8 h s
    rw [he, code8_enabled k ((enabled8_iff s).2 ⟨hb, hp⟩)]
    refine withFields_ne_refused fun u => ?_
    obtain ⟨pix, cnt, pos, v, hf⟩ := hk u
    obtain ⟨-, h⟩ | ⟨-, h⟩ := finish8_cases pix cnt pos v <;> simp [hf, h]

/-- No iteration of a BUSY core is refused. -/
theorem engineStep_ne_refused {s : State} (hb : s.engine = .busy) (r : Refusal) : engineStep s ≠ .refused r := by
  obtain ⟨i, hf, h⟩ | ⟨off, -, h⟩ := engineStep_cases s
  · rw [h]
    exact exec_ne_refused hb (ctx_of_fetchCode hf) r
  · simp [h]

/-- What an iteration leaves of the setup and of STATUS, however it ends. -/
structure CodeFrame (s t : State) : Prop where
  setup : SameSetup s t
  status : StatusFrame s t
  posfix : s.posfix = true → t.posfix = true

theorem truncated_frame (off : Nat) (s : State) : CodeFrame s (truncated off s) where
  setup := by constructor <;> simp
  status := ⟨.inl rfl, .inl rfl, .inr (.inr ⟨rfl, rfl, rfl, rfl⟩)⟩
  posfix := id

theorem clampAfter_eq (cnt : Int) (s : State) : clampAfter cnt s = s.clamp ∨ clampAfter cnt s = true := by
  cases h : decide (cnt > (s.remain.toNat : Int)) <;> simp [clampAfter, h]

theorem zrunAfter_eq (cnt : Int) (s : State) : zrunAfter cnt s = s.zrun ∨ zrunAfter cnt s = true := by
  cases h : decide (cnt ≤ 0) <;> simp [zrunAfter, h]

/-- The STATUS bits after completion, for a run that kept those that End writes. -/
theorem complete_statusFrame {s t : State} (hc : t.clamp = s.clamp ∨ t.clamp = true)
    (hz : t.zrun = s.zrun ∨ t.zrun = true)
    (hs : t.engine = s.engine ∧ t.result = s.result ∧ t.irqPend = s.irqPend ∧ t.abortReq = s.abortReq) :
    StatusFrame s (complete t) := by
  refine ⟨by simpa using hc, by simpa using hz, ?_⟩
  obtain ⟨-, h⟩ | ⟨-, h⟩ := complete_cases t
  · rw [h]
    exact .inr (.inl ⟨rfl, rfl, rfl, rfl⟩)
  · rw [h]
    exact .inl hs

/-- What a control code leaves unchanged, in every state. -/
theorem exec_frame {i : Instr} {s t : State} (hi : isCode i = true) (h : exec i s = .next t) : CodeFrame s t := by
  cases code_end i s hi with
  | notEnabled he => simp [he] at h
  | undone off hb hoff he =>
    obtain rfl : truncated off s = t := by simpa [he] using h
    exact truncated_frame off s
  | noRoom hb he hroom => simp [he] at h
  | run24 q pix cnt pos hb hp hq hn hfit he =>
    rw [he] at h
    cases h
    exact ⟨by constructor <;> simp,
      complete_statusFrame (clampAfter_eq cnt s) (zrunAfter_eq cnt s) ⟨rfl, rfl, rfl, rfl⟩, by simp⟩
  | run8 fix pix cnt pos hb hp hn hfit he =>
    rw [he] at h
    cases h
    exact ⟨by constructor <;> simp,
      complete_statusFrame (clampAfter_eq cnt s) (zrunAfter_eq cnt s) ⟨rfl, rfl, rfl, rfl⟩, by simp +contextual⟩

/-- What an iteration leaves unchanged. -/
theorem engineStep_frame {s t : State} (h : engineStep s = .next t) : CodeFrame s t := by
  obtain ⟨i, hf, he⟩ | ⟨off, -, he⟩ := engineStep_cases s
  · exact exec_frame (isCode_of_ctx (ctx_of_fetchCode hf)) (he ▸ h)
  · rw [he] at h
    cases h
    exact truncated_frame _ s

end Sys2Proof.Machine

/-! ## The invariant is kept by every step -/

namespace Sys2Proof.Machine

/-- The part of the invariant that does not look at STATE: it holds also in the middle of an iteration and of a start. -/
structure Standing (s : State) : Prop where
  inMem_wf : s.inMem.wf = true
  outMem_wf : s.outMem.wf = true
  fmt_path : s.fmt ≠ .noFmt → (s.path = .d24 ↔ s.fmt = .bgr24)
  remain_le : s.remain.toNat ≤ s.npix.toNat
  npix_le : s.npix.toNat ≤ 0xFFFE0001
  stride_le : s.stride.toNat ≤ 196605
  outPtr_eq : s.fmt ≠ .noFmt → s.outPtr.toNat = (s.npix.toNat - s.remain.toNat) * bytesPerUnit s.path
  pend_le : s.pend.toNat ≤ 254
  d8_pend : s.path = .d8 → s.pend = 0

/-- What the invariant says of a BUSY core before completion has looked at REMAIN (41_run_engine R148). -/
structure Running (s : State) : Prop where
  engine : s.engine = .busy
  result : s.result = .ok
  irqPend : s.irqPend = false
  fmt : s.fmt ≠ .noFmt
  size : s.outSize = s.stride.toNat * s.height.toNat
  fits : s.outSize ≤ s.outCap.toNat
  cursor : s.cursor.toNat ≤ s.inLen.toNat
  op : s.ctrlOp = 0
  errOff : s.errOff = 0

theorem State.Inv.standing {s : State} (h : s.Inv) : Standing s := { h with }

theorem State.Inv.result_ok {s : State} (h : s.Inv) (hb : s.engine = .busy) : s.result = .ok :=
  h.result_ok_iff.2 (by simp [hb])

/-- ERR_OFF is 0 while BUSY (10_state R38). -/
theorem State.Inv.errOff_zero {s : State} (h : s.Inv) (hb : s.engine = .busy) : s.errOff = 0 := by
  by_contra he
  have := h.errOff_truncated he
  simp [h.result_ok hb] at this

theorem State.Inv.running {s : State} (h : s.Inv) (hb : s.engine = .busy) : Running s where
  engine := hb
  result := h.result_ok hb
  irqPend := h.idle_busy_irq (.inr hb)
  fmt := h.busy_fmt (.inl hb)
  size := h.busy_size hb
  fits := h.busy_fits hb
  cursor := h.busy_cursor hb
  op := h.busy_op hb
  errOff := h.errOff_zero hb

/-! The ends of a decode -/

/-- A failure keeps the invariant, whatever part of a decode it ends. -/
theorem Standing.fail_inv {s : State} (h : Standing s) {r : ResultCode} (hr : r ≠ .ok)
    (he : s.errOff ≠ 0 → r = .truncated) : (endDecode .fail r s).Inv :=
  { h with
    result_ok_iff := iff_of_false hr (fun hf => hf rfl)
    idle_busy_irq := nofun, abortReq_busy := nofun, busy_remain := nofun, done_remain := nofun, busy_fmt := nofun
    busy_size := nofun, busy_fits := nofun, busy_cursor := nofun, busy_op := nofun
    errOff_truncated := he }

theorem Standing.truncated_inv {s : State} (h : Standing s) (off : Nat) : (truncated off s).Inv :=
  Standing.fail_inv (s := { s with errOff := BitVec.ofNat 32 off }) { h with } nofun fun _ => rfl

/-- Completion gives the invariant: a decode goes on with REMAIN > 0, and with REMAIN = 0 it is DONE. -/
theorem Standing.complete_inv {s : State} (h : Standing s) (hr : Running s) : (complete s).Inv := by
  obtain ⟨h0, he⟩ | ⟨h0, he⟩ := complete_cases s <;> rw [he]
  · exact { h with
      result_ok_iff := iff_of_true rfl nofun
      idle_busy_irq := nofun, abortReq_busy := nofun, busy_remain := nofun
      done_remain := fun _ => h0
      busy_fmt := fun _ => hr.fmt
      busy_size := nofun, busy_fits := nofun, busy_cursor := nofun, busy_op := nofun
      errOff_truncated := fun he => absurd hr.errOff he }
  · exact { h with
      result_ok_iff := iff_of_true hr.result (by simp [hr.engine])
      idle_busy_irq := fun _ => hr.irqPend
      abortReq_busy := fun _ => hr.engine
      busy_remain := fun _ => Nat.pos_of_ne_zero fun hz => h0 (BitVec.eq_of_toNat_eq hz)
      done_remain := fun hd => by simp [hr.engine] at hd
      busy_fmt := fun _ => hr.fmt
      busy_size := fun _ => hr.size, busy_fits := fun _ => hr.fits, busy_cursor := fun _ => hr.cursor
      busy_op := fun _ => hr.op
      errOff_truncated := fun he => absurd hr.errOff he }

/-! An iteration -/

/-- Emit with room keeps the standing part: the memory stays canonical, and OUT_PTR and REMAIN move together. -/
theorem Standing.emit_standing {s : State} (h : Standing s) {cnt : Int} {unit : List Byte}
    (hfit : emitFits cnt unit.length s = true) (hu : unit.length = bytesPerUnit s.path) :
    Standing (emit cnt unit s) := by
  have hn := runLength_le cnt s.remain.toNat
  have hle := h.remain_le
  have hend : s.outPtr.toNat + runLength cnt s.remain.toNat * unit.length ≤ 2 ^ 32 := by
    rw [← emit_outPtr_toNat hfit]
    exact Nat.le_of_lt (BitVec.isLt _)
  refine { h with outMem_wf := Memory.wf_writeRun unit h.outMem_wf hend, remain_le := ?_, outPtr_eq := fun hf => ?_ }
  · rw [emit_remain_toNat, emit_npix]
    omega
  · rw [emit_outPtr_toNat hfit, emit_remain_toNat, emit_npix, emit_path, h.outPtr_eq hf, hu, ← Nat.add_mul]
    congr 1
    omega

/-- Emit keeps what holds of a running decode. -/
theorem Running.emit_running {s : State} (h : Running s) (cnt : Int) (unit : List Byte) : Running (emit cnt unit s) :=
  { h with }

/-- CURSOR past fields that fit, with PEND and POSFIX as a code leaves them. -/
theorem Running.advance_running {s : State} (h : Running s) {ns : List Nat}
    (hn : firstShort s.inLen.toNat s.cursor.toNat ns = none) (q : BitVec 8) (b : Bool) :
    Running { advance ns.sum s with pend := q, posfix := b } :=
  have hfit := fits_of_firstShort_none h.cursor hn
  { h with cursor := by rw [← advance_toNat hfit] at hfit; exact hfit }

theorem exec_keeps_inv {i : Instr} {s t : State} (hi : isCode i = true) (hinv : s.Inv) (h : exec i s = .next t) :
    t.Inv := by
  cases code_end i s hi with
  | notEnabled he => simp [he] at h
  | undone off hb hoff he =>
    rw [he] at h
    cases h
    exact hinv.standing.truncated_inv off
  | noRoom hb he hroom => simp [he] at h
  | run24 q pix cnt pos hb hp hq hn hfit he =>
    rw [he] at h
    cases h
    have hq : q.toNat ≤ 254 := hq.elim id fun hq => hq.trans hinv.pend_le
    have hs : Standing { advance i.length s with pend := q } :=
      { hinv.standing with pend_le := hq, d8_pend := fun h8 => by simp [hp] at h8 }
    have hs := hs.emit_standing (cnt := cnt) (unit := bytes3 pix) hfit (by simp [hp, bytes3, bytesPerUnit])
    have hr := ((hinv.running hb).advance_running hn q s.posfix).emit_running cnt (bytes3 pix)
    exact Standing.complete_inv { hs with } { hr with }
  | run8 fix pix cnt pos hb hp hn hfit he =>
    rw [he] at h
    cases h
    have hs : Standing { advance i.length s with posfix := s.posfix || fix } := { hinv.standing with }
    have hs := hs.emit_standing (cnt := cnt) (unit := [pix]) hfit (by simp [hp, bytesPerUnit])
    have hr := ((hinv.running hb).advance_running hn s.pend (s.posfix || fix)).emit_running cnt [pix]
    exact Standing.complete_inv { hs with } { hr with }

theorem abortStep_inv {s : State} (hinv : s.Inv) (hb : s.engine = .busy) : (abortStep s).Inv :=
  hinv.standing.fail_inv nofun fun he => absurd (hinv.errOff_zero hb) he

theorem engineStep_keeps_inv {s t : State} (hinv : s.Inv) (h : engineStep s = .next t) : t.Inv := by
  obtain ⟨i, hf, he⟩ | ⟨off, -, he⟩ := engineStep_cases s
  · exact exec_keeps_inv (isCode_of_ctx (ctx_of_fetchCode hf)) hinv (he ▸ h)
  · rw [he] at h
    cases h
    exact hinv.standing.truncated_inv _

/-! A start -/

/-- A start before it looks at the image (40_dispatch R131 a): CURSOR is 0, or 16 with a whole header (R124). -/
structure Starting (s : State) : Prop where
  standing : Standing s
  engine : s.engine = .busy
  result : s.result = .ok
  irqPend : s.irqPend = false
  fmt : s.fmt = .noFmt
  remain : s.remain = 0
  outPtr : s.outPtr = 0
  pend : s.pend = 0
  errOff : s.errOff = 0
  cursor : s.cursor.toNat ≤ s.inLen.toNat

theorem starting_clearForStart {s : State} (h : Standing s) : Starting (clearForStart s) where
  standing :=
    { h with
      fmt_path := fun hf => absurd rfl hf, remain_le := Nat.le_refl _, npix_le := Nat.zero_le _
      stride_le := Nat.zero_le _, outPtr_eq := fun hf => absurd rfl hf, pend_le := Nat.zero_le _
      d8_pend := fun _ => rfl }
  engine := rfl
  result := rfl
  irqPend := rfl
  fmt := rfl
  remain := rfl
  outPtr := rfl
  pend := rfl
  errOff := rfl
  cursor := Nat.zero_le _

theorem Starting.readHeader_starting {s : State} (h : Starting s) (hl : 16 ≤ s.inLen.toNat) : Starting (readHeader s) :=
  { h with standing := { h.standing with }, cursor := hl }

theorem strideOf_toNat {s : State} (hd : legalDepth s.depth = true) :
    (sized s).stride.toNat = strideOf s.width.toNat s.depth.toNat := by
  have := strideOf_le (w := s.width.toNat) (by omega) hd
  rw [sized_stride, BitVec.toNat_ofNat]
  omega

theorem unitsOf_toNat {s : State} (hd : legalDepth s.depth = true) :
    (sized s).npix.toNat = unitsOf s.width.toNat s.height.toNat s.depth.toNat := by
  have := unitsOf_le (w := s.width.toNat) (h := s.height.toNat) (by omega) (by omega) hd
  rw [sized_npix, BitVec.toNat_ofNat]
  omega

theorem pathOf_eq_d24_iff {d : BitVec 8} : pathOf d = .d24 ↔ fmtOf d = .bgr24 := by
  unfold pathOf fmtOf
  split
  · simp
  · split <;> simp

theorem fmtOf_ne_noFmt (d : BitVec 8) : fmtOf d ≠ .noFmt := by
  unfold fmtOf
  split
  · simp
  · split <;> simp

/-- The size computed for a legal depth is within the registers' bounds (10_state R33, R34). -/
theorem Starting.sized_standing {s : State} (h : Starting s) (hd : legalDepth s.depth = true) : Standing (sized s) :=
  { h.standing with
    fmt_path := fun hf => absurd h.fmt hf
    outPtr_eq := fun hf => absurd h.fmt hf
    remain_le := by simp [h.remain]
    npix_le := by
      rw [unitsOf_toNat hd]
      exact unitsOf_le (by omega) (by omega) hd
    stride_le := by
      rw [strideOf_toNat hd]
      exact strideOf_le (by omega) hd }

/-- A decode that passed every check: nothing is written yet and all of NPIX remains. -/
theorem Starting.dispatched_standing {s : State} (h : Starting s) (hd : legalDepth s.depth = true) :
    Standing (dispatched (sized s)) :=
  { h.sized_standing hd with
    fmt_path := fun _ => pathOf_eq_d24_iff
    remain_le := Nat.le_refl _
    outPtr_eq := fun _ => by simp [h.outPtr]
    d8_pend := fun _ => h.pend }

/-- A decode that passed every check runs: its size is STRIDE * HEIGHT and fits (40_dispatch R128, R129). -/
theorem Starting.dispatched_running {s : State} (h : Starting s) (hd : legalDepth s.depth = true)
    (hfits : (sized s).stride.toNat * s.height.toNat ≤ s.outCap.toNat) (hop : s.ctrlOp = 0) :
    Running (dispatched (sized s)) :=
  have hsize : (dispatched (sized s)).outSize = (sized s).stride.toNat * s.height.toNat := by
    rw [strideOf_toNat hd, ← unitsOf_mul hd, ← unitsOf_toNat hd]
    rfl
  { h with
    fmt := fmtOf_ne_noFmt s.depth
    size := hsize
    fits := hsize ▸ hfits
    op := hop }

/-- The start sequence from the bit-depth check on gives the invariant, however it ends. -/
theorem Starting.startImage_inv {s : State} (h : Starting s) (hop : s.ctrlOp = 0) : (startImage s).Inv := by
  obtain ⟨-, he⟩ | ⟨hd, -, he⟩ | ⟨hd, hfits, he⟩ := startImage_cases s <;> rw [he]
  · exact h.standing.fail_inv nofun fun he => absurd h.errOff he
  · exact (h.sized_standing hd).fail_inv nofun fun he => absurd h.errOff he
  · exact (h.dispatched_standing hd).complete_inv (h.dispatched_running hd hfits hop)

/-- The start sequence gives the invariant from every state with the standing part of it. -/
theorem startSequence_inv {s : State} (h : Standing s) : (startSequence s).Inv := by
  have hc := starting_clearForStart h
  obtain ⟨-, he⟩ | ⟨-, -, -, he⟩ | ⟨hop, -, hl, he⟩ | ⟨hop, -, he⟩ := startSequence_cases s <;> rw [he]
  · exact hc.standing.fail_inv nofun fun he => absurd rfl he
  · exact hc.standing.fail_inv nofun fun he => absurd rfl he
  · exact (hc.readHeader_starting hl).startImage_inv hop
  · exact hc.startImage_inv hop

theorem ctrlWrite_keeps_inv {s : State} (hinv : s.Inv) (start abort : Bool) (op : BitVec 2) (hdr ie : Bool) :
    (ctrlWrite start abort op hdr ie s).Inv := by
  obtain ⟨hb, he⟩ | ⟨hn, -, he⟩ | ⟨-, -, he⟩ := ctrlWrite_cases start abort op hdr ie s <;> rw [he]
  · exact { hinv with abortReq_busy := fun _ => hb }
  · exact { hinv with busy_op := fun hb => absurd hb hn }
  · exact startSequence_inv { hinv.standing with }

/-! Moves of the host and the platform -/

theorem hardReset_inv {s : State} (hinv : s.Inv) : (hardReset s).Inv where
  inMem_wf := hinv.inMem_wf
  outMem_wf := by
    simp only [hardReset]
    split
    · rename_i hb
      have hsize := hinv.busy_fits ((busy_iff s).1 hb)
      exact Memory.wf_freeBelow _ hinv.outMem_wf (by omega)
    · exact hinv.outMem_wf
  result_ok_iff := iff_of_true rfl nofun
  idle_busy_irq := fun _ => rfl
  abortReq_busy := nofun
  busy_remain := nofun
  done_remain := nofun
  busy_fmt := nofun
  fmt_path := fun hf => absurd rfl hf
  remain_le := Nat.le_refl _
  npix_le := Nat.zero_le _
  stride_le := Nat.zero_le _
  outPtr_eq := fun hf => absurd rfl hf
  busy_size := nofun
  busy_fits := nofun
  busy_cursor := nofun
  busy_op := nofun
  pend_le := Nat.zero_le _
  d8_pend := fun _ => rfl
  errOff_truncated := fun he => absurd rfl he

theorem hostMove_keeps_inv {m : HostMove} {s t : State} (hinv : s.Inv) (h : hostMove m s = .next t) : t.Inv := by
  cases hostMove_cases h with
  | bus h =>
    rw [h]
    exact { hinv with }
  | ctrl v hm h =>
    rw [h]
    exact ctrlWrite_keeps_inv hinv _ _ _ _ _
  | status b h =>
    rw [h]
    exact { hinv with idle_busy_irq := fun hi => by simp [hinv.idle_busy_irq hi] }
  | config hn h =>
    rw [h]
    exact { hinv with
      busy_size := fun hb => absurd hb hn
      busy_fits := fun hb => absurd hb hn
      busy_cursor := fun hb => absurd hb hn }
  | input hn a b h =>
    rw [h]
    exact { hinv with inMem_wf := Memory.wf_write b hinv.inMem_wf a.isLt }
  | output a b h =>
    rw [h]
    exact { hinv with outMem_wf := Memory.wf_write b hinv.outMem_wf a.isLt }
  | reset hm h =>
    rw [h]
    exact hardReset_inv hinv

/-- The invariant does not speak of the turns to come, nor of the free values drawn. -/
theorem inv_of_environment {s u : State} (hinv : s.Inv)
    (hu : u = { s with schedule := u.schedule, freeIdx := u.freeIdx }) : u.Inv := by
  rw [hu]
  exact { hinv with }

/-- Settles O3: an iteration, the abort step and a start end in `Standing.fail_inv` or `Standing.complete_inv`, and every
other move of the host keeps the invariant field by field. -/
theorem everyStepKeepsInvariant : Obligations.EveryStepKeepsInvariant := by
  intro s t hinv h
  cases step_cases h with
  | stay ht hn =>
    rw [ht]
    exact { hinv with }
  | iteration hb u h hu hs =>
    exact engineStep_keeps_inv (inv_of_environment hinv hu) h
  | abort hb ha u h hu hs =>
    have hbu : u.engine = .busy := by rw [hu, hb]
    rw [h]
    exact abortStep_inv (inv_of_environment hinv hu) hbu
  | host m rest hs h => exact hostMove_keeps_inv (s := { s with schedule := rest }) { hinv with } h

end Sys2Proof.Machine

/-! ## Refusals -/

namespace Sys2Proof.Machine

theorem engineTurn_ne_refused (s : State) (r : Refusal) : engineTurn s ≠ .refused r := by
  unfold engineTurn
  split
  · rename_i hb
    have hb := (busy_iff s).1 hb
    split
    · dsimp only
      split
      · nofun
      · exact engineStep_ne_refused (s := { s with freeIdx := s.freeIdx + 1 }) hb r
    · exact engineStep_ne_refused hb r
  · nofun

/-- Only a turn of the host can be refused. -/
theorem step_refused {s : State} {r : Refusal} (h : step s = .refused r) :
    ∃ m rest, s.schedule = .host m :: rest ∧ hostMove m { s with schedule := rest } = .refused r := by
  unfold step stepTurn at h
  split at h
  · exact absurd h (engineTurn_ne_refused s r)
  · rename_i turn rest hs
    cases turn with
    | engine =>
      simp only [takeTurn] at h
      split at h
      · rename_i hb
        exact absurd h (engineStep_ne_refused ((busy_iff _).1 hb) r)
      · cases h
    | abortStep =>
      simp only [takeTurn] at h
      split at h <;> cases h
    | host m => exact ⟨m, rest, hs, h⟩

/-- Settles O5: a refused step is a refused move of the host, and `hostMove_end` lists those. -/
theorem onlyIllegalHostMovesAreRefused : Obligations.OnlyIllegalHostMovesAreRefused := by
  intro s r h
  obtain ⟨m, rest, hs, h⟩ := step_refused h
  have he := hostMove_end m { s with schedule := rest }
  rw [h] at he
  cases he with
  | notAlignedWord off size ha hm =>
    refine .inl ⟨rfl, off, size, rest, ha, ?_⟩
    obtain rfl | ⟨v, rfl⟩ := hm
    · exact .inl hs
    · exact .inr ⟨v, hs⟩
  | inputOwned hb a b hm =>
    subst hm
    exact .inr ⟨rfl, hb, a, rest, .inl ⟨b, hs⟩⟩
  | outputOwned a ho hm =>
    obtain ⟨hb, ha⟩ := (ownsOutput_iff a _).1 ho
    refine .inr ⟨rfl, hb, a, rest, .inr ⟨ha, ?_⟩⟩
    obtain rfl | ⟨b, rfl⟩ := hm
    · exact .inl hs
    · exact .inr ⟨b, hs⟩

/-- Settles O58: each of the moves is refused by its own guard in `hostMove`. -/
theorem illegalHostMovesAreRefused : Obligations.IllegalHostMovesAreRefused := by
  intro s rest
  refine ⟨fun off size hbad => ?_, fun hb a => ?_⟩
  · have ha : alignedWord off size = false := by
      rw [← Bool.not_eq_true, alignedWord_iff]
      tauto
    refine ⟨fun hs => ?_, fun v hs => ?_⟩
    · simp [step_of_host hs, hostMove, ha]
    · simp [step_of_host hs, hostMove, ha]
  · refine ⟨fun b hs => ?_, fun hlt => ?_⟩
    · simp [step_of_host hs, hostMove, busy_iff, hb]
    · have ho : ownsOutput a { s with schedule := rest } = true := (ownsOutput_iff a _).2 ⟨hb, hlt⟩
      refine ⟨fun hs => ?_, fun b hs => ?_⟩
      · simp [step_of_host hs, hostMove, ho]
      · simp [step_of_host hs, hostMove, ho]

end Sys2Proof.Machine

/-! ## What a start leaves unchanged -/

namespace Sys2Proof.Machine

/-- What no start changes: both buffers, the lengths, CTRL and the environment's fields; the frames are kept or
initialised. -/
structure StartFrame (s t : State) : Prop where
  inMem : t.inMem = s.inMem
  outMem : t.outMem = s.outMem
  inLen : t.inLen = s.inLen
  outCap : t.outCap = s.outCap
  ctrlIe : t.ctrlIe = s.ctrlIe
  schedule : t.schedule = s.schedule
  busData : t.busData = s.busData
  freeIdx : t.freeIdx = s.freeIdx
  frames : t.frame24 = s.frame24 ∧ t.frame8 = s.frame8 ∨ t.frame24 = frame24Init ∧ t.frame8 = frame8Init

/-- The image registers are as they were. -/
def SameImage (s t : State) : Prop := t.width = s.width ∧ t.height = s.height ∧ t.depth = s.depth

theorem startImage_sameImage (s : State) : SameImage s (startImage s) := by
  obtain ⟨-, h⟩ | ⟨-, -, h⟩ | ⟨-, -, h⟩ := startImage_cases s <;> rw [h]
  · exact ⟨rfl, rfl, rfl⟩
  · exact ⟨rfl, rfl, rfl⟩
  · exact ⟨by simp, by simp, by simp⟩

theorem startImage_frame (s : State) : StartFrame s (startImage s) := by
  obtain ⟨-, h⟩ | ⟨-, -, h⟩ | ⟨-, -, h⟩ := startImage_cases s <;> rw [h]
  · exact ⟨rfl, rfl, rfl, rfl, rfl, rfl, rfl, rfl, .inl ⟨rfl, rfl⟩⟩
  · exact ⟨rfl, rfl, rfl, rfl, rfl, rfl, rfl, rfl, .inl ⟨rfl, rfl⟩⟩
  · constructor <;> simp

theorem startSequence_frame (s : State) : StartFrame s (startSequence s) := by
  obtain ⟨-, h⟩ | ⟨-, -, -, h⟩ | ⟨-, -, -, h⟩ | ⟨-, -, h⟩ := startSequence_cases s <;> rw [h]
  · exact ⟨rfl, rfl, rfl, rfl, rfl, rfl, rfl, rfl, .inl ⟨rfl, rfl⟩⟩
  · exact ⟨rfl, rfl, rfl, rfl, rfl, rfl, rfl, rfl, .inl ⟨rfl, rfl⟩⟩
  · exact { startImage_frame (readHeader (clearForStart s)) with }
  · exact { startImage_frame (clearForStart s) with }

/-- In direct mode a start leaves the image registers (40_dispatch R122). -/
theorem startSequence_sameImage {s : State} (hd : s.ctrlHdr = false) : SameImage s (startSequence s) := by
  obtain ⟨-, h⟩ | ⟨-, hh, -⟩ | ⟨-, hh, -⟩ | ⟨-, -, h⟩ := startSequence_cases s
  · rw [h]
    exact ⟨rfl, rfl, rfl⟩
  · simp [hd] at hh
  · simp [hd] at hh
  · rw [h]
    exact startImage_sameImage (clearForStart s)

/-- A start leaves a decode under way or ended, never IDLE (10_state R43). -/
theorem startSequence_engine_ne_idle (s : State) : (startSequence s).engine ≠ .idle := by
  have image (u : State) (hu : u.engine = .busy) : (startImage u).engine ≠ .idle := by
    obtain ⟨-, h⟩ | ⟨-, -, h⟩ | ⟨-, -, h⟩ := startImage_cases u <;> rw [h]
    · simp
    · simp
    · rw [complete_engine]
      split <;> simp [hu]
  obtain ⟨-, h⟩ | ⟨-, -, -, h⟩ | ⟨-, -, -, h⟩ | ⟨-, -, h⟩ := startSequence_cases s <;> rw [h]
  · simp
  · simp
  · exact image _ rfl
  · exact image _ rfl

theorem ctrlWrite_frame (start abort : Bool) (op : BitVec 2) (hdr ie : Bool) (s : State) :
    StartFrame { s with ctrlIe := ie } (ctrlWrite start abort op hdr ie s) := by
  obtain ⟨-, h⟩ | ⟨-, -, h⟩ | ⟨-, -, h⟩ := ctrlWrite_cases start abort op hdr ie s <;> rw [h]
  · exact ⟨rfl, rfl, rfl, rfl, rfl, rfl, rfl, rfl, .inl ⟨rfl, rfl⟩⟩
  · exact ⟨rfl, rfl, rfl, rfl, rfl, rfl, rfl, rfl, .inl ⟨rfl, rfl⟩⟩
  · exact { startSequence_frame { s with ctrlOp := op, ctrlHdr := hdr, ctrlIe := ie } with }

theorem ctrlWrite_sameImage (start abort : Bool) (op : BitVec 2) (ie : Bool) (s : State) :
    SameImage s (ctrlWrite start abort op false ie s) := by
  obtain ⟨-, h⟩ | ⟨-, -, h⟩ | ⟨-, -, h⟩ := ctrlWrite_cases start abort op false ie s <;> rw [h]
  · exact ⟨rfl, rfl, rfl⟩
  · exact ⟨rfl, rfl, rfl⟩
  · exact startSequence_sameImage (s := { s with ctrlOp := op, ctrlHdr := false, ctrlIe := ie }) rfl

theorem ctrlWrite_busy (start abort : Bool) (op : BitVec 2) (hdr ie : Bool) {s : State} (hb : s.engine = .busy) :
    ctrlWrite start abort op hdr ie s = { s with ctrlIe := ie, abortReq := s.abortReq || abort } :=
  if_pos ((busy_iff s).2 hb)

/-- The three host commands are CTRL writes of their operands. -/
theorem ctrlWrite_of_hostCommand {s t : State} {start abort : Bool} {op : BitVec 2} {hdr ie : Bool}
    (h : exec (.startDecode abort hdr ie) s = .next t ∨ exec (.startEncode abort op hdr ie) s = .next t ∨
      exec (.abort start op hdr ie) s = .next t) :
    ∃ start abort op, t = ctrlWrite start abort op hdr ie s := by
  obtain h | h | h := h <;> cases h <;> exact ⟨_, _, _, rfl⟩

/-- Settles O28: every host command is a CTRL write, which has the frame of a start. -/
theorem framesOfTheHostCommands : Obligations.FramesOfTheHostCommands := by
  intro s t start abort op hdr ie h
  obtain ⟨start, abort, op, rfl⟩ := ctrlWrite_of_hostCommand h
  obtain ⟨hin, hout, hlen, hcap, hie, hsched, hbus, hfree, hframes⟩ := ctrlWrite_frame start abort op hdr ie s
  refine ⟨hin, hout, hlen, hcap, hie, hsched, hbus, hfree, hframes, fun hd => ?_, fun hb => ?_⟩
  · rw [hd]
    exact ctrlWrite_sameImage start abort op ie s
  · rw [ctrlWrite_busy start abort op hdr ie hb]

end Sys2Proof.Machine

/-! ## STATE, the info bits and the parameters of a decode -/

namespace Sys2Proof.Machine

/-- STATE and the info bits are as they were. -/
def SameProgress (s t : State) : Prop :=
  t.engine = s.engine ∧ t.clamp = s.clamp ∧ t.zrun = s.zrun ∧ t.posfix = s.posfix

/-- A move of the host leaves STATE and the info bits, but for reset and a CTRL write accepted as a start. -/
theorem hostMove_progress {m : HostMove} {s t : State} (h : hostMove m s = .next t) :
    (m = .reset ∧ t = hardReset s) ∨
    (s.engine ≠ .busy ∧ ∃ v u, m = .writeReg 0x004 .word v ∧ v.getLsbD 0 = true ∧ t = startSequence u) ∨
    SameProgress s t := by
  have same : SameProgress s s := ⟨rfl, rfl, rfl, rfl⟩
  cases hostMove_cases h with
  | bus h =>
    exact .inr (.inr (by rw [h]; exact same))
  | ctrl v hm h =>
    obtain ⟨-, he⟩ | ⟨-, -, he⟩ | ⟨hn, hv, he⟩ := ctrlWrite_cases _ _ _ _ _ s
    · rw [h, he]
      exact .inr (.inr same)
    · rw [h, he]
      exact .inr (.inr same)
    · exact .inr (.inl ⟨hn, v, _, hm, hv, h.trans he⟩)
  | status b h =>
    exact .inr (.inr (by rw [h]; exact same))
  | config hn h =>
    exact .inr (.inr (by rw [h]; exact same))
  | input hn a b h =>
    exact .inr (.inr (by rw [h]; exact same))
  | output a b h =>
    exact .inr (.inr (by rw [h]; exact same))
  | reset hm h => exact .inl ⟨hm, h⟩

/-- Settles O43: an iteration ends DONE or FAIL or keeps STATE, and the host changes it by reset or a start only. -/
theorem engineStateTransitions : Obligations.EngineStateTransitions := by
  intro s t h hne
  cases step_cases h with
  | stay ht hn => exact absurd (by rw [ht]) hne
  | iteration hb u h hu hs =>
    have hbu : u.engine = s.engine := by rw [hu]
    obtain ⟨-, -, ⟨he, -⟩ | ⟨he, -⟩ | ⟨he, -⟩⟩ := (engineStep_frame h).status
    · exact absurd (he.trans hbu) hne
    · exact .inr (.inr ⟨hb, .inl he, hs.imp_right fun hs => ⟨_, .inl hs⟩⟩)
    · exact .inr (.inr ⟨hb, .inr he, hs.imp_right fun hs => ⟨_, .inl hs⟩⟩)
  | abort hb ha u h hu hs =>
    exact .inr (.inr ⟨hb, .inr (by rw [h, abortStep_engine]), hs.imp_right fun hs => ⟨_, .inr hs⟩⟩)
  | host m rest hs h =>
    obtain ⟨rfl, ht⟩ | ⟨hn, v, u, rfl, hv, ht⟩ | ⟨he, -⟩ := hostMove_progress h
    · exact .inl ⟨rest, hs, by rw [ht]; rfl⟩
    · exact .inr (.inl ⟨hn, by rw [ht]; exact startSequence_engine_ne_idle u, rest, v, hs, hv⟩)
    · exact absurd he hne

/-- An info bit that is set is cleared. -/
def ClearsInfo (s t : State) : Prop :=
  s.clamp = true ∧ t.clamp = false ∨ s.zrun = true ∧ t.zrun = false ∨ s.posfix = true ∧ t.posfix = false

theorem not_clearsInfo {s t : State} (hc : t.clamp = s.clamp ∨ t.clamp = true) (hz : t.zrun = s.zrun ∨ t.zrun = true)
    (hp : s.posfix = true → t.posfix = true) : ¬ ClearsInfo s t := by
  rintro (⟨h1, h2⟩ | ⟨h1, h2⟩ | ⟨h1, h2⟩)
  · simp [h1, h2] at hc
  · simp [h1, h2] at hz
  · simp [hp h1] at h2

/-- Settles O44: iterations only set info bits, and the host clears them by reset or a start only. -/
theorem infoBitsAreSticky : Obligations.InfoBitsAreSticky := by
  intro s t h hclear
  cases step_cases h with
  | stay ht hn => exact absurd hclear (not_clearsInfo (.inl (by rw [ht])) (.inl (by rw [ht])) (by rw [ht]; exact id))
  | iteration hb u h hu hs =>
    obtain ⟨-, ⟨hc, hz, -⟩, hp⟩ := engineStep_frame h
    rw [hu] at hc hz hp
    exact absurd hclear (not_clearsInfo hc hz hp)
  | abort hb ha u h hu hs =>
    rw [h, hu] at hclear
    exact absurd hclear (not_clearsInfo (.inl rfl) (.inl rfl) id)
  | host m rest hs h =>
    obtain ⟨rfl, -⟩ | ⟨hn, v, u, rfl, hv, -⟩ | ⟨-, hc, hz, hp⟩ := hostMove_progress h
    · exact .inl ⟨rest, hs⟩
    · exact .inr ⟨hn, rest, v, hs, hv⟩
    · exact absurd hclear (not_clearsInfo (.inl hc) (.inl hz) fun h => hp.trans h)

/-- The parameters of a decode (10_state R46, R47) are as they were. -/
def SameParameters (s t : State) : Prop :=
  t.ctrlOp = s.ctrlOp ∧ t.ctrlHdr = s.ctrlHdr ∧ t.width = s.width ∧ t.height = s.height ∧ t.depth = s.depth ∧
  t.inLen = s.inLen ∧ t.outCap = s.outCap ∧ t.fmt = s.fmt ∧ t.stride = s.stride ∧ t.npix = s.npix ∧
  t.path = s.path ∧ t.inMem = s.inMem

theorem sameParameters_refl (s : State) : SameParameters s s :=
  ⟨rfl, rfl, rfl, rfl, rfl, rfl, rfl, rfl, rfl, rfl, rfl, rfl⟩

theorem sameParameters_of_setup {s t : State} (h : SameSetup s t) : SameParameters s t :=
  ⟨h.ctrlOp, h.ctrlHdr, h.width, h.height, h.depth, h.inLen, h.outCap, h.fmt, h.stride, h.npix, h.path, h.inMem⟩

/-- While BUSY the host has no move but reset that changes a parameter. -/
theorem hostMove_sameParameters {m : HostMove} {s t : State} (hb : s.engine = .busy) (hm : m ≠ .reset)
    (h : hostMove m s = .next t) : SameParameters s t := by
  have same := sameParameters_refl s
  cases hostMove_cases h with
  | bus h =>
    rw [h]
    exact same
  | ctrl v _ h =>
    rw [h, ctrlWrite_busy _ _ _ _ _ hb]
    exact same
  | status b h =>
    rw [h]
    exact same
  | config hn h => exact absurd hb hn
  | input hn a b h => exact absurd hb hn
  | output a b h =>
    rw [h]
    exact same
  | reset hr h => exact absurd hr hm

/-- Settles O45: a code keeps the whole setup, and the host's moves while BUSY keep the parameters. -/
theorem decodeParametersAreStable : Obligations.DecodeParametersAreStable := by
  intro s t hb h hreset
  change SameParameters s t
  cases step_cases h with
  | stay ht hn =>
    rw [ht]
    exact sameParameters_refl s
  | iteration hb u h hu hs =>
    have hp := sameParameters_of_setup (engineStep_frame h).setup
    rw [hu] at hp
    exact hp
  | abort hb ha u h hu hs =>
    rw [h, hu]
    exact sameParameters_refl s
  | host m rest hs h =>
    exact hostMove_sameParameters (s := { s with schedule := rest }) hb (fun hm => hreset rest (hm ▸ hs)) h

end Sys2Proof.Machine

/-! ## Reading registers -/

namespace Sys2Proof.Machine

theorem append_toNat {m n : Nat} (x : BitVec m) (y : BitVec n) : (x ++ y).toNat = x.toNat * 2 ^ n + y.toNat := by
  rw [BitVec.toNat_append, ← Nat.shiftLeft_add_eq_or_of_lt y.isLt, Nat.shiftLeft_eq]

/-- The CTRL word is the sum of its fields (10_state R24). -/
theorem ctrlReg_toNat (s : State) :
    (ctrlReg s).toNat = 4 * s.ctrlOp.toNat + 0x10 * s.ctrlHdr.toNat + 0x20 * s.ctrlIe.toNat := by
  simp only [ctrlReg, ctrlWord_toNat]
  simp

/-- The STATUS word is the sum of its fields (10_state R25). -/
theorem statusReg_toNat (s : State) :
    (statusReg s).toNat = (stateCode s.engine).toNat + 16 * (resultCode s.result).toNat + 0x100 * s.irqPend.toNat +
      0x10000 * s.clamp.toNat + 0x20000 * s.zrun.toNat + 0x40000 * s.posfix.toNat := by
  simp only [statusReg, append_toNat, BitVec.toNat_ofBool]
  simp
  omega

/-- Settles O57: each register is its own branch of the map, and CTRL and STATUS are the sums of their fields. -/
theorem registerValuesInEveryState : Obligations.RegisterValuesInEveryState := by
  intro s off
  refine ⟨?_, ?_, ?_, ?_, ?_, ?_, ?_, ?_, ?_, ?_, ?_⟩ <;> rintro rfl
  · rfl
  · exact ctrlReg_toNat s
  · refine (statusReg_toNat s).trans ?_
    cases s.engine <;> cases s.result <;> rfl
  · exact BitVec.toNat_setWidth_of_le (by decide : 16 ≤ 32)
  · exact BitVec.toNat_setWidth_of_le (by decide : 16 ≤ 32)
  · exact BitVec.toNat_setWidth_of_le (by decide : 8 ≤ 32)
  · rfl
  · rfl
  · change ((fmtCode s.fmt).setWidth 32).toNat = _
    cases s.fmt <;> rfl
  · rfl
  · rfl

/-- Settles O42: the STATUS clause of the register map's values. -/
theorem statusWordFields : Obligations.StatusWordFields := by
  intro s
  obtain ⟨-, -, hstatus, -⟩ := registerValuesInEveryState s 0x008
  exact hstatus rfl

/-! The windows and the reserved offsets -/

theorem regValue_window24 (s : State) {off : Nat} (h1 : 0x100 ≤ off) (h2 : off < 0x300) :
    regValue off s = (s.frame24[(off - 0x100) / 4]'(by simp only [Config.k24]; omega)).setWidth 32 := by
  unfold regValue
  iterate 16 rw [if_neg (by omega)]
  rw [dif_pos ⟨h1, h2⟩]

theorem regValue_frame24 (s : State) {i : Nat} (h : i < 128) :
    regValue (0x100 + 4 * i) s = s.frame24[i].setWidth 32 := by
  have hi : (0x100 + 4 * i - 0x100) / 4 = i := by omega
  rw [regValue_window24 s (by omega) (by omega)]
  simp only [hi]

theorem regValue_frame8 (s : State) {i : Nat} (h : i < 15) :
    regValue (0x300 + 4 * i) s = s.frame8[i].setWidth 32 := by
  have hi : (0x300 + 4 * i - 0x300) / 4 = i := by omega
  unfold regValue
  iterate 16 rw [if_neg (by omega)]
  rw [dif_neg (by omega), dif_pos (by omega)]
  simp only [hi]

/-- Reserved offsets read 0 (10_state R39). -/
theorem regValue_reserved (s : State) {off : Nat} (h : 0x040 ≤ off ∧ off < 0x100 ∨ 0x33C ≤ off) :
    regValue off s = 0 := by
  unfold regValue
  iterate 16 rw [if_neg (by omega)]
  rw [dif_neg (by omega), dif_neg (by omega)]

theorem reset_frame24 {i : Nat} (h : i < 128) : State.reset.frame24[i] = 0 :=
  Vector.getElem_replicate h

/-- Below the windows every register but ID is 0 after reset (10_state R48). -/
theorem regValue_reset_low {off : Nat} (h1 : 0x004 ≤ off) (h2 : off < 0x100) : regValue off State.reset = 0 := by
  by_cases h : off < 0x040
  · interval_cases off <;> rfl
  · exact regValue_reserved _ (.inl ⟨by omega, h2⟩)

/-- Settles O1: the fields of the reset state are 0 or the initial frames, and so is every register made of them. -/
theorem resetValuesOfEveryRegister : Obligations.ResetValuesOfEveryRegister := by
  have h8 : ∀ i : Fin 14, frame8Init[(i : Nat)].setWidth 32 = BitVec.ofNat 32 i := by decide
  refine ⟨rfl, fun off h1 h2 => ?_, fun i hi => ?_, rfl, fun i hi => ?_, rfl, rfl, rfl, rfl⟩
  · by_cases hw : 0x100 ≤ off
    · rw [regValue_window24 _ hw h2, reset_frame24]
      rfl
    · exact regValue_reset_low h1 (by omega)
  · rw [regValue_frame8 _ (by omega)]
    exact h8 ⟨i, hi⟩
  · exact reset_frame24 hi

/-! Reads -/

/-- A word read that is not BUSY returns the register. -/
theorem readReg_idle {s : State} (off : Nat) (hn : s.engine ≠ .busy) :
    readReg off s = { s with busData := regValue off s } := by
  unfold readReg
  rw [if_neg ((not_busy_iff s).2 hn)]

/-- Settles O40: a read returns `regValue`, whose value each offset's lemma gives. -/
theorem idleReadsReturnTheRegister : Obligations.IdleReadsReturnTheRegister := by
  intro s rest off hs ha hn
  have h : step s = .next { s with schedule := rest, busData := regValue off.toNat s } := by
    rw [step_of_host hs, hostMove_readReg _ ha, readReg_idle (s := { s with schedule := rest }) _ hn]
    rfl
  refine ⟨_, h, rfl, registerValuesInEveryState s off, ?_, ?_, ?_, ?_, ?_, ?_, ?_, ?_, ?_⟩
  · rintro rfl
    rfl
  · rintro rfl
    rfl
  · rintro rfl
    rfl
  · rintro rfl
    rfl
  · rintro rfl
    exact BitVec.toNat_setWidth_of_le (by decide : 8 ≤ 32)
  · intro i hi ho
    rw [ho, regValue_frame24 s hi]
    exact BitVec.toNat_setWidth_of_le (by decide : 24 ≤ 32)
  · intro i hi ho
    rw [ho, regValue_frame8 s hi]
    exact BitVec.toNat_setWidth_of_le (by decide : 8 ≤ 32)
  · exact fun h1 h2 => regValue_reserved s (.inl ⟨h1, h2⟩)
  · exact fun h => regValue_reserved s (.inr h)

/-- A word read while BUSY of a register with a mask: its reserved bits are 0, whatever the free value is. -/
theorem readReg_masked {s : State} {off n : Nat} {mask : Word} (hb : s.engine = .busy)
    (hm : busyMask off = some mask) (hn : mask.toNat < 2 ^ n) : (readReg off s).busData.toNat < 2 ^ n := by
  have h : (readReg off s).busData = Config.freeRead s.freeIdx &&& mask := by
    simp [readReg, (busy_iff s).2 hb, hm]
  rw [h, BitVec.toNat_and]
  exact lt_of_le_of_lt Nat.and_le_right hn

/-- A word read of a register without a mask returns it, in every state. -/
theorem readReg_current {s : State} {off : Nat} (hm : busyMask off = none) :
    (readReg off s).busData = regValue off s := by
  simp [readReg, hm]

theorem busyMask_pend : busyMask 0x038 = some 0xFF := rfl

theorem busyMask_frame24 {off : Nat} (h1 : 0x100 ≤ off) (h2 : off < 0x300) : busyMask off = some 0xFFFFFF := by
  unfold busyMask
  rw [if_neg (by omega), if_neg (by omega), if_neg (by omega), if_pos ⟨h1, h2⟩]

theorem busyMask_frame8 {off : Nat} (h1 : 0x300 ≤ off) (h2 : off < 0x33C) : busyMask off = some 0xFF := by
  unfold busyMask
  rw [if_neg (by omega), if_neg (by omega), if_neg (by omega), if_neg (by omega), if_pos ⟨h1, h2⟩]

/-- The registers outside the progress registers and the windows have no mask. -/
theorem busyMask_current {off : Nat} (h : off < 0x02C ∨ 0x040 ≤ off ∧ off < 0x100 ∨ 0x33C ≤ off) :
    busyMask off = none := by
  unfold busyMask
  iterate 5 rw [if_neg (by omega)]

/-- Settles O39: `busyMask` gives the reserved bits of PEND and the windows, and no mask for the current registers. -/
theorem busyProgressReadsKeepReservedBits : Obligations.BusyProgressReadsKeepReservedBits := by
  intro s rest off hs ha hb
  refine ⟨_, (step_of_host hs).trans (hostMove_readReg _ ha), readReg_eq _ _, ?_, fun h1 h2 => ?_, fun h1 h2 => ?_,
    fun h => ?_⟩
  · rintro rfl
    exact readReg_masked hb busyMask_pend (by decide)
  · exact readReg_masked hb (busyMask_frame24 h1 h2) (by decide)
  · exact readReg_masked hb (busyMask_frame8 h1 h2) (by decide)
  · exact readReg_current (busyMask_current h)

end Sys2Proof.Machine

/-! ## Writing registers -/

namespace Sys2Proof.Machine

theorem step_writeReg {s : State} {rest : List Turn} {off : BitVec 10} {v : Word}
    (hs : s.schedule = .host (.writeReg off .word v) :: rest) (ha : off.toNat % 4 = 0) (hc : off.toNat ≠ ctrlOffset) :
    step s = .next (writeReg off.toNat v { s with schedule := rest }) :=
  (step_of_host hs).trans (hostMove_writeReg _ v ha hc)

/-- Settles O35: such a write reaches no branch of `writeReg` that stores. -/
theorem ignoredRegisterWrites : Obligations.IgnoredRegisterWrites := by
  intro s rest off v hs ha hctrl hstatus h
  have h4 : off.toNat ≠ 0x004 := fun h => hctrl (BitVec.eq_of_toNat_eq h)
  have h8 : off.toNat ≠ 0x008 := fun h => hstatus (BitVec.eq_of_toNat_eq h)
  rw [step_writeReg hs ha h4]
  unfold writeReg
  rw [if_neg h8]
  split
  · rfl
  · rename_i hb
    have hoff : off.toNat < 0x00C ∨ 0x020 ≤ off.toNat := h.resolve_left ((not_busy_iff _).1 hb)
    iterate 5 rw [if_neg (by omega)]

/-- Settles O36: each configuration register is its own branch of `writeReg`. -/
theorem configurationWritesStore : Obligations.ConfigurationWritesStore := by
  intro s rest v hn
  have hb : ({ s with schedule := rest } : State).busy = false := by
    simpa only [Bool.not_eq_true] using (not_busy_iff { s with schedule := rest }).2 hn
  refine ⟨fun hs => ?_, fun hs => ?_, fun hs => ?_, fun hs => ?_, fun hs => ?_⟩ <;>
    rw [step_writeReg hs (by decide) (by decide)]
  · simp [writeReg, hb, BitVec.setWidth_eq_extractLsb']
  · simp [writeReg, hb, BitVec.setWidth_eq_extractLsb']
  · simp [writeReg, hb, BitVec.setWidth_eq_extractLsb']
  · simp [writeReg, hb]
  · simp [writeReg, hb]

/-- Settles O38: a plain CTRL write is `ctrlWrite` with neither trigger. -/
theorem interruptEnableGatesTheLine : Obligations.InterruptEnableGatesTheLine := by
  intro s rest v hs hstart habort
  have he : step s = .next (ctrlWrite false false (v.extractLsb' 2 2) (v.getLsbD 4) (v.getLsbD 5)
      { s with schedule := rest }) := by
    rw [step_of_host hs, hostMove_writeCtrl, writeCtrl_eq, ctrlStart, ctrlAbort, hstart, habort]
    rfl
  refine ⟨_, he, ?_⟩
  obtain ⟨hb, h⟩ | ⟨hn, -, h⟩ | ⟨-, h, -⟩ := ctrlWrite_cases false false (v.extractLsb' 2 2) (v.getLsbD 4)
    (v.getLsbD 5) { s with schedule := rest }
  · rw [h]
    exact ⟨fun hn => absurd hb hn, fun _ => by rw [Bool.or_false], rfl, rfl, rfl⟩
  · rw [h]
    exact ⟨fun _ => rfl, fun hb => absurd hb hn, rfl, rfl, rfl⟩
  · cases h

end Sys2Proof.Machine

/-! ## No step faults -/

namespace Sys2Proof.Machine

/-- From the invariant a control code has room for its run (20_memory R72), so it does not fault. -/
theorem exec_ne_fault {i : Instr} {s : State} (hi : isCode i = true) (hinv : s.Inv) (f : Fault) :
    exec i s ≠ .fault f := by
  cases code_end i s hi with
  | noRoom hb he hroom => exact absurd hroom (Nat.not_lt.2 (hinv.room hb))
  | notEnabled he => simp [he]
  | undone off hb hoff he => simp [he]
  | run24 q pix cnt pos hb hp hq hn hfit he => simp [he]
  | run8 fix pix cnt pos hb hp hn hfit he => simp [he]

theorem engineStep_ne_fault {s : State} (hinv : s.Inv) (f : Fault) : engineStep s ≠ .fault f := by
  obtain ⟨i, hf, he⟩ | ⟨off, -, he⟩ := engineStep_cases s
  · rw [he]
    exact exec_ne_fault (isCode_of_ctx (ctx_of_fetchCode hf)) hinv f
  · simp [he]

theorem engineTurn_ne_fault {s : State} (hinv : s.Inv) (f : Fault) : engineTurn s ≠ .fault f := by
  unfold engineTurn
  split
  · split
    · dsimp only
      split
      · nofun
      · exact engineStep_ne_fault (s := { s with freeIdx := s.freeIdx + 1 }) { hinv with } f
    · exact engineStep_ne_fault hinv f
  · nofun

/-- A move of the host or the platform has a next state or is refused, in any state. -/
theorem hostMove_ne_fault (m : HostMove) (s : State) (f : Fault) : hostMove m s ≠ .fault f := by
  intro h
  have he := hostMove_end m s
  rw [h] at he
  cases he

theorem takeTurn_ne_fault (turn : Turn) {s : State} (hinv : s.Inv) (f : Fault) : takeTurn turn s ≠ .fault f := by
  cases turn with
  | engine =>
    simp only [takeTurn]
    split
    · exact engineStep_ne_fault hinv f
    · nofun
  | abortStep =>
    simp only [takeTurn]
    split <;> nofun
  | host m => exact hostMove_ne_fault m s f

/-- Settles O4: whoever moves next, the turn is taken from a state that keeps the invariant. -/
theorem invariantStepsNeverFault : Obligations.InvariantStepsNeverFault := by
  intro s hinv f
  unfold step stepTurn
  split
  · exact engineTurn_ne_fault hinv f
  · rename_i turn rest hs
    exact takeTurn_ne_fault turn (s := { s with schedule := rest }) { hinv with } f

end Sys2Proof.Machine

/-! ## Where an engine turn writes -/

namespace Sys2Proof.Machine

/-- OUT_PTR moves forward, if at all, and only the output bytes that it passes change (20_memory R80). -/
structure WritesForward (s t : State) : Prop where
  outPtr_le : s.outPtr.toNat ≤ t.outPtr.toNat
  outside : ∀ a, a < s.outPtr.toNat ∨ t.outPtr.toNat ≤ a → t.outMem.read a = s.outMem.read a

/-- A truncated iteration writes nothing. -/
theorem truncated_writesForward (off : Nat) (s : State) : WritesForward s (truncated off s) :=
  ⟨Nat.le_refl _, fun _ _ => rfl⟩

/-- Emit with room writes exactly the bytes that OUT_PTR passes. -/
theorem emit_writesForward {cnt : Int} {unit : List Byte} {s : State} (hfit : emitFits cnt unit.length s = true) :
    WritesForward s (emit cnt unit s) := by
  have hp := emit_outPtr_toNat hfit
  refine ⟨by omega, fun a ha => ?_⟩
  rw [hp] at ha
  rw [emit_outMem]
  exact Memory.read_writeRun_outside _ _ ha

theorem exec_writesForward {i : Instr} {s t : State} (hi : isCode i = true) (h : exec i s = .next t) :
    WritesForward s t := by
  cases code_end i s hi with
  | notEnabled he => simp [he] at h
  | undone off hb hoff he =>
    rw [he] at h
    cases h
    exact truncated_writesForward off s
  | noRoom hb he hroom => simp [he] at h
  | run24 q pix cnt pos hb hp hq hn hfit he =>
    rw [he] at h
    cases h
    obtain ⟨hle, hout⟩ :=
      emit_writesForward (unit := bytes3 pix) (s := { advance i.length s with pend := q }) hfit
    exact ⟨by simpa using hle, by simpa using hout⟩
  | run8 fix pix cnt pos hb hp hn hfit he =>
    rw [he] at h
    cases h
    obtain ⟨hle, hout⟩ :=
      emit_writesForward (unit := [pix]) (s := { advance i.length s with posfix := s.posfix || fix }) hfit
    exact ⟨by simpa using hle, by simpa using hout⟩

theorem engineStep_writesForward {s t : State} (h : engineStep s = .next t) : WritesForward s t := by
  obtain ⟨i, hf, he⟩ | ⟨off, -, he⟩ := engineStep_cases s
  · exact exec_writesForward (isCode_of_ctx (ctx_of_fetchCode hf)) (he ▸ h)
  · rw [he] at h
    cases h
    exact truncated_writesForward _ s

/-- Once a decode is dispatched, OUT_PTR is at most the size of the image (10_state R36). -/
theorem State.Inv.outPtr_le_outSize {s : State} (h : s.Inv) (hf : s.fmt ≠ .noFmt) : s.outPtr.toNat ≤ s.outSize := by
  rw [h.outPtr_eq hf]
  exact Nat.mul_le_mul_right _ (Nat.sub_le _ _)

/-- Settles O47: OUT_PTR after the turn is bounded by the invariant that the iteration keeps, as it keeps FMT, NPIX and
PATH. -/
theorem engineWritesForwardBelowTheImage : Obligations.EngineWritesForwardBelowTheImage := by
  intro s t rest hinv hnext h
  rw [step_of_engineNext hnext] at h
  obtain ⟨hle, hout⟩ := engineStep_writesForward h
  have hsetup := (engineStep_frame h).setup
  have hfmt : t.fmt ≠ .noFmt := by
    rw [hsetup.fmt]
    exact hinv.busy_fmt (.inl hnext.1)
  have hbound := (engineStep_keeps_inv (inv_of_environment hinv rfl) h).outPtr_le_outSize hfmt
  rw [State.outSize, hsetup.npix, hsetup.path] at hbound
  exact ⟨hle, hbound, hout⟩

end Sys2Proof.Machine

/-! ## What an engine turn reads -/

namespace Sys2Proof.Machine

/-- The state with the input space `m` in place of its own. -/
def replaceInput (m : Memory) (s : State) : State := { s with inMem := m }

/-- The outcome with the input space `m` in its next state. -/
def replaceInputAfter (m : Memory) : Out → Out
  | .next t => .next (replaceInput m t)
  | .fault f => .fault f
  | .refused r => .refused r

/-- `k` neither reads nor writes the input space: it takes another one through as it is. -/
def InputFree (k : State → Out) : Prop := ∀ m s, k (replaceInput m s) = replaceInputAfter m (k s)

theorem complete_replaceInput (m : Memory) (s : State) :
    complete (replaceInput m s) = replaceInput m (complete s) := by
  obtain ⟨h0, h⟩ | ⟨h0, h⟩ := complete_cases s <;> rw [h]
  · exact if_pos h0
  · exact if_neg h0

theorem inputFree_finish24 (pix : Pixel) (cnt : Int) (pos : Fin Config.k24) : InputFree (finish24 pix cnt pos) := by
  intro m s
  obtain ⟨hfit, h⟩ | ⟨hfit, h⟩ := finish24_cases pix cnt pos s <;> rw [h]
  · exact (if_pos hfit).trans (congrArg _ (complete_replaceInput m (mtf24 pos pix (emit cnt (bytes3 pix) s))))
  · exact if_neg (Bool.eq_false_iff.1 hfit)

theorem inputFree_finish8 (pix : Byte) (cnt : Int) (pos : Fin Config.k8) : InputFree (finish8 pix cnt pos) := by
  intro m s
  obtain ⟨hfit, h⟩ | ⟨hfit, h⟩ := finish8_cases pix cnt pos s <;> rw [h]
  · exact (if_pos hfit).trans (congrArg _ (complete_replaceInput m (mtf8 pos pix (emit cnt [pix] s))))
  · exact if_neg (Bool.eq_false_iff.1 hfit)

theorem inputFree_slotRef (base k : Int) (sel q : BitVec 4) : InputFree (slotRef base k sel q) := fun m s =>
  inputFree_finish8 _ _ _ m { s with posfix := posfixAfter sel s }

section
variable {ns : List Nat} {k : State → Out}

/-- The fields' bounds are checked on CURSOR and IN_LEN alone: their bytes were fetched before. -/
theorem inputFree_withFields (hk : InputFree k) : InputFree (withFields ns · k) := by
  intro m s
  obtain ⟨off, hoff, h⟩ | ⟨hn, h⟩ := withFields_cases ns s k <;> dsimp only <;> rw [h]
  · simp only [withFields, replaceInput, hoff]
    rfl
  · rw [← hk m (advance ns.sum s)]
    simp only [withFields, replaceInput, hn]
    rfl

theorem inputFree_code24 {pending : Bool} (hk : InputFree k) : InputFree (code24 pending ns · k) := by
  intro m s
  by_cases hen : enabled24 pending s = true
  · dsimp only
    rw [code24_enabled k hen, code24_enabled k (s := replaceInput m s) hen]
    exact inputFree_withFields hk m s
  · simp only [code24, if_neg hen]
    exact if_neg hen

theorem inputFree_code8 (hk : InputFree k) : InputFree (code8 ns · k) := by
  intro m s
  by_cases hen : enabled8 s = true
  · dsimp only
    rw [code8_enabled k hen, code8_enabled k (s := replaceInput m s) hen]
    exact inputFree_withFields hk m s
  · simp only [code8, if_neg hen]
    exact if_neg hen

end

/-- What a decoded code does depends on the input space no more. -/
theorem inputFree_exec {i : Instr} (hi : isCode i = true) : InputFree (exec i) := by
  cases i with
  | litp pix => exact inputFree_code24 fun m u => inputFree_finish24 _ _ _ m { u with pend := u.pend - 1 }
  | litc c pix => exact inputFree_code24 fun m u => inputFree_finish24 _ _ _ m { u with pend := chainPend c }
  | drefs | drefl | drefx | litx | litr => exact inputFree_code24 fun m u => inputFree_finish24 _ _ _ m u
  | bref | blit | blit8 | blit16 | blit32 => exact inputFree_code8 fun m u => inputFree_finish8 _ _ _ m u
  | bref8 | bref16 | bref32 => exact inputFree_code8 (inputFree_slotRef _ _ _ _)
  | startDecode | startEncode | abort => cases hi

theorem readBytes_congr {m m' : Memory} {a n : Nat} (h : ∀ x, a ≤ x → x < a + n → m.read x = m'.read x) :
    m.readBytes a n = m'.readBytes a n := by
  apply List.ext_getElem (by simp)
  intro j h1 h2
  have hj : j < n := by simpa using h1
  rw [Memory.getElem_readBytes m hj, Memory.getElem_readBytes m' hj]
  exact h (a + j) (by omega) (by omega)

/-- Spaces that agree between CURSOR and IN_LEN hold the same code at CURSOR (20_memory R71). -/
theorem fetchCode_replaceInput {m : Memory} {s : State}
    (h : ∀ a, s.cursor.toNat ≤ a → a < s.inLen.toNat → m.read a = s.inMem.read a) :
    fetchCode (replaceInput m s) = fetchCode s := by
  have hbytes : fetchBytes (replaceInput m s) = fetchBytes s :=
    readBytes_congr fun x h1 h2 => by
      simp only [replaceInput] at h1 h2
      exact h x h1 (by omega)
  unfold fetchCode
  rw [hbytes]
  rfl

theorem engineStep_replaceInput {m : Memory} {s : State}
    (h : ∀ a, s.cursor.toNat ≤ a → a < s.inLen.toNat → m.read a = s.inMem.read a) :
    engineStep (replaceInput m s) = replaceInputAfter m (engineStep s) := by
  have hf := fetchCode_replaceInput h
  cases hc : fetchCode s with
  | code i =>
    simp only [engineStep, hf, hc]
    exact inputFree_exec (isCode_of_ctx (ctx_of_fetchCode hc)) m s
  | short off =>
    simp only [engineStep, hf, hc]
    rfl

/-- Settles O51: the code fetched is the same, and running it uses no input byte. -/
theorem onlyTheStreamIsRead : Obligations.OnlyTheStreamIsRead := by
  intro s rest m hnext hm
  have hnext' : (replaceInput m s).engineNext rest := hnext
  have h : step (replaceInput m s) = replaceInputAfter m (step s) := by
    rw [step_of_engineNext hnext, step_of_engineNext hnext']
    exact engineStep_replaceInput (s := { s with schedule := rest }) hm
  rw [← replaceInput, h]
  cases step s <;> rfl

end Sys2Proof.Machine

/-! ## The decoder, branch by branch -/

namespace Sys2Proof

/-! The operand constraints, for the forms that have one (30_encoding R93, R96). -/

theorem wf_drefs_iff {c : BitVec 2} {f : BitVec 5} : (Instr.drefs c f).wf = true ↔ c ≠ 0 := by
  simp [Instr.wf]

theorem wf_drefl_iff {f : BitVec 5} {x : BitVec 1} {p : BitVec 7} :
    (Instr.drefl f x p).wf = true ↔ ¬ (f = 0 ∧ x = 0) := by
  simp [Instr.wf, imp_iff_not_or]

theorem wf_litr_iff {n : BitVec 7} {pix : Pixel} : (Instr.litr n pix).wf = true ↔ 2 ≤ n.toNat := by
  simp [Instr.wf]

theorem wf_bref_iff {hi lo : BitVec 4} : (Instr.bref hi lo).wf = true ↔ hi ≠ 0 := by
  simp [Instr.wf]

theorem wf_blit_iff {lo : BitVec 4} {b : Byte} : (Instr.blit lo b).wf = true ↔ lo.toNat ≤ 9 := by
  simp [Instr.wf]

theorem wf_startEncode_iff {abort : Bool} {op : BitVec 2} {hdr ie : Bool} :
    (Instr.startEncode abort op hdr ie).wf = true ↔ op ≠ 0 := by
  simp [Instr.wf]

/-! The D24 selection by control byte, with no literal pending (42_decode24 R160). -/

section
variable {ctl : Byte}

theorem decode24_drefs (r : List Byte) (h7 : ctl.getLsbD 7 = true) (hc : ctl.extractLsb' 5 2 ≠ 0) :
    decode24 false (ctl :: r) = .code (.drefs (ctl.extractLsb' 5 2) (ctl.extractLsb' 0 5)) := by
  simp only [decode24, field1_cons, h7, if_pos hc]
  rfl

theorem decode24_drefl {ext : Byte} (r : List Byte) (h7 : ctl.getLsbD 7 = true) (hc : ctl.extractLsb' 5 2 = 0)
    (hfx : ¬ (ctl.extractLsb' 0 5 = 0 ∧ ext.extractLsb' 7 1 = 0)) :
    decode24 false (ctl :: ext :: r) =
      .code (.drefl (ctl.extractLsb' 0 5) (ext.extractLsb' 7 1) (ext.extractLsb' 0 7)) := by
  simp only [decode24, field1_cons, h7, hc, if_neg hfx]
  rfl

theorem decode24_drefx {ext : Byte} (r : List Byte) (hx : ext.extractLsb' 7 1 = 0) :
    decode24 false (0x80 :: ext :: r) = field4 2 r fun k _ => .code (.drefx (ext.extractLsb' 0 7) k) := by
  have hf : (0x80 : Byte).extractLsb' 0 5 = 0 ∧ ext.extractLsb' 7 1 = 0 := ⟨rfl, hx⟩
  exact if_pos hf

theorem decode24_litc (r : List Byte) :
    decode24 false (0x01 :: r) = field1 1 r fun m r => field3 2 r fun pix _ => .code (.litc m pix) := rfl

theorem decode24_litx (r : List Byte) :
    decode24 false (0x00 :: r) = field4 1 r fun k r => field3 5 r fun pix _ => .code (.litx k pix) := rfl

theorem decode24_litr (r : List Byte) (h7 : ctl.getLsbD 7 = false) (h1 : ctl ≠ 0x01) (h0 : ctl ≠ 0x00) :
    decode24 false (ctl :: r) = field3 1 r fun pix _ => .code (.litr (ctl.extractLsb' 0 7) pix) := by
  simp only [decode24, field1_cons, h7, if_neg h1, if_neg h0]
  rfl

/-! The D8 selection by control byte (43_decode8 R180). -/

theorem decode8_bref (r : List Byte) (h : ctl.extractLsb' 4 4 ≠ 0) :
    decode8 (ctl :: r) = .code (.bref (ctl.extractLsb' 4 4) (ctl.extractLsb' 0 4)) :=
  if_pos h

theorem decode8_blit (r : List Byte) (hhi : ctl.extractLsb' 4 4 = 0) (hlo : (ctl.extractLsb' 0 4).toNat ≤ 9) :
    decode8 (ctl :: r) = field1 1 r fun b _ => .code (.blit (ctl.extractLsb' 0 4) b) := by
  simp only [decode8, field1_cons, hhi, if_pos hlo]
  rfl

theorem decode8_blit8 (r : List Byte) :
    decode8 (0x0A :: r) = field1 1 r fun k r => field1 2 r fun b _ => .code (.blit8 k b) := rfl

theorem decode8_blit16 (r : List Byte) :
    decode8 (0x0B :: r) = field2 1 r fun k r => field1 3 r fun b _ => .code (.blit16 k b) := rfl

theorem decode8_blit32 (r : List Byte) :
    decode8 (0x0C :: r) = field4 1 r fun k r => field1 5 r fun b _ => .code (.blit32 k b) := rfl

theorem decode8_bref8 (r : List Byte) :
    decode8 (0x0D :: r) = field1 1 r fun k r =>
      field1 2 r fun b _ => .code (.bref8 k (b.extractLsb' 4 4) (b.extractLsb' 0 4)) := rfl

theorem decode8_bref16 (r : List Byte) :
    decode8 (0x0E :: r) = field2 1 r fun k r =>
      field1 3 r fun b _ => .code (.bref16 k (b.extractLsb' 4 4) (b.extractLsb' 0 4)) := rfl

theorem decode8_bref32 (r : List Byte) :
    decode8 (0x0F :: r) = field4 1 r fun k r =>
      field1 5 r fun b _ => .code (.bref32 k (b.extractLsb' 4 4) (b.extractLsb' 0 4)) := rfl

end

/-! Decoding undoes encoding, for each of the three groups. -/

theorem decode24_encode {i : Instr} {pending : Bool} (hctx : i.ctx = .d24 pending) (hwf : i.wf = true)
    (rest : List Byte) : decode24 pending (encode i ++ rest) = .code i := by
  cases i with
  | litp pix =>
    cases hctx
    rw [decode24, if_pos rfl, encode, field3_bytes3]
  | drefs c f =>
    cases hctx
    obtain ⟨hc, hf, h7⟩ := drefs_byte c f
    refine (decode24_drefs rest h7 (by rwa [hc, ← wf_drefs_iff])).trans ?_
    rw [hc, hf]
  | drefl f x p =>
    cases hctx
    obtain ⟨hc, hf, h7⟩ := drefl_byte f
    obtain ⟨hx, hp⟩ := ext_byte x p
    refine (decode24_drefl rest h7 hc (by rwa [hf, hx, ← wf_drefl_iff])).trans ?_
    rw [hf, hx, hp]
  | drefx p k =>
    cases hctx
    obtain ⟨hx, hp⟩ := ext_byte 0 p
    refine (decode24_drefx (bytes4 k ++ rest) hx).trans ?_
    rw [field4_bytes4, hp]
  | litc m pix =>
    cases hctx
    refine (decode24_litc (m :: (bytes3 pix ++ rest))).trans ?_
    rw [field1_cons, field3_bytes3]
  | litx k pix =>
    cases hctx
    refine (decode24_litx (bytes4 k ++ (bytes3 pix ++ rest))).trans ?_
    rw [field4_bytes4, field3_bytes3]
  | litr n pix =>
    cases hctx
    obtain ⟨h7, hn, hne⟩ := litr_byte n
    obtain ⟨h1, h0⟩ := hne (wf_litr_iff.1 hwf)
    refine (decode24_litr (bytes3 pix ++ rest) h7 h1 h0).trans ?_
    rw [field3_bytes3, hn]
  | _ => cases hctx

theorem decode8_encode {i : Instr} (hctx : i.ctx = .d8) (hwf : i.wf = true) (rest : List Byte) :
    decode8 (encode i ++ rest) = .code i := by
  cases i with
  | bref hi lo =>
    obtain ⟨hhi, hlo⟩ := nibble_byte hi lo
    refine (decode8_bref rest (by rwa [hhi, ← wf_bref_iff])).trans ?_
    rw [hhi, hlo]
  | blit lo b =>
    obtain ⟨hhi, hlo⟩ := nibble_byte 0 lo
    refine (decode8_blit (b :: rest) hhi (by rwa [hlo, ← wf_blit_iff])).trans ?_
    rw [field1_cons, hlo]
  | blit8 k b => exact decode8_blit8 (k :: b :: rest)
  | blit16 k b =>
    refine (decode8_blit16 (bytes2 k ++ b :: rest)).trans ?_
    rw [field2_bytes2, field1_cons]
  | blit32 k b =>
    refine (decode8_blit32 (bytes4 k ++ b :: rest)).trans ?_
    rw [field4_bytes4, field1_cons]
  | bref8 k sel q =>
    obtain ⟨hsel, hq⟩ := nibble_byte sel q
    refine (decode8_bref8 (k :: (sel ++ q) :: rest)).trans ?_
    rw [field1_cons, field1_cons, hsel, hq]
  | bref16 k sel q =>
    obtain ⟨hsel, hq⟩ := nibble_byte sel q
    refine (decode8_bref16 (bytes2 k ++ (sel ++ q) :: rest)).trans ?_
    rw [field2_bytes2, field1_cons, hsel, hq]
  | bref32 k sel q =>
    obtain ⟨hsel, hq⟩ := nibble_byte sel q
    refine (decode8_bref32 (bytes4 k ++ (sel ++ q) :: rest)).trans ?_
    rw [field4_bytes4, field1_cons, hsel, hq]
  | _ => cases hctx

/-- A host command is what its own CTRL word decodes to, in the STATE that makes it that command (10_state R24). -/
theorem decodeCtrl_startDecode (abort hdr ie : Bool) :
    decodeCtrl false (ctrlWord true abort 0 hdr ie) = some (.startDecode abort hdr ie) := by
  obtain ⟨hs, ha, ho, hh, hi⟩ := ctrlWord_fields true abort 0 hdr ie
  simp only [decodeCtrl, hs, ha, ho, hh, hi]
  simp

theorem decodeCtrl_startEncode (abort : Bool) {op : BitVec 2} (hdr ie : Bool) (hop : op ≠ 0) :
    decodeCtrl false (ctrlWord true abort op hdr ie) = some (.startEncode abort op hdr ie) := by
  obtain ⟨hs, ha, ho, hh, hi⟩ := ctrlWord_fields true abort op hdr ie
  simp only [decodeCtrl, hs, ha, ho, hh, hi, if_neg hop]
  simp

theorem decodeCtrl_abort (start : Bool) (op : BitVec 2) (hdr ie : Bool) :
    decodeCtrl true (ctrlWord start true op hdr ie) = some (.abort start op hdr ie) := by
  obtain ⟨hs, ha, ho, hh, hi⟩ := ctrlWord_fields start true op hdr ie
  simp [decodeCtrl, hs, ha, ho, hh, hi]

theorem decode_encode_ctrl {i : Instr} {busy : Bool} (hctx : i.ctx = .ctrl busy) (hwf : i.wf = true)
    (rest : List Byte) : decode (.ctrl busy) (encode i ++ rest) = .ok i := by
  cases i with
  | startDecode abort hdr ie =>
    cases hctx
    exact decode_bytes4 rest (decodeCtrl_startDecode abort hdr ie)
  | startEncode abort op hdr ie =>
    cases hctx
    exact decode_bytes4 rest (decodeCtrl_startEncode abort hdr ie (wf_startEncode_iff.1 hwf))
  | abort start op hdr ie =>
    cases hctx
    exact decode_bytes4 rest (decodeCtrl_abort start op hdr ie)
  | _ => cases hctx

/-- Settles O7: the instruction's context picks the group, and each group's decoder undoes the encoder. -/
theorem decodeOfEncodeIsTheInstruction : Obligations.DecodeOfEncodeIsTheInstruction := by
  intro i rest hwf
  cases hctx : i.ctx with
  | d24 pending => simp only [decode, decode24_encode hctx hwf, CodeResult.toExcept]
  | d8 => simp only [decode, decode8_encode hctx hwf, CodeResult.toExcept]
  | ctrl busy => exact decode_encode_ctrl hctx hwf rest

end Sys2Proof

/-! ## A code has one encoding -/

namespace Sys2Proof

/-- Whatever code a reading gives is well formed, and its encoding is `pre`, the bytes read so far, and the first of the
bytes `bs` still to be read. -/
def EncodedBy (pre bs : List Byte) (res : CodeResult) : Prop :=
  ∀ i, res = .code i → i.wf = true ∧ ∃ r, pre ++ bs = encode i ++ r

theorem encodedBy_code {pre bs : List Byte} {i : Instr} (hwf : i.wf = true) (he : pre = encode i) :
    EncodedBy pre bs (.code i) := by
  rintro _ ⟨⟩
  exact ⟨hwf, bs, by rw [he]⟩

section
variable {pre bs : List Byte} (off : Nat)

theorem encodedBy_field1 {k : Byte → List Byte → CodeResult} (h : ∀ v r, EncodedBy (pre ++ [v]) r (k v r)) :
    EncodedBy pre bs (field1 off bs k) := fun i hi => by
  obtain ⟨v, r, rfl, hk⟩ := field1_code hi
  simpa using h v r i hk

theorem encodedBy_field2 {k : BitVec 16 → List Byte → CodeResult}
    (h : ∀ v r, EncodedBy (pre ++ bytes2 v) r (k v r)) : EncodedBy pre bs (field2 off bs k) := fun i hi => by
  obtain ⟨v, r, rfl, hk⟩ := field2_code hi
  simpa using h v r i hk

theorem encodedBy_field3 {k : Pixel → List Byte → CodeResult} (h : ∀ v r, EncodedBy (pre ++ bytes3 v) r (k v r)) :
    EncodedBy pre bs (field3 off bs k) := fun i hi => by
  obtain ⟨v, r, rfl, hk⟩ := field3_code hi
  simpa using h v r i hk

theorem encodedBy_field4 {k : BitVec 32 → List Byte → CodeResult}
    (h : ∀ v r, EncodedBy (pre ++ bytes4 v) r (k v r)) : EncodedBy pre bs (field4 off bs k) := fun i hi => by
  obtain ⟨v, r, rfl, hk⟩ := field4_code hi
  simpa using h v r i hk

end

theorem encodedBy_decode24 (pending : Bool) (bs : List Byte) : EncodedBy [] bs (decode24 pending bs) := by
  cases pending with
  | true =>
    rw [decode24, if_pos rfl]
    exact encodedBy_field3 _ fun pix r => encodedBy_code rfl rfl
  | false =>
    rw [decode24, if_neg Bool.false_ne_true]
    refine encodedBy_field1 _ fun ctl r => ?_
    dsimp only
    split
    · rename_i h7
      obtain ⟨hdrefs, hdrefl⟩ := byte_of_dref ctl h7
      split
      · rename_i hc
        exact encodedBy_code (wf_drefs_iff.2 hc) (by rw [encode, hdrefs]; rfl)
      · rename_i hc
        have hctl := hdrefl (by simpa using hc)
        refine encodedBy_field1 _ fun ext r => ?_
        have hext := byte_of_ext ext
        split
        · rename_i hfx
          obtain ⟨hf, hx⟩ := hfx
          rw [hf] at hctl
          rw [hx] at hext
          refine encodedBy_field4 _ fun k r => encodedBy_code rfl ?_
          rw [← hctl, encode, hext]
          rfl
        · rename_i hfx
          exact encodedBy_code (wf_drefl_iff.2 hfx) (by rw [encode, hctl, hext]; rfl)
    · rename_i h7
      split
      · rename_i h1
        rw [h1]
        exact encodedBy_field1 _ fun m r => encodedBy_field3 _ fun pix r => encodedBy_code rfl rfl
      · rename_i h1
        split
        · rename_i h0
          rw [h0]
          exact encodedBy_field4 _ fun k r => encodedBy_field3 _ fun pix r => encodedBy_code rfl rfl
        · rename_i h0
          obtain ⟨hctl, hn⟩ := byte_of_litr ctl (by simpa using h7)
          exact encodedBy_field3 _ fun pix r =>
            encodedBy_code (wf_litr_iff.2 (hn h1 h0)) (by rw [encode, hctl]; rfl)

/-- A byte is its two nibbles, once they are known. -/
theorem eq_append_of_nibbles {b : Byte} {hi lo : BitVec 4} (hhi : b.extractLsb' 4 4 = hi)
    (hlo : b.extractLsb' 0 4 = lo) : b = hi ++ lo := by
  rw [← hhi, ← hlo, byte_of_nibbles]

theorem nibble_eq_15 {lo : BitVec 4} (h9 : ¬ lo.toNat ≤ 9) (h10 : lo ≠ 10) (h11 : lo ≠ 11) (h12 : lo ≠ 12)
    (h13 : lo ≠ 13) (h14 : lo ≠ 14) : lo = 15 := by
  bv_omega

theorem encodedBy_decode8 (bs : List Byte) : EncodedBy [] bs (decode8 bs) := by
  refine encodedBy_field1 _ fun ctl r => ?_
  dsimp only
  split
  · rename_i hhi
    exact encodedBy_code (wf_bref_iff.2 hhi) (by rw [encode, byte_of_nibbles]; rfl)
  rename_i hhi
  have hhi : ctl.extractLsb' 4 4 = 0 := by simpa using hhi
  split
  · rename_i hle
    refine encodedBy_field1 _ fun b r => encodedBy_code (wf_blit_iff.2 hle) ?_
    rw [encode, ← eq_append_of_nibbles hhi rfl]
    rfl
  rename_i hle
  split
  · rename_i hlo
    rw [eq_append_of_nibbles hhi hlo]
    exact encodedBy_field1 _ fun k r => encodedBy_field1 _ fun b r => encodedBy_code rfl rfl
  rename_i h10
  split
  · rename_i hlo
    rw [eq_append_of_nibbles hhi hlo]
    exact encodedBy_field2 _ fun k r => encodedBy_field1 _ fun b r => encodedBy_code rfl rfl
  rename_i h11
  split
  · rename_i hlo
    rw [eq_append_of_nibbles hhi hlo]
    exact encodedBy_field4 _ fun k r => encodedBy_field1 _ fun b r => encodedBy_code rfl rfl
  rename_i h12
  split
  · rename_i hlo
    rw [eq_append_of_nibbles hhi hlo]
    exact encodedBy_field1 _ fun k r => encodedBy_field1 _ fun b r =>
      encodedBy_code rfl (by rw [encode, byte_of_nibbles]; rfl)
  rename_i h13
  split
  · rename_i hlo
    rw [eq_append_of_nibbles hhi hlo]
    exact encodedBy_field2 _ fun k r => encodedBy_field1 _ fun b r =>
      encodedBy_code rfl (by rw [encode, byte_of_nibbles]; rfl)
  · rename_i h14
    rw [eq_append_of_nibbles hhi (nibble_eq_15 hle h10 h11 h12 h13 h14)]
    exact encodedBy_field4 _ fun k r => encodedBy_field1 _ fun b r =>
      encodedBy_code rfl (by rw [encode, byte_of_nibbles]; rfl)

theorem length_encode (i : Instr) : (encode i).length = i.length := by
  cases i <;> rfl

theorem EncodedBy.take_length {bs : List Byte} {res : CodeResult} {i : Instr} (h : EncodedBy [] bs res)
    (hi : res = .code i) : i.wf = true ∧ bs.take i.length = encode i := by
  obtain ⟨hwf, r, hbs⟩ := h i hi
  rw [List.nil_append] at hbs
  exact ⟨hwf, by rw [hbs, ← length_encode, List.take_left]⟩

/-- Settles O8: every reader adds its field's bytes to those read so far, and each code ends with its encoding read. -/
theorem codesHaveOneEncoding : Obligations.CodesHaveOneEncoding := by
  intro p pending bs i h
  cases p with
  | d24 =>
    obtain ⟨hwf, htake⟩ := (encodedBy_decode24 pending bs).take_length h
    exact ⟨hwf, htake, codesIn_decode24 pending bs i h⟩
  | d8 =>
    obtain ⟨hwf, htake⟩ := (encodedBy_decode8 bs).take_length h
    exact ⟨hwf, htake, codesIn_decode8 bs i h⟩

end Sys2Proof

/-! ## The opcode maps -/

namespace Sys2Proof

theorem ctl_of_litr_range : ∀ ctl : Byte, 0x02 ≤ ctl.toNat → ctl.toNat ≤ 0x7F →
    ctl.getLsbD 7 = false ∧ ctl ≠ 0x01 ∧ ctl ≠ 0x00 ∧ (ctl.extractLsb' 0 7).toNat = ctl.toNat := by decide

theorem ctl_of_drefl_range : ∀ ctl : Byte, 0x81 ≤ ctl.toNat → ctl.toNat ≤ 0x9F →
    ctl.getLsbD 7 = true ∧ ctl.extractLsb' 5 2 = 0 ∧ ctl.extractLsb' 0 5 ≠ 0 := by decide

theorem ctl_of_drefs_range : ∀ ctl : Byte, 0xA0 ≤ ctl.toNat →
    ctl.getLsbD 7 = true ∧ ctl.extractLsb' 5 2 ≠ 0 ∧
      (ctl.extractLsb' 5 2).toNat = if ctl.toNat ≤ 0xBF then 1 else if ctl.toNat ≤ 0xDF then 2 else 3 := by decide

theorem ext_top_clear : ∀ ext : Byte, ext.toNat < 0x80 → ext.extractLsb' 7 1 = 0 := by decide

theorem ext_top_set : ∀ ext : Byte, 0x80 ≤ ext.toNat → ext.extractLsb' 7 1 = 1 := by decide

/-- Settles O9: each range of the control byte is one branch of the D24 selection, and the bytes that follow suffice
for its fields. -/
theorem d24OpcodeMap : Obligations.D24OpcodeMap := by
  intro ctl ext bs hlen
  obtain ⟨a, b, c, d, e, f, r, rfl⟩ : ∃ a b c d e f r, bs = a :: b :: c :: d :: e :: f :: r :=
    match bs, hlen with
    | a :: b :: c :: d :: e :: f :: r, _ => ⟨a, b, c, d, e, f, r, rfl⟩
  refine ⟨⟨_, rfl⟩, ?litx, ?litc, ?litr, ?drefx, ?dreflOfX, ?drefl, ?drefs⟩
  case litx =>
    rintro rfl
    exact ⟨_, _, decode24_litx _⟩
  case litc =>
    rintro rfl
    exact ⟨_, _, decode24_litc _⟩
  case litr =>
    intro hlo hhi
    obtain ⟨h7, h1, h0, hn⟩ := ctl_of_litr_range ctl hlo hhi
    exact ⟨_, _, decode24_litr _ h7 h1 h0, hn⟩
  case drefx =>
    rintro rfl hext
    exact ⟨_, _, decode24_drefx _ (ext_top_clear ext hext)⟩
  case dreflOfX =>
    rintro rfl hext
    have hx := ext_top_set ext hext
    refine ⟨ext.extractLsb' 0 7, ?_⟩
    rw [decode24_drefl _ rfl rfl (by simp [hx]), hx]
    rfl
  case drefl =>
    intro hlo hhi
    obtain ⟨h7, hc, hf⟩ := ctl_of_drefl_range ctl hlo hhi
    exact ⟨_, _, _, decode24_drefl _ h7 hc fun hfx => hf hfx.1⟩
  case drefs =>
    intro hlo
    obtain ⟨h7, hc, hcount⟩ := ctl_of_drefs_range ctl hlo
    exact ⟨_, _, decode24_drefs _ h7 hc, hcount⟩

theorem ctl_of_blit_range : ∀ ctl : Byte, ctl.toNat ≤ 0x09 →
    ctl.extractLsb' 4 4 = 0 ∧ (ctl.extractLsb' 0 4).toNat ≤ 9 := by decide

theorem ctl_of_bref_range : ∀ ctl : Byte, 0x10 ≤ ctl.toNat →
    ctl.extractLsb' 4 4 ≠ 0 ∧ (ctl.extractLsb' 4 4).toNat = ctl.toNat / 16 ∧
      (ctl.extractLsb' 0 4).toNat = ctl.toNat % 16 := by decide

/-- Settles O10: each control byte of the escapes and each of the two ranges is one branch of the D8 selection. -/
theorem d8OpcodeMap : Obligations.D8OpcodeMap := by
  intro ctl bs hlen
  obtain ⟨a, b, c, d, e, r, rfl⟩ : ∃ a b c d e r, bs = a :: b :: c :: d :: e :: r :=
    match bs, hlen with
    | a :: b :: c :: d :: e :: r, _ => ⟨a, b, c, d, e, r, rfl⟩
  refine ⟨?blit, ?blit8, ?blit16, ?blit32, ?bref8, ?bref16, ?bref32, ?bref⟩
  case blit =>
    intro hle
    obtain ⟨hhi, hlo⟩ := ctl_of_blit_range ctl hle
    rw [BitVec.setWidth_eq_extractLsb' (by decide)]
    exact ⟨_, decode8_blit _ hhi hlo⟩
  case bref =>
    intro hle
    obtain ⟨hne, hhi, hlo⟩ := ctl_of_bref_range ctl hle
    exact ⟨_, _, decode8_bref _ hne, hhi, hlo⟩
  case blit8 | blit16 | blit32 =>
    rintro rfl
    exact ⟨_, _, rfl⟩
  case bref8 | bref16 | bref32 =>
    rintro rfl
    exact ⟨_, _, _, rfl⟩

/-- Settles O11: the eight words are fixed, and the decoder computes. -/
theorem sampleWordsDecode : Obligations.SampleWordsDecode := by
  unfold Obligations.SampleWordsDecode
  decide

end Sys2Proof

/-! ## The redundant D24 encodings -/

namespace Sys2Proof.Machine

/-- The end of a D24 iteration takes CURSOR through as it is. -/
theorem finish24_cursor {pix : Pixel} {cnt : Int} {pos : Fin Config.k24} {v t : State} (c : BitVec 32)
    (h : finish24 pix cnt pos v = .next t) :
    finish24 pix cnt pos { v with cursor := c } = .next { t with cursor := c } := by
  obtain ⟨hfit, he⟩ | ⟨-, he⟩ := finish24_cases pix cnt pos v <;> rw [he] at h
  · cases h
    refine (if_pos hfit).trans (congrArg _ ?_)
    obtain ⟨h0, hc⟩ | ⟨h0, hc⟩ := complete_cases (mtf24 pos pix (emit cnt (bytes3 pix) v)) <;> rw [hc]
    · exact if_pos h0
    · exact if_neg h0
  · cases h

/-- One run, of codes of different lengths, ends the same but for CURSOR. -/
theorem finish24_agree {pix : Pixel} {cnt : Int} {pos : Fin Config.k24} {v t u : State} (c : BitVec 32)
    (ht : finish24 pix cnt pos v = .next t) (hu : finish24 pix cnt pos { v with cursor := c } = .next u) :
    u = { t with cursor := u.cursor } := by
  rw [finish24_cursor c ht] at hu
  cases hu
  rfl

/-- A D24 code that has a next state was presented, and with its bytes below IN_LEN it went on past its fields. -/
theorem code24_next {pending : Bool} {ns : List Nat} {s t : State} {k : State → Out}
    (h : code24 pending ns s k = .next t) (hfit : s.cursor.toNat + ns.sum ≤ s.inLen.toNat) :
    enabled24 pending s = true ∧ k (advance ns.sum s) = .next t := by
  by_cases hen : enabled24 pending s = true
  · rw [code24_enabled k hen, withFields_fit k hfit] at h
    exact ⟨hen, h⟩
  · rw [code24, if_neg hen] at h
    cases h

section
variable {s t u : State}

/-- DREFX with a count that DREFL can hold is that DREFL. -/
theorem drefx_agrees_drefl {f : BitVec 5} {x : BitVec 1} {p : BitVec 7} {k : BitVec 32}
    (hk : k.toNat = 2 * f.toNat + x.toNat) (hi : exec (.drefx p k) s = .next t)
    (hj : exec (.drefl f x p) s = .next u) (hfit : s.cursor.toNat + 6 ≤ s.inLen.toNat) :
    u = { t with cursor := u.cursor } := by
  obtain ⟨-, hi⟩ := code24_next (ns := [1, 1, 4]) hi hfit
  obtain ⟨-, hj⟩ := code24_next (ns := [1, 1]) hj (by simp; omega)
  have hcnt : dreflCount f x = uint k := by
    simp only [dreflCount, uint, hk]
    push_cast
    rfl
  rw [hcnt] at hj
  exact finish24_agree _ hi hj

/-- DREFL with a count and a slot that DREFS can hold is that DREFS. -/
theorem drefl_agrees_drefs {c : BitVec 2} {f f' : BitVec 5} {x : BitVec 1} {p : BitVec 7}
    (hc : c.toNat = 2 * f'.toNat + x.toNat) (hp : p.toNat = f.toNat) (hi : exec (.drefl f' x p) s = .next t)
    (hj : exec (.drefs c f) s = .next u) (hfit : s.cursor.toNat + 2 ≤ s.inLen.toNat) :
    u = { t with cursor := u.cursor } := by
  obtain ⟨-, hi⟩ := code24_next (ns := [1, 1]) hi hfit
  obtain ⟨-, hj⟩ := code24_next (ns := [1]) hj (by simp; omega)
  have hcnt : uint c = dreflCount f' x := by
    simp only [dreflCount, uint, hc]
    push_cast
    rfl
  have hpos : drefsSlot f = extSlot p := Fin.ext hp.symm
  simp only [hcnt, hpos] at hj
  exact finish24_agree _ hi hj

/-- LITX with a count that LITR can hold is that LITR. -/
theorem litx_agrees_litr {n : BitVec 7} {k : BitVec 32} {pix : Pixel} (hk : k.toNat = n.toNat)
    (hi : exec (.litx k pix) s = .next t) (hj : exec (.litr n pix) s = .next u)
    (hfit : s.cursor.toNat + 8 ≤ s.inLen.toNat) : u = { t with cursor := u.cursor } := by
  obtain ⟨-, hi⟩ := code24_next (ns := [1, 4, 3]) hi hfit
  obtain ⟨-, hj⟩ := code24_next (ns := [1, 3]) hj (by simp; omega)
  have hcnt : uint n = uint k := by rw [uint, uint, hk]
  rw [hcnt] at hj
  exact finish24_agree _ hi hj

/-- LITX with count 1 is a LITC that leaves no literal pending: PEND was 0 and stays so. -/
theorem litx_agrees_litc {m : Byte} {pix : Pixel} (hm : m.toNat ≤ 1) (hi : exec (.litx 1 pix) s = .next t)
    (hj : exec (.litc m pix) s = .next u) (hfit : s.cursor.toNat + 8 ≤ s.inLen.toNat) :
    u = { t with cursor := u.cursor } := by
  obtain ⟨hen, hi⟩ := code24_next (ns := [1, 4, 3]) hi hfit
  obtain ⟨-, hj⟩ := code24_next (ns := [1, 1, 3]) hj (by simp; omega)
  obtain ⟨-, -, hpend⟩ := (enabled24_iff false s).1 hen
  have hpend : s.pend = 0 := BitVec.eq_of_toNat_eq (by simpa using hpend)
  have hkept : chainPend m = s.pend := by
    rw [hpend, chainPend, show m.toNat - 1 = 0 by omega]
    rfl
  rw [hkept] at hj
  exact finish24_agree _ hi hj

end

/-- Settles O56: past their fields, the two codes of each pair are the same run, from states that differ in CURSOR. -/
theorem redundantEncodingsAgree : Obligations.RedundantEncodingsAgree := by
  rintro s t u i j (⟨f, x, p, k, rfl, rfl, hk, -⟩ | ⟨c, f, f', x, p, rfl, rfl, hc, -, hp⟩ |
    ⟨n, k, pix, rfl, rfl, hk, -⟩ | ⟨m, pix, rfl, rfl, hm⟩) hi hj hfit
  · exact drefx_agrees_drefl hk hi hj hfit
  · exact drefl_agrees_drefs hc hp hi hj hfit
  · exact litx_agrees_litr hk hi hj hfit
  · exact litx_agrees_litc hm hi hj hfit

end Sys2Proof.Machine

/-! ## The host commands: a start, a start while BUSY, and abort -/

namespace Sys2Proof.Machine

/-! A CTRL write that is a command -/

/-- Settles O15: the write runs the instruction that `decodeCtrl` reads from its value. -/
theorem stepRunsTheHostCommand : Obligations.StepRunsTheHostCommand := by
  intro s rest v i hs hi
  have hi : decodeCtrl ({ s with schedule := rest } : State).busy v = some i := hi
  rw [step_of_host hs, hostMove_writeCtrl, writeCtrl, hi]

/-- Settles O32: both start commands are CTRL writes, of which IE and ABORT act while BUSY. -/
theorem startWhileBusyIsIgnored : Obligations.StartWhileBusyIsIgnored := fun _ abort op hdr ie hb =>
  ⟨congrArg _ (ctrlWrite_busy true abort 0 hdr ie hb), congrArg _ (ctrlWrite_busy true abort op hdr ie hb)⟩

/-- The state with OP, HDR and IE of CTRL as just written (10_state R24). -/
def withCtrl (op : BitVec 2) (hdr ie : Bool) (s : State) : State :=
  { s with ctrlOp := op, ctrlHdr := hdr, ctrlIe := ie }

theorem ctrlWrite_plain (abort : Bool) (op : BitVec 2) (hdr ie : Bool) {s : State} (hn : s.engine ≠ .busy) :
    ctrlWrite false abort op hdr ie s = withCtrl op hdr ie s :=
  if_neg ((not_busy_iff s).2 hn)

/-- When not BUSY a write with START = 1 is a start, whatever its ABORT bit (log 11). -/
theorem ctrlWrite_start (abort : Bool) (op : BitVec 2) (hdr ie : Bool) {s : State} (hn : s.engine ≠ .busy) :
    ctrlWrite true abort op hdr ie s = startSequence (withCtrl op hdr ie s) :=
  if_neg ((not_busy_iff s).2 hn)

/-- Settles O33: the abort command is a CTRL write with ABORT set. -/
theorem abortRequestsTheAbortStep : Obligations.AbortRequestsTheAbortStep := by
  intro s op hdr ie
  refine ⟨fun hb start => ?_, fun hn => congrArg _ (ctrlWrite_plain true op hdr ie hn)⟩
  calc exec (.abort start op hdr ie) s
    _ = .next { s with ctrlIe := ie, abortReq := s.abortReq || true } :=
      congrArg _ (ctrlWrite_busy start true op hdr ie hb)
    _ = .next { s with ctrlIe := ie, abortReq := true } := by rw [Bool.or_true]

/-! What every start clears -/

/-- From the bit-depth check on, a start touches nothing of what it cleared. -/
theorem StartCleared.startImage {s u : State} {op : BitVec 2} {hdr ie : Bool} (h : StartCleared s u op hdr ie) :
    StartCleared s (startImage u) op hdr ie := by
  obtain ⟨-, he⟩ | ⟨-, -, he⟩ | ⟨-, -, he⟩ := startImage_cases u <;> rw [he]
  · exact { h with }
  · exact { h with }
  · obtain ⟨-, hc⟩ | ⟨-, hc⟩ := complete_cases (dispatched (sized u)) <;> rw [hc] <;> exact { h with }

theorem clearForStart_cleared (s : State) : StartCleared s (clearForStart s) s.ctrlOp s.ctrlHdr s.ctrlIe :=
  ⟨rfl, rfl, rfl, ⟨rfl, rfl, rfl⟩, ⟨rfl, rfl, rfl⟩, ⟨rfl, rfl⟩, ⟨rfl, rfl⟩, ⟨rfl, rfl, rfl⟩⟩

/-- However a start ends, it leaves cleared what 40_dispatch R131 a clears. -/
theorem startSequence_cleared (s : State) : StartCleared s (startSequence s) s.ctrlOp s.ctrlHdr s.ctrlIe := by
  have hc := clearForStart_cleared s
  obtain ⟨-, he⟩ | ⟨-, -, -, he⟩ | ⟨-, -, -, he⟩ | ⟨-, -, he⟩ := startSequence_cases s <;> rw [he]
  · exact { hc with }
  · exact { hc with }
  · exact StartCleared.startImage { hc with }
  · exact hc.startImage

/-! The image that a start finds -/

/-- `Stride` for a legal depth is the STRIDE of the image (40_dispatch R127). -/
theorem strideOf_eq_imageStride (w : BitVec 16) {d : BitVec 8} (hd : legalDepth d = true) :
    strideOf w.toNat d.toNat = imageStride w d := by
  obtain rfl | rfl | rfl := (legalDepth_iff d).1 hd
  · simp [strideOf, imageStride]
  · simp [strideOf, imageStride]
  · simp [strideOf, imageStride]
    omega

/-- `Units` for a legal depth is the NPIX of the image (40_dispatch R128). -/
theorem unitsOf_eq_imageUnits (w h : BitVec 16) {d : BitVec 8} (hd : legalDepth d = true) :
    unitsOf w.toNat h.toNat d.toNat = imageUnits w h d := by
  rw [unitsOf, imageUnits, strideOf_eq_imageStride w hd]
  exact if_congr (by bv_omega) rfl rfl

/-- A start before it looks at the image (40_dispatch R122 steps 0 to 2): under way, with nothing sized. -/
structure Unsized (u : State) : Prop where
  underWay : u.engine = .busy ∧ u.result = .ok ∧ u.irqPend = false ∧ u.abortReq = false
  nothing : u.fmt = .noFmt ∧ u.stride = 0 ∧ u.npix = 0 ∧ u.remain = 0

theorem unsized_clearForStart (s : State) : Unsized (clearForStart s) :=
  ⟨⟨rfl, rfl, rfl, rfl⟩, ⟨rfl, rfl, rfl, rfl⟩⟩

section
variable {u : State}

theorem Unsized.nothingSized (h : Unsized u) : NothingSized u u :=
  let ⟨hfmt, hstride, hnpix, hremain⟩ := h.nothing
  ⟨hfmt, hstride, hnpix, hremain, rfl, rfl, rfl⟩

theorem sized_stride_toNat (hd : legalDepth u.depth = true) :
    (sized u).stride.toNat = imageStride u.width u.depth :=
  (strideOf_toNat hd).trans (strideOf_eq_imageStride u.width hd)

theorem sized_npix_toNat (hd : legalDepth u.depth = true) :
    (sized u).npix.toNat = imageUnits u.width u.height u.depth :=
  (unitsOf_toNat hd).trans (unitsOf_eq_imageUnits u.width u.height hd)

theorem startImage_declined (hd : ¬ legalDepth u.depth = true) : startImage u = endDecode .fail .declined u :=
  if_neg hd

theorem startImage_tooBig (hd : legalDepth u.depth = true)
    (hbig : u.outCap.toNat < imageStride u.width u.depth * u.height.toNat) :
    startImage u = endDecode .fail .size (sized u) := by
  rw [startImage, if_pos hd, sized_stride_toNat hd, if_pos hbig]

theorem startImage_fits (hd : legalDepth u.depth = true)
    (hfits : imageStride u.width u.depth * u.height.toNat ≤ u.outCap.toNat) :
    startImage u = complete (dispatched (sized u)) := by
  rw [startImage, if_pos hd, sized_stride_toNat hd, if_neg (Nat.not_lt.2 hfits)]

theorem startImage_cursor (u : State) : (startImage u).cursor = u.cursor := by
  obtain ⟨-, h⟩ | ⟨-, -, h⟩ | ⟨-, -, h⟩ := startImage_cases u <;> simp [h]

/-- For a legal depth the size is computed, whether it fits or not. -/
theorem startImage_sized (hd : legalDepth u.depth = true) :
    (startImage u).stride = (sized u).stride ∧ (startImage u).npix = (sized u).npix := by
  obtain ⟨h, -⟩ | ⟨-, -, h⟩ | ⟨-, -, h⟩ := startImage_cases u
  · simp [hd] at h
  · simp [h]
  · simp [h]

/-- A decode that passed every check has REMAIN = 0 exactly when the image is empty. -/
theorem dispatched_remain_eq_zero_iff (hd : legalDepth u.depth = true) :
    (dispatched (sized u)).remain = 0 ↔ imageUnits u.width u.height u.depth = 0 := by
  rw [← sized_npix_toNat hd]
  exact BitVec.toNat_eq

/-- What the start sequence makes of the image registers (40_dispatch R122 steps 3 to 8). -/
theorem Unsized.startedImage (h : Unsized u) :
    StartedImage u (startImage u) u.width u.height u.depth u.cursor.toNat where
  image := startImage_sameImage u
  cursor := congrArg _ (startImage_cursor u)
  declined h1 h8 h24 := by
    have hd : ¬ legalDepth u.depth = true := mt (legalDepth_iff _).1 (not_or.2 ⟨h1, not_or.2 ⟨h8, h24⟩⟩)
    rw [startImage_declined hd]
    exact ⟨⟨rfl, rfl, rfl, rfl⟩, h.nothingSized⟩
  sized hd := by
    have hd := (legalDepth_iff _).2 hd
    obtain ⟨hstride, hnpix⟩ := startImage_sized hd
    rw [hstride, hnpix]
    exact ⟨sized_stride_toNat hd, sized_npix_toNat hd⟩
  tooBig hd hbig := by
    obtain ⟨hfmt, -, -, hremain⟩ := h.nothing
    rw [startImage_tooBig ((legalDepth_iff _).2 hd) hbig]
    exact ⟨⟨rfl, rfl, rfl, rfl⟩, hfmt, hremain, rfl, rfl, rfl⟩
  dispatched hd hfits := by
    rw [startImage_fits ((legalDepth_iff _).2 hd) hfits]
    simp +contextual [pathOf, fmtOf]
  empty hd hfits h0 := by
    have hd := (legalDepth_iff _).2 hd
    rw [startImage_fits hd hfits, complete, if_pos ((dispatched_remain_eq_zero_iff hd).2 h0)]
    exact ⟨rfl, rfl, rfl, rfl⟩
  underWay hd hfits h0 := by
    have hd := (legalDepth_iff _).2 hd
    rw [startImage_fits hd hfits, complete, if_neg (mt (dispatched_remain_eq_zero_iff hd).1 h0)]
    exact h.underWay

end

/-! The start commands -/

section
variable {s : State}

/-- A start with OP ≠ 0 ends before it looks at anything (40_dispatch R123). -/
theorem startSequence_unsupported (hop : s.ctrlOp ≠ 0) :
    startSequence s = endDecode .fail .unsupported (clearForStart s) := if_pos hop

theorem startSequence_direct (hop : s.ctrlOp = 0) (hh : s.ctrlHdr = false) :
    startSequence s = startImage (clearForStart s) := by
  simp [startSequence, hop, hh]

theorem startSequence_shortHeader (hop : s.ctrlOp = 0) (hh : s.ctrlHdr = true) (hl : s.inLen.toNat < 16) :
    startSequence s = endDecode .fail .truncated (clearForStart s) := by
  simp [startSequence, hop, hh, hl]

theorem startSequence_header (hop : s.ctrlOp = 0) (hh : s.ctrlHdr = true) (hl : 16 ≤ s.inLen.toNat) :
    startSequence s = startImage (readHeader (clearForStart s)) := by
  simp [startSequence, hop, hh, Nat.not_lt.2 hl]

/-- A start that fails before the depth check sizes nothing and leaves the image registers (60_exceptions R208). -/
theorem endDecode_clearForStart (r : ResultCode) (s : State) :
    EndedAs (endDecode .fail r (clearForStart s)) .fail r ∧ NothingSized s (endDecode .fail r (clearForStart s)) ∧
      (endDecode .fail r (clearForStart s)).cursor = 0 ∧ SameImage s (endDecode .fail r (clearForStart s)) :=
  ⟨⟨rfl, rfl, rfl, rfl⟩, ⟨rfl, rfl, rfl, rfl, rfl, rfl, rfl⟩, rfl, rfl, rfl, rfl⟩

theorem startSequence_startedImage_direct (hop : s.ctrlOp = 0) (hh : s.ctrlHdr = false) :
    StartedImage s (startSequence s) s.width s.height s.depth 0 := by
  rw [startSequence_direct hop hh]
  exact { (unsized_clearForStart s).startedImage with }

theorem startSequence_startedImage_header (hop : s.ctrlOp = 0) (hh : s.ctrlHdr = true) (hl : 16 ≤ s.inLen.toNat) :
    StartedImage s (startSequence s) (le2 (s.inMem.read 8) (s.inMem.read 9)) (le2 (s.inMem.read 10) (s.inMem.read 11))
      (s.inMem.read 12) 16 := by
  have hu : Unsized (readHeader (clearForStart s)) := { unsized_clearForStart s with }
  rw [startSequence_header hop hh hl]
  exact { hu.startedImage with }

theorem exec_startDecode (abort hdr ie : Bool) (hn : s.engine ≠ .busy) :
    exec (.startDecode abort hdr ie) s = .next (startSequence (withCtrl 0 hdr ie s)) :=
  congrArg Host.Outcome.next (ctrlWrite_start abort 0 hdr ie hn)

theorem exec_startEncode (abort : Bool) (op : BitVec 2) (hdr ie : Bool) (hn : s.engine ≠ .busy) :
    exec (.startEncode abort op hdr ie) s = .next (startSequence (withCtrl op hdr ie s)) :=
  congrArg Host.Outcome.next (ctrlWrite_start abort op hdr ie hn)

end

/-- Settles O29: in direct mode the start goes on with the image registers as they are. -/
theorem startDecodeDirectMode : Obligations.StartDecodeDirectMode := fun s abort ie hn =>
  ⟨_, exec_startDecode abort false ie hn, { startSequence_cleared (withCtrl 0 false ie s) with },
    { startSequence_startedImage_direct (s := withCtrl 0 false ie s) rfl rfl with }⟩

/-- Settles O30: in header mode the start goes on with the header's image, or ends for want of one. -/
theorem startDecodeHeaderMode : Obligations.StartDecodeHeaderMode := by
  intro s abort ie hn
  refine ⟨_, exec_startDecode abort true ie hn, { startSequence_cleared (withCtrl 0 true ie s) with },
    fun hshort => ?_, fun hwhole => ?_⟩
  · rw [startSequence_shortHeader (s := withCtrl 0 true ie s) rfl rfl hshort]
    exact endDecode_clearForStart .truncated (withCtrl 0 true ie s)
  · exact { startSequence_startedImage_header (s := withCtrl 0 true ie s) rfl rfl hwhole with }

/-- Settles O31: with OP ≠ 0 the start ends UNSUPPORTED with nothing but the cleared registers changed. -/
theorem startEncodeEndsUnsupported : Obligations.StartEncodeEndsUnsupported := by
  intro s abort op hdr ie hn hop
  refine ⟨_, exec_startEncode abort op hdr ie hn, { startSequence_cleared (withCtrl op hdr ie s) with }, ?_⟩
  rw [startSequence_unsupported (s := withCtrl op hdr ie s) hop]
  exact endDecode_clearForStart .unsupported (withCtrl op hdr ie s)

end Sys2Proof.Machine

/-! ## An engine turn is the code at CURSOR, whole or cut off -/

namespace Sys2Proof.Machine

theorem engineStep_of_code {s : State} {i : Instr} (h : fetchCode s = .code i) : engineStep s = exec i s := by
  rw [engineStep, h]

theorem engineStep_of_short {s : State} {off : Nat} (h : fetchCode s = .short off) :
    engineStep s = .next (truncated (s.cursor.toNat + off) s) := by
  rw [engineStep, h]

/-- Settles O12: the turn is the iteration, whose fetch does not look at the schedule. -/
theorem stepRunsTheDecodedCode : Obligations.StepRunsTheDecodedCode := by
  intro s rest i hnext h
  rw [step_of_engineNext hnext]
  exact engineStep_of_code h

/-- Settles O13: the bytes fetched begin with the encoding, and decoding undoes encoding whatever follows. -/
theorem stepRunsTheCodeAtCursor : Obligations.StepRunsTheCodeAtCursor := by
  intro s rest i hnext hwf hctx hbytes
  obtain ⟨after, hfetch⟩ := fetchBytes_of_streamHas hbytes (length_encode i ▸ length_le_maxLength i)
  have hdecode : decode s.codeCtx (fetchBytes s) = .ok i := by
    rw [hfetch, ← hctx]
    exact decodeOfEncodeIsTheInstruction i after hwf
  exact stepRunsTheDecodedCode s rest i hnext (decodeCode_of_decode hdecode)

end Sys2Proof.Machine

/-! ## A code that is cut off -/

namespace Sys2Proof

/-! A reader on its field's bytes and what follows, of which only the first `m` are given. -/

section
variable (off m : Nat) (r : List Byte)

theorem field1_take (a : Byte) (k : Byte → List Byte → CodeResult) :
    field1 off ((a :: r).take m) k = if m < 1 then .short off else k a (r.take (m - 1)) :=
  match m with
  | 0 => rfl
  | _ + 1 => rfl

theorem field2_take (v : BitVec 16) (k : BitVec 16 → List Byte → CodeResult) :
    field2 off ((bytes2 v ++ r).take m) k = if m < 2 then .short off else k v (r.take (m - 2)) :=
  match m with
  | 0 | 1 => rfl
  | m + 2 => field2_bytes2 off v (r.take m) k

theorem field3_take (v : Pixel) (k : Pixel → List Byte → CodeResult) :
    field3 off ((bytes3 v ++ r).take m) k = if m < 3 then .short off else k v (r.take (m - 3)) :=
  match m with
  | 0 | 1 | 2 => rfl
  | m + 3 => field3_bytes3 off v (r.take m) k

theorem field4_take (v : BitVec 32) (k : BitVec 32 → List Byte → CodeResult) :
    field4 off ((bytes4 v ++ r).take m) k = if m < 4 then .short off else k v (r.take (m - 4)) :=
  match m with
  | 0 | 1 | 2 | 3 => rfl
  | m + 4 => field4_bytes4 off v (r.take m) k

end

end Sys2Proof

namespace Sys2Proof.Machine

/-- Past the fields `pre`, reading on gives `whole` from all the bytes and `cut` from the first `m` of them: if `whole`
is a code, `cut` is short at the first of its further fields that the `m` bytes do not hold. -/
def CutShort (pre : List Nat) (m : Nat) (whole cut : CodeResult) : Prop :=
  ∀ i, whole = .code i →
    ∃ ns, i.fields = pre ++ ns ∧ ∀ off, firstShort (pre.sum + m) pre.sum ns = some off → cut = .short off

theorem cutShort_code {pre : List Nat} {m : Nat} {i : Instr} {cut : CodeResult} (h : i.fields = pre) :
    CutShort pre m (.code i) cut := by
  rintro _ ⟨⟩
  exact ⟨[], by simpa using h, nofun⟩

/-- One more field of `w` bytes: the reading ends there, or goes on with what the field leaves of the `m` bytes. -/
theorem cutShort_read {pre : List Nat} {w m : Nat} {whole : CodeResult} {cut : Nat → CodeResult}
    (h : ∀ m, CutShort (pre ++ [w]) m whole (cut m)) :
    CutShort pre m whole (if m < w then .short pre.sum else cut (m - w)) := by
  intro i hi
  obtain ⟨ns, hns, hcut⟩ := h (m - w) i hi
  refine ⟨w :: ns, by simpa using hns, fun off hoff => ?_⟩
  rw [firstShort] at hoff
  split at hoff
  · cases hoff
    rw [if_pos (by omega)]
  · rw [if_neg (by omega)]
    apply hcut
    rwa [List.sum_append, List.sum_singleton, Nat.add_assoc, Nat.add_sub_cancel' (by omega)]

section
variable {pre : List Nat} {m : Nat} {bs : List Byte}

theorem cutShort_field1 {k : Byte → List Byte → CodeResult}
    (h : ∀ v r m, CutShort (pre ++ [1]) m (k v r) (k v (r.take m))) :
    CutShort pre m (field1 pre.sum bs k) (field1 pre.sum (bs.take m) k) := fun i hi => by
  obtain ⟨v, r, rfl, hk⟩ := field1_code hi
  rw [field1_take]
  exact cutShort_read (h v r) i hk

theorem cutShort_field2 {k : BitVec 16 → List Byte → CodeResult}
    (h : ∀ v r m, CutShort (pre ++ [2]) m (k v r) (k v (r.take m))) :
    CutShort pre m (field2 pre.sum bs k) (field2 pre.sum (bs.take m) k) := fun i hi => by
  obtain ⟨v, r, rfl, hk⟩ := field2_code hi
  rw [field2_take]
  exact cutShort_read (h v r) i hk

theorem cutShort_field3 {k : Pixel → List Byte → CodeResult}
    (h : ∀ v r m, CutShort (pre ++ [3]) m (k v r) (k v (r.take m))) :
    CutShort pre m (field3 pre.sum bs k) (field3 pre.sum (bs.take m) k) := fun i hi => by
  obtain ⟨v, r, rfl, hk⟩ := field3_code hi
  rw [field3_take]
  exact cutShort_read (h v r) i hk

theorem cutShort_field4 {k : BitVec 32 → List Byte → CodeResult}
    (h : ∀ v r m, CutShort (pre ++ [4]) m (k v r) (k v (r.take m))) :
    CutShort pre m (field4 pre.sum bs k) (field4 pre.sum (bs.take m) k) := fun i hi => by
  obtain ⟨v, r, rfl, hk⟩ := field4_code hi
  rw [field4_take]
  exact cutShort_read (h v r) i hk

end

theorem cutShort_decode24 (pending : Bool) (bs : List Byte) (m : Nat) :
    CutShort [] m (decode24 pending bs) (decode24 pending (bs.take m)) := by
  cases pending with
  | true =>
    simp only [decode24, if_pos]
    exact cutShort_field3 fun _ _ _ => cutShort_code rfl
  | false =>
    simp only [decode24, if_neg Bool.false_ne_true]
    refine cutShort_field1 fun ctl r m => ?_
    split
    · split
      · exact cutShort_code rfl
      · refine cutShort_field1 fun ext r m => ?_
        split
        · exact cutShort_field4 fun _ _ _ => cutShort_code rfl
        · exact cutShort_code rfl
    · split
      · exact cutShort_field1 fun _ _ _ => cutShort_field3 fun _ _ _ => cutShort_code rfl
      · split
        · exact cutShort_field4 fun _ _ _ => cutShort_field3 fun _ _ _ => cutShort_code rfl
        · exact cutShort_field3 fun _ _ _ => cutShort_code rfl

theorem cutShort_decode8 (bs : List Byte) (m : Nat) : CutShort [] m (decode8 bs) (decode8 (bs.take m)) := by
  refine cutShort_field1 fun ctl r m => ?_
  dsimp only
  split
  · exact cutShort_code rfl
  split
  · exact cutShort_field1 fun _ _ _ => cutShort_code rfl
  split
  · exact cutShort_field1 fun _ _ _ => cutShort_field1 fun _ _ _ => cutShort_code rfl
  split
  · exact cutShort_field2 fun _ _ _ => cutShort_field1 fun _ _ _ => cutShort_code rfl
  split
  · exact cutShort_field4 fun _ _ _ => cutShort_field1 fun _ _ _ => cutShort_code rfl
  split
  · exact cutShort_field1 fun _ _ _ => cutShort_field1 fun _ _ _ => cutShort_code rfl
  split
  · exact cutShort_field2 fun _ _ _ => cutShort_field1 fun _ _ _ => cutShort_code rfl
  · exact cutShort_field4 fun _ _ _ => cutShort_field1 fun _ _ _ => cutShort_code rfl

/-- Of a code whose encoding is cut off after `n` bytes, the reading is short at the field that the engine misses. -/
theorem decodeCode_cut {s : State} {i : Instr} {n off : Nat} (hwf : i.wf = true) (hctx : i.ctx = s.codeCtx)
    (hoff : firstShort n 0 i.fields = some off) :
    decodeCode s.path (decide (0 < s.pend.toNat)) ((encode i).take n) = .short off := by
  have hwhole : decode s.codeCtx (encode i) = .ok i := by
    have h := decodeOfEncodeIsTheInstruction i [] hwf
    rwa [List.append_nil, hctx] at h
  have hcut (path : Path) (pending : Bool) :
      CutShort [] n (decodeCode path pending (encode i)) (decodeCode path pending ((encode i).take n)) := by
    cases path with
    | d24 => exact cutShort_decode24 pending _ n
    | d8 => exact cutShort_decode8 _ n
  obtain ⟨ns, rfl, h⟩ := hcut _ _ i (decodeCode_of_decode hwhole)
  exact h off (by simpa using hoff)

/-- Offsets of fields count from where the first one begins. -/
theorem firstShort_add (c len cur : Nat) (ns : List Nat) :
    firstShort (c + len) (c + cur) ns = (firstShort len cur ns).map (c + ·) := by
  induction ns generalizing cur with
  | nil => rfl
  | cons n ns ih =>
    simp only [firstShort, Nat.add_assoc, ih, gt_iff_lt, Nat.add_lt_add_iff_left]
    split <;> rfl

/-- Fields that do not all fit have a first one that does not. -/
theorem firstShort_of_not_fit {len : Nat} {ns : List Nat} (h : len < ns.sum) :
    ∃ off, firstShort len 0 ns = some off := by
  cases hs : firstShort len 0 ns with
  | none =>
    have := fits_of_firstShort_none (Nat.zero_le len) hs
    omega
  | some off => exact ⟨off, rfl⟩

/-- A code of the context that a BUSY core selects reads its fields. -/
theorem exec_eq_withFields {s : State} {i : Instr} (hb : s.engine = .busy) (h : i.ctx = s.codeCtx) :
    ∃ k, exec i s = withFields i.fields s k := by
  cases hp : s.path with
  | d24 =>
    simp only [State.codeCtx, hp] at h
    obtain ⟨k, he, -⟩ := exec_eq_code24 h s
    exact ⟨k, he.trans (code24_enabled k ((enabled24_iff _ s).2 ⟨hb, hp, by simp⟩))⟩
  | d8 =>
    simp only [State.codeCtx, hp] at h
    obtain ⟨k, he, -⟩ := exec_eq_code8 h s
    exact ⟨k, he.trans (code8_enabled k ((enabled8_iff s).2 ⟨hb, hp⟩))⟩

/-- A code presented with a field that does not fit is the truncation at that field (41_run_engine R143). -/
theorem exec_of_firstShort {s : State} {i : Instr} {off : Nat} (hb : s.engine = .busy) (hctx : i.ctx = s.codeCtx)
    (hoff : firstShort s.inLen.toNat s.cursor.toNat i.fields = some off) : exec i s = .next (truncated off s) := by
  obtain ⟨k, he⟩ := exec_eq_withFields hb hctx
  rw [he, withFields, hoff]

/-- Settles O14: the fetch is the cut encoding, and the decoder finds it short at the field at which the code's own
reads truncate it. -/
theorem stepRunsTheCutOffCode : Obligations.StepRunsTheCutOffCode := by
  intro s rest i n hnext hwf hctx hn hlen hbytes
  obtain ⟨off, hoff⟩ := firstShort_of_not_fit hn
  have hcount : ((encode i).take n).length = n := by
    rw [List.length_take, length_encode, Nat.min_eq_left (Nat.le_of_lt hn)]
  have hmax := length_le_maxLength i
  have hfetch : fetchBytes s = (encode i).take n :=
    fetchBytes_at_end hbytes (by omega) (by rw [hcount, hlen])
  have hshort : fetchCode s = .short off := by
    rw [fetchCode, hfetch]
    exact decodeCode_cut hwf hctx hoff
  have hmissing : firstShort s.inLen.toNat s.cursor.toNat i.fields = some (s.cursor.toNat + off) := by
    rw [hlen]
    simpa [hoff] using firstShort_add s.cursor.toNat n 0 i.fields
  rw [step_of_engineNext hnext, engineStep_of_short (s := { s with schedule := rest }) hshort]
  exact (exec_of_firstShort (s := { s with schedule := rest }) hnext.1 hctx hmissing).symm

end Sys2Proof.Machine

/-! ## The frames of the control codes -/

namespace Sys2Proof.Machine

/-- Reading fields that has a next state ends in the truncation, or in what follows. -/
theorem withFields_next {ns : List Nat} {s t : State} {k : State → Out} (h : withFields ns s k = .next t) :
    (∃ off, t = truncated off s) ∨ k (advance ns.sum s) = .next t := by
  obtain ⟨off, -, he⟩ | ⟨-, he⟩ := withFields_cases ns s k <;> rw [he] at h
  · cases h
    exact .inl ⟨off, rfl⟩
  · exact .inr h

theorem code24_ends {pending : Bool} {ns : List Nat} {s t : State} {k : State → Out}
    (h : code24 pending ns s k = .next t) : (∃ off, t = truncated off s) ∨ k (advance ns.sum s) = .next t := by
  by_cases hen : enabled24 pending s = true
  · rw [code24_enabled k hen] at h
    exact withFields_next h
  · rw [code24, if_neg hen] at h
    cases h

theorem code8_ends {ns : List Nat} {s t : State} {k : State → Out} (h : code8 ns s k = .next t) :
    (∃ off, t = truncated off s) ∨ k (advance ns.sum s) = .next t := by
  by_cases hen : enabled8 s = true
  · rw [code8_enabled k hen] at h
    exact withFields_next h
  · rw [code8, if_neg hen] at h
    cases h

theorem finish24_next {pix : Pixel} {cnt : Int} {pos : Fin Config.k24} {s t : State}
    (h : finish24 pix cnt pos s = .next t) : t = complete (mtf24 pos pix (emit cnt (bytes3 pix) s)) := by
  obtain ⟨-, he⟩ | ⟨-, he⟩ := finish24_cases pix cnt pos s <;> rw [he] at h <;> cases h
  rfl

theorem finish8_next {pix : Byte} {cnt : Int} {pos : Fin Config.k8} {s t : State}
    (h : finish8 pix cnt pos s = .next t) : t = complete (mtf8 pos pix (emit cnt [pix] s)) := by
  obtain ⟨-, he⟩ | ⟨-, he⟩ := finish8_cases pix cnt pos s <;> rw [he] at h <;> cases h
  rfl

/-- In any state Emit leaves the output bytes outside its clamped run. -/
theorem emit_outside {cnt : Int} {unit : List Byte} {s : State} {a : Nat}
    (h : a < s.outPtr.toNat ∨ (s.outPtr.toNat : Int) + unit.length * min (max cnt 0) s.remain.toNat ≤ a) :
    (emit cnt unit s).outMem.read a = s.outMem.read a := by
  rw [emit_outMem]
  apply Memory.read_writeRun_outside
  refine h.imp_right fun h => ?_
  rw [← runLength_int] at h
  zify
  rwa [mul_comm (runLength cnt s.remain.toNat : Int)]

section
variable {i : Instr} {cnt : Int}

/-- A D24 code that ends with the run `cnt` and the slot `pos` has their frame; `mayPend` where it writes PEND. -/
theorem frameOf24_of_run (pending mayPend : Bool) (pos : Fin Config.k24) (hi : isCode i = true) {k : State → Out}
    (he : ∀ s, exec i s = code24 pending i.fields s k)
    (hk : ∀ u, ∃ pix q, k u = finish24 pix cnt pos { u with pend := q } ∧ (mayPend = false → q = u.pend)) :
    FrameOf24 i (fun _ => cnt) pos mayPend := by
  intro s t h
  obtain ⟨hsetup, hstatus, -⟩ := exec_frame hi h
  rw [he] at h
  obtain ⟨off, rfl⟩ | h := code24_ends h
  · exact ⟨hsetup, rfl, rfl, fun _ _ _ => rfl, fun _ => rfl, .inr rfl, hstatus, fun _ _ => rfl⟩
  · obtain ⟨pix, q, hq, hpend⟩ := hk (advance i.fields.sum s)
    obtain rfl := finish24_next (hq ▸ h)
    refine ⟨hsetup, by simp, by simp, fun j hj hpos => ?_, fun hm => by simp [hpend hm], .inl (by simp), hstatus,
      fun a ha => ?_⟩
    · simpa using mtf_kept pos pix s.frame24 hj hpos
    · simpa using emit_outside (unit := bytes3 pix) (s := { advance i.fields.sum s with pend := q }) ha

/-- A D8 code that ends with the run `cnt` and the slot `pos` has their frame; `mayFix` where it writes POSFIX. -/
theorem frameOf8_of_run (mayFix : Bool) (pos : Fin Config.k8) (hi : isCode i = true) {k : State → Out}
    (he : ∀ s, exec i s = code8 i.fields s k)
    (hk : ∀ u, ∃ pix b, k u = finish8 pix cnt pos { u with posfix := b } ∧ (mayFix = false → b = u.posfix)) :
    FrameOf8 i cnt pos mayFix := by
  intro s t h
  obtain ⟨hsetup, hstatus, -⟩ := exec_frame hi h
  rw [he] at h
  obtain ⟨off, rfl⟩ | h := code8_ends h
  · exact ⟨hsetup, rfl, rfl, fun _ => rfl, fun _ _ _ => rfl, .inr rfl, hstatus, fun _ _ => rfl⟩
  · obtain ⟨pix, b, hb, hfix⟩ := hk (advance i.fields.sum s)
    obtain rfl := finish8_next (hb ▸ h)
    refine ⟨hsetup, by simp, by simp, fun hm => by simp [hfix hm], fun j hj hpos => ?_, .inl (by simp), hstatus,
      fun a ha => ?_⟩
    · simpa using mtf_kept pos pix s.frame8 hj hpos
    · simpa using emit_outside (unit := [pix]) (s := { advance i.fields.sum s with posfix := b }) (by simpa using ha)

end

/-- Settles O26: each code is its reads and then a run whose count and slot its operands give. -/
theorem framesOfTheD24Codes : Obligations.FramesOfTheD24Codes := by
  refine ⟨fun pix => ?litp, fun c f => ?drefs, fun f x p => ?drefl, fun p k => ?drefx, fun m pix => ?litc,
    fun k pix => ?litx, fun n pix => ?litr⟩
  case litp =>
    exact frameOf24_of_run true true literalSlot24 rfl (fun _ => rfl) fun u => ⟨pix, u.pend - 1, rfl, nofun⟩
  case drefs =>
    exact frameOf24_of_run false false (drefsSlot f) rfl (fun _ => rfl) fun u => ⟨_, u.pend, rfl, fun _ => rfl⟩
  case drefl | drefx =>
    exact frameOf24_of_run false false (extSlot p) rfl (fun _ => rfl) fun u => ⟨_, u.pend, rfl, fun _ => rfl⟩
  case litc =>
    exact frameOf24_of_run false true literalSlot24 rfl (fun _ => rfl) fun u => ⟨pix, chainPend m, rfl, nofun⟩
  case litx | litr =>
    exact frameOf24_of_run false false literalSlot24 rfl (fun _ => rfl) fun u => ⟨pix, u.pend, rfl, fun _ => rfl⟩

theorem posfixAfter_of_sel_ne_zero {sel : BitVec 4} (s : State) (h : (sel == 0) = false) :
    posfixAfter sel s = s.posfix := by
  rw [posfixAfter, h, Bool.or_false]

/-- Settles O27: each code is its reads and then a run whose count and slot its operands give; an escape reference
writes POSFIX for `sel = 0` only. -/
theorem framesOfTheD8Codes : Obligations.FramesOfTheD8Codes := by
  refine ⟨fun hi lo => ?bref, fun lo b => ?blit, fun k b => ?blit8, fun k b => ?blit16, fun k b => ?blit32,
    fun k sel q => ?bref8, fun k sel q => ?bref16, fun k sel q => ?bref32⟩
  case bref =>
    exact frameOf8_of_run false (brefSlot hi) rfl (fun _ => rfl) fun u => ⟨_, u.posfix, rfl, fun _ => rfl⟩
  case blit | blit8 | blit16 | blit32 =>
    exact frameOf8_of_run false literalSlot8 rfl (fun _ => rfl) fun u => ⟨b, u.posfix, rfl, fun _ => rfl⟩
  case bref8 | bref16 | bref32 =>
    exact frameOf8_of_run (sel == 0) (escapeSlot sel) rfl (fun _ => rfl) fun u =>
      ⟨_, posfixAfter sel u, rfl, posfixAfter_of_sel_ne_zero u⟩

end Sys2Proof.Machine

/-! ## How a decode goes on and ends -/

namespace Sys2Proof.Machine

theorem length_pos (i : Instr) : 0 < i.length := by
  cases i <;> simp [Instr.length, Instr.fields]

theorem complete_engine_ne_fail {s : State} (hb : s.engine = .busy) : (complete s).engine ≠ .fail := by
  rw [complete_engine, hb]
  split <;> nofun

/-- CURSOR moves forward to `t`'s, not past IN_LEN. -/
def MovesForward (s t : State) : Prop := s.cursor.toNat < t.cursor.toNat ∧ t.cursor.toNat ≤ s.inLen.toNat

/-- A code whose fields fit moves CURSOR forward: no code is empty. -/
theorem advance_movesForward {s : State} (i : Instr) (hc : s.cursor.toNat ≤ s.inLen.toNat)
    (hn : firstShort s.inLen.toNat s.cursor.toNat i.fields = none) : MovesForward s (advance i.length s) := by
  have hfits : s.cursor.toNat + i.length ≤ s.inLen.toNat := fits_of_firstShort_none hc hn
  have hlen := length_pos i
  rw [MovesForward, advance_toNat hfits]
  omega

/-- From the invariant an iteration is undone, or it moves CURSOR past its code and does not fail
(41_run_engine R149). -/
theorem exec_undone_or_advanced {i : Instr} {s t : State} (hi : isCode i = true) (hinv : s.Inv)
    (h : exec i s = .next t) : (∃ off, t = truncated off s) ∨ (t.engine ≠ .fail ∧ MovesForward s t) := by
  cases code_end i s hi with
  | notEnabled he => simp [he] at h
  | undone off hb hoff he =>
    rw [he] at h
    cases h
    exact .inl ⟨off, rfl⟩
  | noRoom hb he hroom => simp [he] at h
  | run24 q pix cnt pos hb hp hq hn hfit he =>
    rw [he] at h
    cases h
    have hmoves := advance_movesForward i (hinv.busy_cursor hb) hn
    exact .inr ⟨complete_engine_ne_fail hb, by simpa [MovesForward] using hmoves⟩
  | run8 fix pix cnt pos hb hp hn hfit he =>
    rw [he] at h
    cases h
    have hmoves := advance_movesForward i (hinv.busy_cursor hb) hn
    exact .inr ⟨complete_engine_ne_fail hb, by simpa [MovesForward] using hmoves⟩

theorem engineStep_undone_or_advanced {s t : State} (hinv : s.Inv) (h : engineStep s = .next t) :
    (∃ off, t = truncated off s) ∨ (t.engine ≠ .fail ∧ MovesForward s t) := by
  obtain ⟨i, hf, he⟩ | ⟨off, -, he⟩ := engineStep_cases s
  · exact exec_undone_or_advanced (isCode_of_ctx (ctx_of_fetchCode hf)) hinv (he ▸ h)
  · rw [he] at h
    cases h
    exact .inl ⟨_, rfl⟩

/-- Settles O49: the only iteration that does not move CURSOR forward is the one that a truncation undoes. -/
theorem iterationsMoveTheCursorForward : Obligations.IterationsMoveTheCursorForward := by
  intro s t rest hinv hnext h
  rw [step_of_engineNext hnext] at h
  obtain ⟨off, rfl⟩ | ⟨-, hmoves⟩ := engineStep_undone_or_advanced (inv_of_environment hinv rfl) h
  · exact .inr ⟨rfl, rfl, rfl⟩
  · exact .inl hmoves

/-- A decode under way has not filled its image: REMAIN > 0 (41_run_engine R141). -/
theorem State.Inv.outPtr_lt_outSize {s : State} (h : s.Inv) (hb : s.engine = .busy) : s.outPtr.toNat < s.outSize := by
  have hremain := h.busy_remain hb
  have hle := h.remain_le
  have hbpu : 0 < bytesPerUnit s.path := by cases s.path <;> decide
  rw [h.outPtr_eq (h.busy_fmt (.inl hb)), State.outSize]
  exact Nat.mul_lt_mul_of_pos_right (by omega) hbpu

/-- A decode that ended DONE has filled its image (41_run_engine R150). -/
theorem State.Inv.outPtr_of_done {s : State} (h : s.Inv) (hd : s.engine = .done) : s.outPtr.toNat = s.outSize := by
  rw [h.outPtr_eq (h.busy_fmt (.inr hd)), h.done_remain hd, State.outSize]
  rfl

/-- Settles O48: the iteration keeps the invariant and the setup, so that DONE means a full image; one that fails is
undone, and leaves OUT_PTR where it was while BUSY. -/
theorem doneDecodesFillTheImage : Obligations.DoneDecodesFillTheImage := by
  intro s t rest hinv hnext h
  have hb := hnext.1
  have htinv := everyStepKeepsInvariant s t hinv h
  rw [step_of_engineNext hnext] at h
  have hsetup := (engineStep_frame h).setup
  have hsize : t.outSize = t.stride.toNat * t.height.toNat := by
    rw [State.outSize, hsetup.npix, hsetup.path, hsetup.stride, hsetup.height]
    exact hinv.busy_size hb
  refine ⟨fun hd => ?_, fun hf => ?_⟩
  · have hfull := htinv.outPtr_of_done hd
    exact ⟨htinv.result_ok_iff.2 (by simp [hd]), htinv.done_remain hd, hfull, hfull.trans hsize⟩
  · obtain ⟨off, rfl⟩ | ⟨hnf, -⟩ := engineStep_undone_or_advanced (inv_of_environment hinv rfl) h
    · rw [← hsize]
      exact hinv.outPtr_lt_outSize hb
    · exact absurd hf hnf

/-! A decode ends -/

/-- The decode has ended. -/
def Ended (s : State) : Prop := s.engine = .done ∨ s.engine = .fail

/-- The engine's turn while BUSY is the abort step or an iteration, but for the free values drawn. -/
theorem engineTurn_busy {s : State} (hb : s.engine = .busy) :
    ∃ n, engineTurn s = .next (abortStep { s with freeIdx := n }) ∨
      engineTurn s = engineStep { s with freeIdx := n } := by
  rw [engineTurn, if_pos ((busy_iff s).2 hb)]
  split
  · refine ⟨s.freeIdx + 1, ?_⟩
    dsimp only
    split
    · exact .inl rfl
    · exact .inr rfl
  · exact ⟨s.freeIdx, .inr rfl⟩

theorem step_of_noTurn {s : State} (hs : s.schedule = []) : step s = engineTurn s := by
  rw [step, stepTurn, hs]

/-- From the invariant every step that the engine takes by itself has a next state. -/
theorem step_next_of_noTurn {s : State} (hinv : s.Inv) (hs : s.schedule = []) : ∃ t, step s = .next t := by
  rw [step_of_noTurn hs]
  cases h : engineTurn s with
  | next t => exact ⟨t, rfl⟩
  | fault f => exact absurd h (engineTurn_ne_fault hinv f)
  | refused r => exact absurd h (engineTurn_ne_refused s r)

/-- With no turn left, a step of a decode ends it or goes on with less of its input (41_run_engine R149). -/
theorem step_ended_or_advanced {s t : State} (hinv : s.Inv) (hb : s.engine = .busy) (hs : s.schedule = [])
    (h : step s = .next t) :
    Ended t ∨ (t.engine = .busy ∧ t.schedule = [] ∧ t.inLen = s.inLen ∧ MovesForward s t) := by
  rw [step_of_noTurn hs] at h
  obtain ⟨n, he | he⟩ := engineTurn_busy hb <;> rw [he] at h
  · cases h
    exact .inl (.inr rfl)
  · obtain ⟨hsetup, ⟨-, -, ⟨hbt, -⟩ | ⟨hd, -⟩ | ⟨hf, -⟩⟩, -⟩ := engineStep_frame h
    · obtain ⟨off, rfl⟩ | ⟨-, hmoves⟩ := engineStep_undone_or_advanced (inv_of_environment hinv rfl) h
      · exact .inl (.inr rfl)
      · exact .inr ⟨hbt.trans hb, hsetup.schedule.trans hs, hsetup.inLen, hmoves⟩
    · exact .inl (.inl hd)
    · exact .inl (.inr hf)

/-- One more step of a run comes first. -/
theorem run_succ {M : Host.Core} {s t : M.State} (n : Nat) (h : M.step s = .next t) : M.run (n + 1) s = M.run n t := by
  rw [Host.Core.run, h]

/-- Settles O50, by induction on the input left: each step ends the decode or takes some of it. -/
theorem everyDecodeEnds : Obligations.EveryDecodeEnds := by
  intro s hinv hb hs
  induction hleft : s.inLen.toNat - s.cursor.toNat using Nat.strong_induction_on generalizing s with
  | _ left ih =>
    obtain ⟨t, ht⟩ := step_next_of_noTurn hinv hs
    obtain hend | ⟨hbt, hst, hlen, hlt, hle⟩ := step_ended_or_advanced hinv hb hs ht
    · exact ⟨1, t, by omega, run_succ (M := core) 0 ht, hend⟩
    · obtain ⟨n, u, hn, hrun, hend⟩ :=
        ih (t.inLen.toNat - t.cursor.toNat) (by rw [hlen]; omega) t (everyStepKeepsInvariant s t hinv ht) hbt hst rfl
      rw [hlen] at hn
      exact ⟨n + 1, u, by omega, (run_succ (M := core) n ht).trans hrun, hend⟩

end Sys2Proof.Machine

/-! ## What each D24 code does -/

namespace Sys2Proof.Machine

section
variable {s : State} {pix : Pixel} {cnt : Int} {k : State → Out}

/-- A D24 code that is presented from the invariant and ends with the run (`pix`, `cnt`, `pos`) and with PEND = `q` has
that run's effect: there is room for the run, and IN_LEN either leaves the code whole or cuts one of its fields. -/
theorem codeEffect_of_run24 (i : Instr) (pending : Bool) (q : BitVec 8) (pos : Fin Config.k24) (hinv : s.Inv)
    (hen : enabled24 pending s = true) (he : exec i s = code24 pending i.fields s k)
    (hk : k (advance i.length s) = finish24 pix cnt pos { advance i.length s with pend := q }) :
    CodeEffect i s fun t => Ran24 s t i.length q.toNat pix cnt pos := by
  obtain ⟨hb, hp, -⟩ := (enabled24_iff pending s).1 hen
  have hroom := hinv.room hb
  rw [hp] at hroom
  refine codeEffect_of_fields (he.trans (code24_enabled k hen)) fun hfits => ?_
  rw [hk]
  exact finish24_ran q pix cnt pos hinv.outMem_wf hroom hfits

/-- The codes other than LITP are presented while no literal is pending (42_decode24 R160). -/
theorem enabled24_of_not_pending (hb : s.engine = .busy) (hp : s.path = .d24) (hpend : s.pend = 0) :
    enabled24 false s = true :=
  (enabled24_iff false s).2 ⟨hb, hp, by simp [hpend]⟩

/-- A code other than LITP that does not write PEND leaves no literal pending. -/
theorem codeEffect_of_run24_not_pending (i : Instr) (pos : Fin Config.k24) (hinv : s.Inv) (hb : s.engine = .busy)
    (hp : s.path = .d24) (hpend : s.pend = 0) (he : exec i s = code24 false i.fields s k)
    (hk : k (advance i.length s) = finish24 pix cnt pos (advance i.length s)) :
    CodeEffect i s fun t => Ran24 s t i.length 0 pix cnt pos := by
  have h := codeEffect_of_run24 i false s.pend pos hinv (enabled24_of_not_pending hb hp hpend) he hk
  rwa [hpend] at h

end

/-- Settles O16: PEND is not 0, so that lowering it by 1 does not wrap. -/
theorem litpEffect : Obligations.LitpEffect := by
  intro s pix hinv hb hp hpend
  have hen : enabled24 true s = true := (enabled24_iff true s).2 ⟨hb, hp, by simpa using hpend⟩
  have hlower : (s.pend - 1).toNat = s.pend.toNat - 1 := BitVec.toNat_sub_of_le hpend
  rw [← hlower]
  exact ⟨rfl, codeEffect_of_run24 (.litp pix) true (s.pend - 1) literalSlot24 hinv hen rfl rfl⟩

/-- Settles O17: the code is one byte and then the run of `c` of slot `f`. -/
theorem drefsEffect : Obligations.DrefsEffect := fun _ c f hinv hb hp hpend =>
  ⟨rfl, codeEffect_of_run24_not_pending (.drefs c f) (drefsSlot f) hinv hb hp hpend rfl rfl⟩

/-- Settles O18: the code is two bytes and then the run of `2f + x` of slot `p`. -/
theorem dreflEffect : Obligations.DreflEffect := fun _ f x p hinv hb hp hpend =>
  ⟨rfl, codeEffect_of_run24_not_pending (.drefl f x p) (extSlot p) hinv hb hp hpend rfl rfl⟩

/-- Settles O19: the code is two bytes and a count, and then the run of that count of slot `p`. -/
theorem drefxEffect : Obligations.DrefxEffect := fun _ p k hinv hb hp hpend =>
  ⟨rfl, codeEffect_of_run24_not_pending (.drefx p k) (extSlot p) hinv hb hp hpend rfl rfl⟩

theorem toNat_chainPend (m : Byte) : (chainPend m).toNat = m.toNat - 1 := by
  have := m.isLt
  rw [chainPend, BitVec.toNat_ofNat, Nat.mod_eq_of_lt (by omega)]

/-- Settles O20: the chain byte less 1 is what PEND becomes, and it fits there. -/
theorem litcEffect : Obligations.LitcEffect := by
  intro s m pix hinv hb hp hpend
  rw [← toNat_chainPend m]
  exact ⟨rfl, codeEffect_of_run24 (.litc m pix) false (chainPend m) literalSlot24 hinv
    (enabled24_of_not_pending hb hp hpend) rfl rfl⟩

/-- Settles O21: the code is a byte, a count and a pixel, and then the run of that count of the pixel. -/
theorem litxEffect : Obligations.LitxEffect := fun _ k pix hinv hb hp hpend =>
  ⟨rfl, codeEffect_of_run24_not_pending (.litx k pix) literalSlot24 hinv hb hp hpend rfl rfl⟩

/-- Settles O22: the code is a byte and a pixel, and then the run of `n` of the pixel. -/
theorem litrEffect : Obligations.LitrEffect := fun _ n pix hinv hb hp hpend =>
  ⟨rfl, codeEffect_of_run24_not_pending (.litr n pix) literalSlot24 hinv hb hp hpend rfl rfl⟩

end Sys2Proof.Machine

/-! ## Move-to-front on D24 -/

namespace Sys2Proof.Machine

section
variable {s t : State} {i : Instr} {pending : Bool}

/-- A D24 code that has a next state was presented. -/
theorem enabled24_of_next (hctx : i.ctx = .d24 pending) (h : exec i s = .next t) : enabled24 pending s = true := by
  obtain ⟨k, he, -⟩ := exec_eq_code24 hctx s
  by_contra hen
  rw [he, code24, if_neg hen] at h
  cases h

/-- Where D24 codes are presented, they are what the engine reads. -/
theorem codeCtx_of_enabled24 (hen : enabled24 pending s = true) : s.codeCtx = .d24 pending := by
  obtain ⟨-, hp, hpend⟩ := (enabled24_iff pending s).1 hen
  simp only [State.codeCtx, hp, hpend, Bool.decide_eq_true]

theorem codeCtx_of_next (hctx : i.ctx = .d24 pending) (h : exec i s = .next t) : i.ctx = s.codeCtx :=
  hctx.trans (codeCtx_of_enabled24 (enabled24_of_next hctx h)).symm

/-- A code that does not end TRUNCATED has its bytes below IN_LEN. -/
theorem fits_of_not_truncated (hinv : s.Inv) (hb : s.engine = .busy) (hctx : i.ctx = s.codeCtx)
    (h : exec i s = .next t) (hn : t.result ≠ .truncated) : s.cursor.toNat + i.length ≤ s.inLen.toNat := by
  cases hoff : firstShort s.inLen.toNat s.cursor.toNat i.fields with
  | none => exact fits_of_firstShort_none (hinv.busy_cursor hb) hoff
  | some off =>
    rw [exec_of_firstShort hb hctx hoff] at h
    cases h
    exact absurd rfl hn

/-- The next state of a code whose bytes lie below IN_LEN has the code's effect. -/
theorem CodeEffect.of_next {eff : State → Prop} (heff : CodeEffect i s eff)
    (hfits : s.cursor.toNat + i.length ≤ s.inLen.toNat) (h : exec i s = .next t) : eff t := by
  obtain ⟨u, hu, hrun⟩ := heff.completes hfits
  cases h.symm.trans hu
  exact hrun

theorem ctx_of_references24 {k : Nat} (href : References24 i k) : i.ctx = .d24 false := by
  obtain ⟨c, f, rfl, -⟩ | ⟨f, x, p, rfl, -⟩ | ⟨p, n, rfl, -⟩ := href <;> rfl

/-- A reference to slot `k` that is not truncated is a run of the pixel of slot `k`, whichever code makes it. -/
theorem references24_ran {k : Nat} (hk : k < 128) (href : References24 i k) (hinv : s.Inv) (h : exec i s = .next t)
    (hn : t.result ≠ .truncated) : ∃ len cnt, Ran24 s t len 0 s.frame24[k] cnt k := by
  have hen := enabled24_of_next (ctx_of_references24 href) h
  obtain ⟨hb, hp, hpend⟩ := (enabled24_iff false s).1 hen
  have hpend : s.pend = 0 := BitVec.eq_of_toNat_eq (by simpa using hpend)
  have hfits := fits_of_not_truncated hinv hb (codeCtx_of_next (ctx_of_references24 href) h) h hn
  obtain ⟨c, f, rfl, rfl⟩ | ⟨f, x, p, rfl, rfl⟩ | ⟨p, n, rfl, rfl⟩ := href
  · exact ⟨_, _, (drefsEffect s c f hinv hb hp hpend).2.of_next hfits h⟩
  · exact ⟨_, _, (dreflEffect s f x p hinv hb hp hpend).2.of_next hfits h⟩
  · exact ⟨_, _, (drefxEffect s p n hinv hb hp hpend).2.of_next hfits h⟩

end

/-- Byte `j` of a pixel (00_scope R11). -/
theorem bytes3_getD (pix : Pixel) {j : Nat} (hj : j < 3) : (bytes3 pix).getD j 0 = pix.extractLsb' (8 * j) 8 := by
  obtain rfl | rfl | rfl : j = 0 ∨ j = 1 ∨ j = 2 := by omega
  all_goals rfl

section
variable {s t : State} {len pend pos : Nat} {pix : Pixel} {cnt : Int}

/-- The bytes that a run writes are the bytes of its pixel, over and over. -/
theorem Ran24.read_inside (h : Ran24 s t len pend pix cnt pos) {a : Nat} (h1 : s.outPtr.toNat ≤ a)
    (h2 : a < t.outPtr.toNat) : t.outMem.read a = pix.extractLsb' (8 * ((a - s.outPtr.toNat) % 3)) 8 :=
  (h.emitted.inside a h1 h2).trans (bytes3_getD (j := (a - s.outPtr.toNat) % 3) pix (Nat.mod_lt _ (by decide)))

/-- A run moves OUT_PTR on by whole pixels. -/
theorem Ran24.outPtr_pixels (h : Ran24 s t len pend pix cnt pos) : ∃ n, t.outPtr.toNat = s.outPtr.toNat + 3 * n := by
  have hout := h.emitted.outPtr
  rw [← runLength_int] at hout
  refine ⟨runLength cnt s.remain.toNat, ?_⟩
  simp only [List.length_cons, List.length_nil] at hout
  omega

end

/-- Settles O53: the first run is of the pixel of slot `k` and leaves it at slot 0, from where the second takes it. -/
theorem moveToFrontTwiceOnD24 : Obligations.MoveToFrontTwiceOnD24 := by
  intro s t u i j k hk hi hj hinv ht hbusy hu hun
  have htinv : t.Inv := exec_keeps_inv (isCode_of_ctx (codeCtx_of_next (ctx_of_references24 hi) ht)) hinv ht
  have htn : t.result ≠ .truncated := by simp [htinv.result_ok hbusy]
  obtain ⟨_, _, hrun⟩ := references24_ran hk hi hinv ht htn
  obtain ⟨_, _, hrun'⟩ := references24_ran (by decide) hj htinv hu hun
  have hfront : t.frame24[0] = s.frame24[k] := hrun.moved.front (by decide)
  have hfront' : u.frame24[0] = s.frame24[k] := (hrun'.moved.front (by decide)).trans hfront
  refine ⟨fun a h1 h2 => ?_, hfront, hfront'⟩
  by_cases hlt : a < t.outPtr.toNat
  · rw [hrun'.emitted.outside a (.inl hlt)]
    exact hrun.read_inside h1 hlt
  · obtain ⟨n, hptr⟩ := hrun.outPtr_pixels
    have hphase : (a - t.outPtr.toNat) % 3 = (a - s.outPtr.toNat) % 3 := by omega
    rw [hrun'.read_inside (by omega) h2, hfront, hphase]

end Sys2Proof.Machine

/-! ## A literal chain -/

namespace Sys2Proof.Machine

/-! The bytes of a literal in the stream -/

/-- The pixel whose three bytes lie at `a` (00_scope R11). -/
def pixelAt (m : Memory) (a : Nat) : Pixel := le3 (m.read a) (m.read (a + 1)) (m.read (a + 2))

theorem bytes3_pixelAt (m : Memory) (a : Nat) : bytes3 (pixelAt m a) = m.readBytes a 3 := bytes3_le3 _ _ _

theorem bytes3_pixelAt_getD (m : Memory) (a : Nat) {j : Nat} (hj : j < 3) :
    (bytes3 (pixelAt m a)).getD j 0 = m.read (a + j) := by
  have hlen : j < (m.readBytes a 3).length := by simpa using hj
  rw [bytes3_pixelAt, List.getD_eq_getElem _ _ hlen, Memory.getElem_readBytes _ hj]

theorem streamHas_readBytes {s : State} {n : Nat} (h : s.cursor.toNat + n ≤ s.inLen.toNat) :
    s.streamHas (s.inMem.readBytes s.cursor.toNat n) :=
  ⟨by simpa using h, fun _ hj => (Memory.getElem_readBytes _ (by simpa using hj)).symm⟩

/-- With no turn left and no abort requested, a step runs the code whose encoding lies at CURSOR. -/
theorem step_of_bytesAtCursor {s : State} {i : Instr} (hb : s.engine = .busy) (hs : s.schedule = [])
    (ha : s.abortReq = false) (hwf : i.wf = true) (hctx : i.ctx = s.codeCtx)
    (hfits : s.cursor.toNat + i.length ≤ s.inLen.toNat)
    (henc : encode i = s.inMem.readBytes s.cursor.toNat i.length) : step s = exec i s := by
  have hsame : ({ s with schedule := [] } : State) = s := by rw [← hs]
  have hbytes : s.streamHas (encode i) := henc ▸ streamHas_readBytes hfits
  have hstep := stepRunsTheCodeAtCursor s [] i ⟨hb, .inl ⟨hs, rfl, ha⟩⟩ hwf hctx hbytes
  rwa [hsame] at hstep

/-! What the iterations of a chain leave -/

theorem SameSetup.trans {s t u : State} (h : SameSetup s t) (h' : SameSetup t u) : SameSetup s u :=
  ⟨h'.ctrlOp.trans h.ctrlOp, h'.ctrlHdr.trans h.ctrlHdr, h'.ctrlIe.trans h.ctrlIe, h'.width.trans h.width,
    h'.height.trans h.height, h'.depth.trans h.depth, h'.inLen.trans h.inLen, h'.outCap.trans h.outCap,
    h'.fmt.trans h.fmt, h'.stride.trans h.stride, h'.npix.trans h.npix, h'.path.trans h.path, h'.inMem.trans h.inMem,
    h'.schedule.trans h.schedule, h'.busData.trans h.busData, h'.freeIdx.trans h.freeIdx⟩

/-- After an iteration that leaves pixels remaining, the next one's completion is that of both. -/
theorem Completion.trans {s t u : State} (h : Completion s t) (ht : t.remain ≠ 0) (h' : Completion t u) :
    Completion s u where
  ended := h'.ended
  goesOn hu := by
    obtain ⟨h1, h2, h3, h4⟩ := h.goesOn ht
    obtain ⟨h1', h2', h3', h4'⟩ := h'.goesOn hu
    exact ⟨h1'.trans h1, h2'.trans h2, h3'.trans h3, h4'.trans h4⟩

/-- `t` comes of `s` by iterations that copied `n` literals, from offset `src` of the stream on, to the output
(42_decode24 R170). -/
structure Copied (s : State) (src n : Nat) (t : State) : Prop where
  remain : t.remain.toNat = s.remain.toNat - n
  outPtr : t.outPtr.toNat = s.outPtr.toNat + 3 * n
  bytes : ∀ j, j < 3 * n → t.outMem.read (s.outPtr.toNat + j) = s.inMem.read (src + j)
  completion : Completion s t
  setup : SameSetup s t

theorem copied_zero {s : State} (src : Nat) (hr : 0 < s.remain.toNat) : Copied s src 0 s where
  remain := rfl
  outPtr := rfl
  bytes := by simp
  completion := ⟨fun h0 => absurd h0 (BitVec.toNat_ne.2 hr.ne'), fun _ => ⟨rfl, rfl, rfl, rfl⟩⟩
  setup := by constructor <;> rfl

/-- A run of 1 with a pixel remaining writes that pixel and counts it. -/
theorem Ran24.one {t u : State} {len pend pos : Nat} {pix : Pixel} (h : Ran24 t u len pend pix 1 pos)
    (hr : 0 < t.remain.toNat) : u.remain.toNat = t.remain.toNat - 1 ∧ u.outPtr.toNat = t.outPtr.toNat + 3 := by
  have hremain := h.emitted.remain
  have hout := h.emitted.outPtr
  simp only [List.length_cons, List.length_nil] at hout
  omega

/-- One more literal is copied by a run of 1 of the pixel that comes next in the stream. -/
theorem Copied.literal {s t u : State} {src n len pend pos : Nat} (h : Copied s src n t) (hr : 0 < t.remain.toNat)
    (hrun : Ran24 t u len pend (pixelAt s.inMem (src + 3 * n)) 1 pos) : Copied s src (n + 1) u := by
  obtain ⟨hremain, hout⟩ := hrun.one hr
  have hremain' := h.remain
  have hout' := h.outPtr
  refine ⟨by omega, by omega, fun j hj => ?_, h.completion.trans (BitVec.toNat_ne.2 hr.ne') hrun.completion,
    h.setup.trans hrun.setup⟩
  by_cases hlt : j < 3 * n
  · rw [hrun.emitted.outside _ (.inl (by omega)), h.bytes j hlt]
  · have hin := hrun.emitted.inside (s.outPtr.toNat + j) (by omega) (by omega)
    have hbyte := bytes3_pixelAt_getD s.inMem (src + 3 * n) (j := j - 3 * n) (by omega)
    have hphase : (s.outPtr.toNat + j - t.outPtr.toNat) % 3 = j - 3 * n := by omega
    calc u.outMem.read (s.outPtr.toNat + j)
        = (bytes3 (pixelAt s.inMem (src + 3 * n))).getD ((s.outPtr.toNat + j - t.outPtr.toNat) % 3) 0 := hin
      _ = s.inMem.read (src + 3 * n + (j - 3 * n)) := by rw [hphase, hbyte]
      _ = s.inMem.read (src + j) := by congr 1; omega

/-- After `n` of the literals of a chain of `m`: they are copied, CURSOR is past them and the others are pending. -/
structure ChainAt (s : State) (src m n : Nat) (t : State) : Prop where
  inv : t.Inv
  copied : Copied s src n t
  cursor : t.cursor.toNat = src + 3 * n
  pend : t.pend.toNat = m - n

/-- The LITC itself copies the first literal of its chain (42_decode24 R165). -/
theorem chainAt_litc {s : State} {m : Byte} (hinv : s.Inv) (hb : s.engine = .busy) (hp : s.path = .d24)
    (hpend : s.pend = 0) (hs : s.schedule = []) (ha : s.abortReq = false)
    (hctl : s.inMem.read s.cursor.toNat = 0x01) (hm : s.inMem.read (s.cursor.toNat + 1) = m)
    (hfits : s.cursor.toNat + 5 ≤ s.inLen.toNat) :
    ∃ t, step s = .next t ∧ ChainAt s (s.cursor.toNat + 2) m.toNat 1 t := by
  have henc : encode (.litc m (pixelAt s.inMem (s.cursor.toNat + 2))) = s.inMem.readBytes s.cursor.toNat 5 := by
    simp [encode, bytes3_pixelAt, Memory.readBytes, hctl, hm]
  have hctx : s.codeCtx = .d24 false := codeCtx_of_enabled24 (enabled24_of_not_pending hb hp hpend)
  obtain ⟨t, ht, hrun⟩ := (litcEffect s m (pixelAt s.inMem (s.cursor.toNat + 2)) hinv hb hp hpend).2.completes hfits
  have ht : step s = .next t := (step_of_bytesAtCursor (i := .litc m _) hb hs ha rfl hctx.symm hfits henc).trans ht
  have hr := hinv.busy_remain hb
  exact ⟨t, ht, everyStepKeepsInvariant s t hinv ht, (copied_zero _ hr).literal hr hrun, hrun.cursor, hrun.pend⟩

/-- Each LITP copies the next literal (42_decode24 R161). -/
theorem ChainAt.litp {s t : State} {src m n : Nat} (h : ChainAt s src m n t) (hb : s.engine = .busy)
    (hp : s.path = .d24) (hs : s.schedule = []) (ha : s.abortReq = false) (hm : n < m) (hr : n < s.remain.toNat)
    (hfits : src + 3 * (n + 1) ≤ s.inLen.toNat) : ∃ u, step t = .next u ∧ ChainAt s src m (n + 1) u := by
  obtain ⟨hinv, hcopied, hcursor, hpend⟩ := h
  have hsetup := hcopied.setup
  have hrt : 0 < t.remain.toNat := by
    rw [hcopied.remain]
    omega
  obtain ⟨hbt, -, -, hat⟩ := hcopied.completion.goesOn (BitVec.toNat_ne.2 hrt.ne')
  have hbt := hbt.trans hb
  have hpt := hsetup.path.trans hp
  have hpendt : 0 < t.pend.toNat := by omega
  have hfits : t.cursor.toNat + 3 ≤ t.inLen.toNat := by
    rw [hsetup.inLen, hcursor]
    omega
  have hctx : t.codeCtx = .d24 true :=
    codeCtx_of_enabled24 ((enabled24_iff true t).2 ⟨hbt, hpt, by simpa using hpendt⟩)
  obtain ⟨u, hu, hrun⟩ := (litpEffect t (pixelAt t.inMem t.cursor.toNat) hinv hbt hpt hpendt).2.completes hfits
  have hu : step t = .next u := (step_of_bytesAtCursor (i := .litp _) hbt (hsetup.schedule.trans hs) (hat.trans ha) rfl
    hctx.symm hfits (bytes3_pixelAt _ _)).trans hu
  have hcursor' := hrun.cursor
  have hpend' := hrun.pend
  rw [hsetup.inMem, hcursor] at hrun
  exact ⟨u, hu, everyStepKeepsInvariant t u hinv hu, hcopied.literal hrt hrun, by omega, by omega⟩

/-- A run can be lengthened by one more step at its end. -/
theorem run_snoc {M : Host.Core} {s t u : M.State} {n : Nat} (h : M.run n s = .next t) (hu : M.step t = .next u) :
    M.run (n + 1) s = .next u := by
  induction n generalizing s with
  | zero =>
    cases h
    exact run_succ 0 hu
  | succ n ih =>
    cases hv : M.step s with
    | next v => exact (run_succ (n + 1) hv).trans (ih ((run_succ n hv).symm.trans h))
    | fault f => simp [Host.Core.run, hv] at h
    | refused r => simp [Host.Core.run, hv] at h

/-- Settles O55, by induction on the literals: the LITC copies the first and each LITP one more. -/
theorem literalChainCopiesTheStream : Obligations.LiteralChainCopiesTheStream := by
  intro s m hinv hb hp hpend hs ha hctl hm hm0 hfits
  have hr := hinv.busy_remain hb
  have hm1 : 0 < m.toNat := Nat.pos_of_ne_zero fun h0 => hm0 (BitVec.eq_of_toNat_eq h0)
  have hchain : ∀ n, 1 ≤ n → n ≤ min m.toNat s.remain.toNat →
      ∃ t, core.run n s = .next t ∧ ChainAt s (s.cursor.toNat + 2) m.toNat n t := by
    intro n h1
    induction n, h1 using Nat.le_induction with
    | base =>
      intro _
      obtain ⟨t, ht, hat⟩ := chainAt_litc hinv hb hp hpend hs ha hctl hm (by omega)
      exact ⟨t, run_succ (M := core) 0 ht, hat⟩
    | succ n _ ih =>
      intro hn
      obtain ⟨t, ht, hat⟩ := ih (by omega)
      obtain ⟨u, hu, hau⟩ := hat.litp hb hp hs ha (by omega) (by omega) (by omega)
      exact ⟨u, run_snoc (M := core) ht hu, hau⟩
  obtain ⟨t, ht, -, hcopied, hcursor, hpendt⟩ := hchain _ (by omega) (Nat.le_refl _)
  have hremain : t.remain.toNat = s.remain.toNat - m.toNat := by
    rw [hcopied.remain]
    omega
  refine ⟨t, ht, hcursor, hremain, by omega, hcopied.bytes, fun hle => ?_, fun hlt => ?_⟩
  · have hzero : t.remain.toNat = 0 := by omega
    obtain ⟨hdone, hok, -⟩ := hcopied.completion.ended (BitVec.eq_of_toNat_eq hzero)
    exact ⟨hdone, hok⟩
  · have hpos : t.remain.toNat ≠ 0 := by omega
    obtain ⟨hsame, -⟩ := hcopied.completion.goesOn (BitVec.toNat_ne.2 hpos)
    exact hsame.trans hb

end Sys2Proof.Machine

/-! ## What each D8 code does -/

namespace Sys2Proof.Machine

section
variable {s : State} {pix : Byte} {cnt : Int} {k : State → Out}

/-- A D8 code that is presented from the invariant and ends with the run (`pix`, `cnt`, `pos`), and with POSFIX set if
`fix` says so, has that run's effect: there is room for the run, and IN_LEN either leaves the code whole or cuts one of
its fields. -/
theorem codeEffect_of_run8 (i : Instr) (fix : Bool) (pos : Fin Config.k8) (hinv : s.Inv) (hb : s.engine = .busy)
    (hp : s.path = .d8) (he : exec i s = code8 i.fields s k)
    (hk : k (advance i.length s) = finish8 pix cnt pos { advance i.length s with posfix := s.posfix || fix }) :
    CodeEffect i s fun t => Ran8 s t i.length fix pix cnt pos := by
  have hroom := hinv.room hb
  rw [hp] at hroom
  refine codeEffect_of_fields (he.trans (code8_enabled k ((enabled8_iff s).2 ⟨hb, hp⟩))) fun hfits => ?_
  rw [hk]
  exact finish8_ran fix pix cnt pos hinv.outMem_wf hroom hfits

/-- A code other than an escape reference leaves POSFIX as it is. -/
theorem codeEffect_of_run8_keeps_posfix (i : Instr) (pos : Fin Config.k8) (hinv : s.Inv) (hb : s.engine = .busy)
    (hp : s.path = .d8) (he : exec i s = code8 i.fields s k)
    (hk : k (advance i.length s) = finish8 pix cnt pos (advance i.length s)) :
    CodeEffect i s fun t => Ran8 s t i.length false pix cnt pos :=
  codeEffect_of_run8 i false pos hinv hb hp he (hk.trans (congrArg _ (posfix_unchanged s i.length)))

end

/-- Settles O23: the code is one byte and then the run of `lo + 1` of slot `hi - 1`. -/
theorem brefEffect : Obligations.BrefEffect := fun _ hi lo hinv hb hp _ =>
  ⟨rfl, codeEffect_of_run8_keeps_posfix (.bref hi lo) (brefSlot hi) hinv hb hp rfl rfl⟩

/-- Settles O24: each code ends with its byte, and then the run of its count of that byte; only BLIT32's count is
read as signed. -/
theorem literalRunEffects8 : Obligations.LiteralRunEffects8 := by
  intro s b hinv hb hp
  refine ⟨fun lo => ⟨rfl, ?blit⟩, fun k => ⟨rfl, ?blit8⟩, fun k => ⟨rfl, ?blit16⟩, fun k => ⟨rfl, ?blit32⟩⟩
  case blit | blit8 | blit16 | blit32 =>
    exact codeEffect_of_run8_keeps_posfix _ literalSlot8 hinv hb hp rfl rfl

/-- Settles O25: each code ends with its slot byte, and then the run of its count of that slot; `sel = 0` is the one
selector that sets POSFIX. -/
theorem escapeReferenceEffects8 : Obligations.EscapeReferenceEffects8 := by
  intro s sel q hinv hb hp
  refine ⟨fun k => ⟨rfl, ?bref8⟩, fun k => ⟨rfl, ?bref16⟩, fun k => ⟨rfl, ?bref32⟩⟩
  case bref8 | bref16 | bref32 =>
    exact codeEffect_of_run8 _ (sel == 0) (escapeSlot sel) hinv hb hp rfl rfl

end Sys2Proof.Machine

/-! ## Move-to-front on D8 -/

namespace Sys2Proof.Machine

section
variable {s t : State} {i : Instr}

/-- A D8 code that has a next state was presented. -/
theorem enabled8_of_next (hctx : i.ctx = .d8) (h : exec i s = .next t) : enabled8 s = true := by
  obtain ⟨k, he, -⟩ := exec_eq_code8 hctx s
  by_contra hen
  rw [he, code8, if_neg hen] at h
  cases h

/-- On D8, the D8 codes are what the engine reads. -/
theorem codeCtx_of_d8 (hp : s.path = .d8) : s.codeCtx = .d8 := by
  rw [State.codeCtx, hp]

theorem ctx_of_references8 {k : Nat} (href : References8 i k) : i.ctx = .d8 := by
  obtain ⟨hi, lo, rfl, -⟩ | ⟨n, sel, q, rfl, -⟩ | ⟨n, sel, q, rfl, -⟩ | ⟨n, sel, q, rfl, -⟩ := href <;> rfl

/-- A reference to slot `k` that is not truncated is a run of the pixel of slot `k`, whichever code makes it. -/
theorem references8_ran {k : Nat} (hk : k < 15) (href : References8 i k) (hinv : s.Inv) (h : exec i s = .next t)
    (hn : t.result ≠ .truncated) : ∃ len fix cnt, Ran8 s t len fix s.frame8[k] cnt k := by
  have hctx := ctx_of_references8 href
  obtain ⟨hb, hp⟩ := (enabled8_iff s).1 (enabled8_of_next hctx h)
  have hfits := fits_of_not_truncated hinv hb (hctx.trans (codeCtx_of_d8 hp).symm) h hn
  obtain ⟨hi, lo, rfl, hslot⟩ | ⟨n, sel, q, rfl, rfl⟩ | ⟨n, sel, q, rfl, rfl⟩ | ⟨n, sel, q, rfl, rfl⟩ := href
  · have hne : hi ≠ 0 := by
      rintro rfl
      simp at hslot
    obtain rfl : hi.toNat - 1 = k := by omega
    exact ⟨_, _, _, (brefEffect s hi lo hinv hb hp hne).2.of_next hfits h⟩
  · exact ⟨_, _, _, ((escapeReferenceEffects8 s sel q hinv hb hp).1 n).2.of_next hfits h⟩
  · exact ⟨_, _, _, ((escapeReferenceEffects8 s sel q hinv hb hp).2.1 n).2.of_next hfits h⟩
  · exact ⟨_, _, _, ((escapeReferenceEffects8 s sel q hinv hb hp).2.2 n).2.of_next hfits h⟩

/-- The bytes that a run writes are its pixel. -/
theorem Ran8.read_inside {len pos a : Nat} {fix : Bool} {pix : Byte} {cnt : Int} (h : Ran8 s t len fix pix cnt pos)
    (h1 : s.outPtr.toNat ≤ a) (h2 : a < t.outPtr.toNat) : t.outMem.read a = pix := by
  simpa [Nat.mod_one] using h.emitted.inside a h1 h2

end

/-- Settles O54: the first run is of the pixel of slot `k` and leaves it at slot 0, from where the second takes it. -/
theorem moveToFrontTwiceOnD8 : Obligations.MoveToFrontTwiceOnD8 := by
  intro s t u i j k hk hi hj hinv ht hbusy hu hun
  obtain ⟨-, hp⟩ := (enabled8_iff s).1 (enabled8_of_next (ctx_of_references8 hi) ht)
  have hcode := isCode_of_ctx ((ctx_of_references8 hi).trans (codeCtx_of_d8 hp).symm)
  have htinv : t.Inv := exec_keeps_inv hcode hinv ht
  have htn : t.result ≠ .truncated := by simp [htinv.result_ok hbusy]
  obtain ⟨_, _, _, hrun⟩ := references8_ran hk hi hinv ht htn
  obtain ⟨_, _, _, hrun'⟩ := references8_ran (by decide) hj htinv hu hun
  have hfront : t.frame8[0] = s.frame8[k] := hrun.moved.front (by decide)
  have hfront' : u.frame8[0] = s.frame8[k] := (hrun'.moved.front (by decide)).trans hfront
  refine ⟨fun a h1 h2 => ?_, hfront, hfront'⟩
  by_cases hlt : a < t.outPtr.toNat
  · rw [hrun'.emitted.outside a (.inl hlt)]
    exact hrun.read_inside h1 hlt
  · rw [hrun'.read_inside (by omega) h2, hfront]

end Sys2Proof.Machine

/-! ## The abort step, a STATUS write, the host's accesses to the buffers, and an idle core -/

namespace Sys2Proof.Machine

/-! The abort step's turn -/

section
variable {s : State} {rest : List Turn}

theorem step_of_abortStep (hs : s.schedule = .abortStep :: rest) :
    step s = takeTurn .abortStep { s with schedule := rest } := by
  rw [step, stepTurn, hs]

theorem busy_and_abortReq_iff (s : State) : (s.busy && s.abortReq) = true ↔ s.engine = .busy ∧ s.abortReq = true := by
  rw [Bool.and_eq_true, busy_iff]

theorem takeTurn_abortStep_enabled (hb : s.engine = .busy) (ha : s.abortReq = true) :
    takeTurn .abortStep s = .next (abortStep s) :=
  if_pos ((busy_and_abortReq_iff s).2 ⟨hb, ha⟩)

theorem takeTurn_abortStep_not_enabled (h : s.engine ≠ .busy ∨ s.abortReq = false) :
    takeTurn .abortStep s = .next s := by
  refine if_neg ?_
  rwa [busy_and_abortReq_iff, not_and_or, Bool.not_eq_true]

end

/-- Settles O34: the turn is the abort step where that is enabled, and is only used up elsewhere. -/
theorem abortStepEndsTheDecode : Obligations.AbortStepEndsTheDecode := by
  intro s rest hs
  rw [step_of_abortStep hs]
  exact ⟨takeTurn_abortStep_enabled (s := { s with schedule := rest }), fun hb hinv => hinv.errOff_zero hb,
    takeTurn_abortStep_not_enabled (s := { s with schedule := rest })⟩

/-! A STATUS write -/

theorem writeReg_status (v : Word) (s : State) :
    writeReg 0x008 v s = { s with irqPend := if v.getLsbD 8 then false else s.irqPend } := by
  rw [writeReg, if_pos rfl]
  cases v.getLsbD 8 <;> simp

/-- Settles O37: STATUS is the first branch of `writeReg`, taken before BUSY is looked at. -/
theorem statusWriteClearsIrqPend : Obligations.StatusWriteClearsIrqPend := by
  intro s rest v hs
  rw [step_writeReg hs (by decide) (by decide)]
  exact congrArg _ (writeReg_status v _)

/-! Buffer accesses that the host has (20_memory R84) -/

section
variable {s : State} (a : Word) (b : Byte)

theorem hostMove_writeInput (hn : s.engine ≠ .busy) :
    hostMove (.writeInput a b) s = .next { s with inMem := s.inMem.write a.toNat b } :=
  if_neg ((not_busy_iff s).2 hn)

theorem hostMove_readInput :
    hostMove (.readInput a) s = .next { s with busData := (s.inMem.read a.toNat).setWidth 32 } :=
  rfl

theorem not_ownsOutput (h : s.engine ≠ .busy ∨ s.npix.toNat * bytesPerUnit s.path ≤ a.toNat) :
    ¬ ownsOutput a s = true := by
  rw [ownsOutput_iff, not_and_or, Nat.not_lt]
  exact h

theorem hostMove_writeOutput (h : s.engine ≠ .busy ∨ s.npix.toNat * bytesPerUnit s.path ≤ a.toNat) :
    hostMove (.writeOutput a b) s = .next { s with outMem := s.outMem.write a.toNat b } :=
  if_neg (not_ownsOutput a h)

theorem hostMove_readOutput (h : s.engine ≠ .busy ∨ s.npix.toNat * bytesPerUnit s.path ≤ a.toNat) :
    hostMove (.readOutput a) s = .next { s with busData := (s.outMem.read a.toNat).setWidth 32 } :=
  if_neg (not_ownsOutput a h)

end

/-- Settles O41: such a move is one `Memory.write`, or one `Memory.read` onto the bus; the written byte reads back
because the invariant keeps both spaces in canonical form. -/
theorem hostBufferAccesses : Obligations.HostBufferAccesses := by
  intro s rest a b hinv
  have zeroExtended (c : Byte) : (c.setWidth 32).toNat = c.toNat := BitVec.toNat_setWidth_of_le (by decide)
  refine ⟨fun hn hs => ?writeInput, fun hs => ?readInput, fun ho => ⟨fun hs => ?writeOutput, fun hs => ?readOutput⟩⟩
  case writeInput =>
    exact ⟨_, (step_of_host hs).trans (hostMove_writeInput a b hn), rfl,
      Memory.read_write_same _ b hinv.inMem_wf, fun _ hx => Memory.read_write_other _ b hx⟩
  case readInput =>
    exact ⟨_, (step_of_host hs).trans (hostMove_readInput a), rfl, zeroExtended _⟩
  case writeOutput =>
    exact ⟨_, (step_of_host hs).trans (hostMove_writeOutput a b ho), rfl,
      Memory.read_write_same _ b hinv.outMem_wf, fun _ hx => Memory.read_write_other _ b hx⟩
  case readOutput =>
    exact ⟨_, (step_of_host hs).trans (hostMove_readOutput a ho), rfl, zeroExtended _⟩

/-! A core that is not BUSY -/

theorem engineTurn_not_busy {s : State} (hn : s.engine ≠ .busy) : engineTurn s = .next s :=
  if_neg ((not_busy_iff s).2 hn)

/-- Settles O46: with an empty schedule the engine moves, and its turn is nothing when it is not BUSY. -/
theorem idleCoreDoesNothing : Obligations.IdleCoreDoesNothing := fun _ hs hn =>
  (step_of_noTurn hs).trans (engineTurn_not_busy hn)

end Sys2Proof.Machine

/-! ## The reset, and what a start forgets of earlier decodes -/

namespace Sys2Proof.Machine

/-! The output space after a reset (70_reset R231) -/

theorem hardReset_outMem_not_busy {s : State} (hn : s.engine ≠ .busy) : (hardReset s).outMem = s.outMem :=
  if_neg ((not_busy_iff s).2 hn)

theorem hardReset_outMem_busy {s : State} (hb : s.engine = .busy) :
    (hardReset s).outMem = freeBelow s.freeIdx s.outMem s.outSize :=
  if_pos ((busy_iff s).2 hb)

/-- Settles O6: the turn is `hardReset`, which gives the reset state but for the buffers and the environment's fields,
and frees the output bytes below the size of a decode under way only. -/
theorem resetMoveResetsTheCore : Obligations.ResetMoveResetsTheCore := by
  intro s rest hs
  refine ⟨_, step_of_host hs, rfl, fun hn => ?notBusy, fun hb a ha => ?busy⟩
  case notBusy => exact hardReset_outMem_not_busy (s := { s with schedule := rest }) hn
  case busy =>
    rw [hardReset_outMem_busy (s := { s with schedule := rest }) hb]
    exact read_freeBelow_above _ _ ha

/-! What a start does not clear -/

/-- `s` with all that a start does not read, the header aside, taken from `e`: the frames, PATH, both buffers and the
environment's fields. -/
def withLeftovers (e s : State) : State :=
  { s with
    frame24 := e.frame24
    frame8 := e.frame8
    path := e.path
    inMem := e.inMem
    outMem := e.outMem
    schedule := e.schedule
    busData := e.busData
    freeIdx := e.freeIdx }

/-- `t` and `v`, the outcomes of a start beside the leftovers of `e` and of the same start beside others, agree in every
register, and in the frames and PATH too once the start is dispatched (70_reset R232). -/
structure StartsAgree (e t v : State) : Prop where
  registers : t = withLeftovers { e with frame24 := t.frame24, frame8 := t.frame8, path := t.path } v
  history : t.fmt ≠ .noFmt → t.frame24 = v.frame24 ∧ t.frame8 = v.frame8 ∧ t.path = v.path

section
variable {s u : State} (e : State)

/-- A start that ends before it is dispatched leaves the frames and PATH, and no format. -/
theorem endDecode_startsAgree (r : ResultCode) (hfmt : u.fmt = .noFmt) :
    StartsAgree e (endDecode .fail r (withLeftovers e u)) (endDecode .fail r u) :=
  ⟨rfl, fun hf => absurd hfmt hf⟩

/-- A dispatched decode has its frames and PATH from the dispatch, whether the image is empty or not. -/
theorem complete_dispatched_startsAgree :
    StartsAgree e (complete (dispatched (withLeftovers e u))) (complete (dispatched u)) := by
  have hremain : (dispatched (withLeftovers e u)).remain = (dispatched u).remain := rfl
  rw [complete, complete, hremain]
  by_cases h0 : (dispatched u).remain = 0
  · rw [if_pos h0, if_pos h0]
    exact ⟨rfl, fun _ => ⟨rfl, rfl, rfl⟩⟩
  · rw [if_neg h0, if_neg h0]
    exact ⟨rfl, fun _ => ⟨rfl, rfl, rfl⟩⟩

theorem startImage_startsAgree (hfmt : u.fmt = .noFmt) :
    StartsAgree e (startImage (withLeftovers e u)) (startImage u) := by
  obtain ⟨hd, h⟩ | ⟨hd, hbig, h⟩ | ⟨hd, hfits, h⟩ := startImage_cases u <;> rw [h]
  · rw [startImage_declined (u := withLeftovers e u) (ne_true_of_eq_false hd)]
    exact endDecode_startsAgree e .declined hfmt
  · rw [sized_stride_toNat hd] at hbig
    rw [startImage_tooBig (u := withLeftovers e u) hd hbig]
    exact endDecode_startsAgree (u := sized u) e .size hfmt
  · rw [sized_stride_toNat hd] at hfits
    rw [startImage_fits (u := withLeftovers e u) hd hfits]
    exact complete_dispatched_startsAgree (u := sized u) e

/-- The header is read from the input bytes below offset 16 only (40_dispatch R124). -/
theorem readHeader_withLeftovers (h : ∀ a, a < 16 → e.inMem.read a = u.inMem.read a) :
    readHeader (withLeftovers e u) = withLeftovers e (readHeader u) := by
  simp [readHeader, withLeftovers, h]

/-- Step 0 of a start clears every register that is not the configuration's (40_dispatch R131 a). -/
theorem clearForStart_eq_withLeftovers (hdr ie : Bool) (hw : s.width = u.width) (hh : s.height = u.height)
    (hd : s.depth = u.depth) (hl : s.inLen = u.inLen) (hc : s.outCap = u.outCap) :
    clearForStart (withCtrl 0 hdr ie s) = withLeftovers s (clearForStart (withCtrl 0 hdr ie u)) := by
  simp only [clearForStart, withCtrl, withLeftovers, hw, hh, hd, hl, hc]

end

/-- Settles O52: once step 0 has cleared the registers, the two cores differ only in what the rest of the start does not
read, and the dispatch overwrites the frames and PATH. -/
theorem startForgetsEarlierDecodes : Obligations.StartForgetsEarlierDecodes := by
  intro s u abort hdr ie hs hu hw hh hd hl hc hhdr
  have hclear := clearForStart_eq_withLeftovers hdr ie hw hh hd hl hc
  suffices StartsAgree s (startSequence (withCtrl 0 hdr ie s)) (startSequence (withCtrl 0 hdr ie u)) from
    ⟨_, _, exec_startDecode abort hdr ie hs, exec_startDecode abort hdr ie hu, this.registers, this.history⟩
  cases hdr with
  | false =>
    rw [startSequence_direct rfl rfl, startSequence_direct rfl rfl, hclear]
    exact startImage_startsAgree s rfl
  | true =>
    by_cases hshort : u.inLen.toNat < 16
    · rw [startSequence_shortHeader rfl rfl (hl ▸ hshort),
        startSequence_shortHeader (s := withCtrl 0 true ie u) rfl rfl hshort, hclear]
      exact endDecode_startsAgree s .truncated rfl
    · have hwhole : 16 ≤ u.inLen.toNat := Nat.not_lt.1 hshort
      rw [startSequence_header rfl rfl (hl ▸ hwhole), startSequence_header (s := withCtrl 0 true ie u) rfl rfl hwhole,
        hclear, readHeader_withLeftovers (u := clearForStart (withCtrl 0 true ie u)) s hhdr]
      exact startImage_startsAgree s rfl

end Sys2Proof.Machine

/-! ## The invariant at reset -/

namespace Sys2Proof.Machine

/-- An idle core that reports no error, no interrupt and no abort request keeps the invariant by its standing part
alone: every other field speaks of a decode under way or ended. -/
theorem Standing.idle_inv {s : State} (h : Standing s) (he : s.engine = .idle) (hr : s.result = .ok)
    (hi : s.irqPend = false) (ha : s.abortReq = false) (ho : s.errOff = 0) : s.Inv :=
  have hbusy : s.engine ≠ .busy := he ▸ nofun
  have hdone : s.engine ≠ .done := he ▸ nofun
  { h with
    result_ok_iff := iff_of_true hr (he ▸ nofun)
    idle_busy_irq := fun _ => hi
    abortReq_busy := fun hreq => absurd (ha.symm.trans hreq) nofun
    busy_remain := fun hb => absurd hb hbusy
    done_remain := fun hd => absurd hd hdone
    busy_fmt := fun hbd => (hbd.elim hbusy hdone).elim
    busy_size := fun hb => absurd hb hbusy
    busy_fits := fun hb => absurd hb hbusy
    busy_cursor := fun hb => absurd hb hbusy
    busy_op := fun hb => absurd hb hbusy
    errOff_truncated := fun hne => absurd ho hne }

/-- At reset nothing is written and no format is chosen, and every register the invariant bounds is 0 (10_state R48). -/
theorem standing_reset : Standing State.reset where
  inMem_wf := rfl
  outMem_wf := rfl
  fmt_path := fun hf => absurd rfl hf
  remain_le := Nat.le_refl _
  npix_le := Nat.zero_le _
  stride_le := Nat.zero_le _
  outPtr_eq := fun hf => absurd rfl hf
  pend_le := Nat.zero_le _
  d8_pend := nofun

/-- Settles O2: the reset state is idle and has the standing part of the invariant. -/
theorem resetStateKeepsInvariant : Obligations.ResetStateKeepsInvariant :=
  standing_reset.idle_inv rfl rfl rfl rfl rfl

end Sys2Proof.Machine
